-- ==== Sys2Proof/Word.lean ====
section
/-! DEFINITION. The two word types of the engine (spec 00_scope.md R8). -/

namespace Sys2Proof

/-- A *byte*: an 8-bit unsigned value 0..255; bit 0 is the least significant bit (R8). -/
abbrev Byte := BitVec 8

/-- A *u16*: a 16-bit unsigned value 0..65535 (R8). -/
abbrev U16 := BitVec 16

end Sys2Proof
end

