-- ==== Sys2Proof/Config.lean ====
section
/-! DEFINITION. The implementation parameters of 00_scope.md R5 that are not engine state (R20), and the one
free constant behind the parameter `P_CRC16`. -/

namespace Sys2Proof

/-- The identity string of this hardware (R2, decision D29). -/
def Config.identity : String := "MBRTU-SLAVE-CORE/fc=01,02,03,04,05,06,0F,10,RAW"

/-- FREE. Any other instance of `P_CRC16` (R6: a pure total function from byte sequences to 16 bits): nothing is
known of it but that it is a function of the bytes. The number only tells instances apart. -/
opaque Config.crc16Other : Nat → List Byte → U16

/-- The choice of `P_CRC16` (R5, R6, R125, 90_conflicts.md C2). A function cannot stand in plain data, so the
parameter is carried as the name of its instance. -/
inductive CrcParam where
  /-- the default instance of R125: the byte-swapped CRC-16/MODBUS -/
  | modbusSwapped
  /-- the unswapped CRC-16/MODBUS (90_conflicts.md C2: a different, legal parameter value) -/
  | modbus
  /-- any other function (free: `Config.crc16Other n`) -/
  | other (n : Nat)
  deriving DecidableEq, Repr

/-- The eight standard function codes of R73. -/
def standardCodes : List Byte := [0x01, 0x02, 0x03, 0x04, 0x05, 0x06, 0x0F, 0x10]

/-- The legal values of R5 and R74: `P_WT` at least 1, both capacities at least 255, `P_TCAP` at least 1, and
`P_FC_RAW` in 0x00..0x7F and none of the eight standard codes. -/
def paramsLegal (wt rxCap txCap tcap : Nat) (fcRaw : Byte) : Bool :=
  decide (1 ≤ wt) && decide (255 ≤ rxCap) && decide (255 ≤ txCap) && decide (1 ≤ tcap) &&
    decide (fcRaw.toNat ≤ 0x7F) && !standardCodes.contains fcRaw

/-- The parameters R5 gives the model as arguments and R20 keeps out of the engine's state. An illegal
combination cannot be written down (`legal`). -/
structure Params where
  /-- `P_WT`: width in bits of the clock `Now()` -/
  wt : Nat
  /-- `P_RX_CAP`: capacity of the receive buffer in bytes -/
  rxCap : Nat
  /-- `P_TX_CAP`: capacity of the transmit buffer in bytes -/
  txCap : Nat
  /-- `P_TCAP`: capacity of the external transport's receive buffer (OPEN, D26) -/
  tcap : Nat
  /-- `P_FC_RAW`: function code of the raw-transfer extension (OPEN, D2) -/
  fcRaw : Byte
  /-- `P_CRC16`: the checksum function -/
  crc : CrcParam
  /-- the combination is legal (R5) -/
  legal : paramsLegal wt rxCap txCap tcap fcRaw = true
  deriving DecidableEq, Repr

/-- The parameter values a run from `State.reset` has: the defaults R5 states (`P_WT` = 32, both capacities 256, the
default checksum), and for the two OPEN parameters the values notes/assumptions/2.md names (DESIGN CHOICE, unsafe):
`P_FC_RAW` = 0x41, the example value of 95_test_vectors.md, and `P_TCAP` = 512. Every statement is made for every
`Params`, not for this one. -/
def Params.default : Params :=
  { wt := 32, rxCap := 256, txCap := 256, tcap := 512, fcRaw := 0x41, crc := .modbusSwapped, legal := by decide }

end Sys2Proof
end

