-- ==== Sys2Proof/Syntax.lean ====
section
/-! DEFINITION. The instruction set: one constructor per row of spec/opcode_table.json. An instruction is one request
frame without its checksum (30_encoding.md R70, R71): the unit address, the fields of its format, and the bytes that
lie between the last field and the checksum, which the checksum covers and the engine otherwise ignores (D13). -/

namespace Sys2Proof

/-- One request frame. `extra` is `F[6 .. L-2)`, the bytes after the fixed fields (R71). `body` of the two
write-multiple requests is `F[6 .. L-2)` too; its first byte, where there is one, is the byte count BC. -/
inductive Instr where
  /-- fc 0x01, format REQ_READ (R141) -/
  | readCoils (unit : Byte) (reg qty : U16) (extra : List Byte)
  /-- fc 0x02, format REQ_READ (R142) -/
  | readDiscreteInputs (unit : Byte) (reg qty : U16) (extra : List Byte)
  /-- fc 0x03, format REQ_READ (R143) -/
  | readHoldingRegisters (unit : Byte) (reg qty : U16) (extra : List Byte)
  /-- fc 0x04, format REQ_READ (R144) -/
  | readInputRegisters (unit : Byte) (reg qty : U16) (extra : List Byte)
  /-- fc 0x05, format REQ_WSINGLE (R145) -/
  | writeSingleCoil (unit : Byte) (reg value : U16) (extra : List Byte)
  /-- fc 0x06, format REQ_WSINGLE (R146) -/
  | writeSingleRegister (unit : Byte) (reg value : U16) (extra : List Byte)
  /-- fc 0x0F, format REQ_WMULTI (R147) -/
  | writeMultipleCoils (unit : Byte) (reg qty : U16) (body : List Byte)
  /-- fc 0x10, format REQ_WMULTI (R148) -/
  | writeMultipleRegisters (unit : Byte) (reg qty : U16) (body : List Byte)
  /-- fc `P_FC_RAW`, format REQ_RAW (R149): index 4 is ignored, index 5 is the quantity -/
  | rawTransfer (unit : Byte) (reg : U16) (ignored qty : Byte) (extra : List Byte)
  /-- every other fc, format REQ_OTHER (R150): indices 4 and 5 are not read -/
  | illegalFunction (unit fc : Byte) (reg : U16) (b4 b5 : Byte) (extra : List Byte)
  deriving DecidableEq, Repr

end Sys2Proof
end

