-- ==== Sys2Proof/WellFormed.lean ====
section
/-! DEFINITION. Which instruction terms are frames the engine can hold and decode to that term. -/

namespace Sys2Proof

/-- The bytes an instruction carries beyond the six fixed ones and the checksum. -/
def Instr.tail : Instr → List Byte
  | .readCoils _ _ _ x => x
  | .readDiscreteInputs _ _ _ x => x
  | .readHoldingRegisters _ _ _ x => x
  | .readInputRegisters _ _ _ x => x
  | .writeSingleCoil _ _ _ x => x
  | .writeSingleRegister _ _ _ x => x
  | .writeMultipleCoils _ _ _ x => x
  | .writeMultipleRegisters _ _ _ x => x
  | .rawTransfer _ _ _ _ x => x
  | .illegalFunction _ _ _ _ _ x => x

/-- The function code of an instruction (R73): the constant of its row, `P_FC_RAW` for the vendor extension, the
byte itself for an illegal code. -/
def Instr.fc (p : Params) : Instr → Byte
  | .readCoils _ _ _ _ => 0x01
  | .readDiscreteInputs _ _ _ _ => 0x02
  | .readHoldingRegisters _ _ _ _ => 0x03
  | .readInputRegisters _ _ _ _ => 0x04
  | .writeSingleCoil _ _ _ _ => 0x05
  | .writeSingleRegister _ _ _ _ => 0x06
  | .writeMultipleCoils _ _ _ _ => 0x0F
  | .writeMultipleRegisters _ _ _ _ => 0x10
  | .rawTransfer _ _ _ _ _ => p.fcRaw
  | .illegalFunction _ fc _ _ _ _ => fc

/-- The unit address, byte 0 of the frame (R72). -/
def Instr.unit : Instr → Byte
  | .readCoils u _ _ _ => u
  | .readDiscreteInputs u _ _ _ => u
  | .readHoldingRegisters u _ _ _ => u
  | .readInputRegisters u _ _ _ => u
  | .writeSingleCoil u _ _ _ => u
  | .writeSingleRegister u _ _ _ => u
  | .writeMultipleCoils u _ _ _ => u
  | .writeMultipleRegisters u _ _ _ => u
  | .rawTransfer u _ _ _ _ => u
  | .illegalFunction u _ _ _ _ _ => u

/-- The length check: the whole frame, 6 fixed bytes, the tail and 2 checksum bytes, fits `RX_BUF` (R107). -/
def Instr.fits (p : Params) (i : Instr) : Bool := decide (8 + i.tail.length ≤ p.rxCap)

/-- The code check: an ILLEGAL_FUNCTION frame carries none of the nine mapped codes (R75). -/
def Instr.codeOk (p : Params) : Instr → Bool
  | .readCoils _ _ _ _ => true
  | .readDiscreteInputs _ _ _ _ => true
  | .readHoldingRegisters _ _ _ _ => true
  | .readInputRegisters _ _ _ _ => true
  | .writeSingleCoil _ _ _ _ => true
  | .writeSingleRegister _ _ _ _ => true
  | .writeMultipleCoils _ _ _ _ => true
  | .writeMultipleRegisters _ _ _ _ => true
  | .rawTransfer _ _ _ _ _ => true
  | .illegalFunction _ fc _ _ _ _ => !standardCodes.contains fc && fc != p.fcRaw

/-- A well-formed instruction: one the engine's decoder can produce. -/
def Instr.wf (p : Params) (i : Instr) : Bool := i.fits p && i.codeOk p

end Sys2Proof
end

