-- ==== Sys2Proof/Decode.lean ====
section
/-! DEFINITION. Byte order and checksum helpers, the decoder from frame bytes to instructions (total, rejecting by
name), and the encoder back (20_memory.md R51, R52; 30_encoding.md R70 to R75; 41_frame_validator.md R121, R124, R125). -/

namespace Sys2Proof

/-! ### Byte order -/

/-- `hi8(v) = v[15:8]` (R8). -/
def hi8 (v : U16) : Byte := BitVec.ofNat 8 (v.toNat / 256)

/-- `lo8(v) = v[7:0]` (R8). -/
def lo8 (v : U16) : Byte := BitVec.ofNat 8 v.toNat

/-- `be16(hi, lo) = hi * 256 + lo` (R8, R51). -/
def be16 (hi lo : Byte) : U16 := BitVec.ofNat 16 (hi.toNat * 256 + lo.toNat)

/-- `ceil8(q) = (q + 7) div 8` (R8). -/
def ceil8 (q : Nat) : Nat := (q + 7) / 8

/-- A u16 as its two wire bytes, the high byte first (R51). -/
def beBytes (v : U16) : List Byte := [hi8 v, lo8 v]

/-! ### The checksum -/

/-- One of the eight rounds of R125. -/
def crcRound (c : U16) : U16 := if c.getLsbD 0 then (c >>> 1) ^^^ 0xA001#16 else c >>> 1

/-- `n` rounds. -/
def crcRounds : Nat → U16 → U16
  | 0, c => c
  | n + 1, c => crcRounds n (crcRound c)

/-- One byte of R125: exclusive or, then eight rounds. -/
def crcByte (c : U16) (x : Byte) : U16 := crcRounds 8 (c ^^^ BitVec.ofNat 16 x.toNat)

/-- `CRC16_MODBUS` of R125. -/
def crc16Modbus (s : List Byte) : U16 := s.foldl crcByte 0xFFFF#16

/-- The two bytes of a u16 exchanged. -/
def swap16 (v : U16) : U16 := be16 (lo8 v) (hi8 v)

/-- The parameter `P_CRC16` (R6), by the name of its instance. -/
def crc16 (c : CrcParam) (s : List Byte) : U16 :=
  match c with
  | .modbusSwapped => swap16 (crc16Modbus s)
  | .modbus => crc16Modbus s
  | .other n => Config.crc16Other n s

/-- The two trailing bytes of a frame whose other bytes are `s`: `hi8` first, whichever instance `P_CRC16` is (R52). -/
def checksum (p : Params) (s : List Byte) : List Byte := beBytes (crc16 p.crc s)

/-- R124: the two trailing bytes are the checksum of all the bytes before them. -/
def checksumOk (p : Params) (F : List Byte) : Bool :=
  F.drop (F.length - 2) == checksum p (F.take (F.length - 2))

/-! ### Decoder -/

/-- Why bytes are no instruction. Each is one of the silent drops of 60_exceptions.md R252. -/
inductive DecodeReject where
  /-- fewer than 8 bytes (R121) -/
  | short
  /-- more than `P_RX_CAP` bytes (R107) -/
  | overflow
  /-- the trailing bytes are not the checksum (R124) -/
  | badChecksum
  deriving DecidableEq, Repr

/-- R73, R140: the instruction of the function code, matched on all 8 bits; the eight standard codes, then `P_FC_RAW`,
then every other byte. `b2 .. b5` are the frame's bytes 2 to 5 and `x` the bytes from index 6 up to the checksum. -/
def decodeFields (p : Params) (unit fc b2 b3 b4 b5 : Byte) (x : List Byte) : Instr :=
  if fc = 0x01 then .readCoils unit (be16 b2 b3) (be16 b4 b5) x
  else if fc = 0x02 then .readDiscreteInputs unit (be16 b2 b3) (be16 b4 b5) x
  else if fc = 0x03 then .readHoldingRegisters unit (be16 b2 b3) (be16 b4 b5) x
  else if fc = 0x04 then .readInputRegisters unit (be16 b2 b3) (be16 b4 b5) x
  else if fc = 0x05 then .writeSingleCoil unit (be16 b2 b3) (be16 b4 b5) x
  else if fc = 0x06 then .writeSingleRegister unit (be16 b2 b3) (be16 b4 b5) x
  else if fc = 0x0F then .writeMultipleCoils unit (be16 b2 b3) (be16 b4 b5) x
  else if fc = 0x10 then .writeMultipleRegisters unit (be16 b2 b3) (be16 b4 b5) x
  else if fc = p.fcRaw then .rawTransfer unit (be16 b2 b3) b4 b5 x
  else .illegalFunction unit fc (be16 b2 b3) b4 b5 x

/-- The decoder, total on any bytes: the length and checksum conditions of R121, R107 and R124, then R72's operand
assembly. The extent of a request is its length alone (R79). -/
def decode (p : Params) (F : List Byte) : Except DecodeReject Instr :=
  match F with
  | unit :: fc :: b2 :: b3 :: b4 :: b5 :: rest =>
    if rest.length < 2 then .error .short
    else if p.rxCap < F.length then .error .overflow
    else if checksumOk p F then .ok (decodeFields p unit fc b2 b3 b4 b5 (rest.take (rest.length - 2)))
    else .error .badChecksum
  | _ => .error .short

/-! ### Encoder -/

/-- The six fixed bytes of an instruction's frame (R71). -/
def Instr.header (p : Params) (i : Instr) : List Byte :=
  match i with
  | .readCoils u r q _ => [u, i.fc p] ++ beBytes r ++ beBytes q
  | .readDiscreteInputs u r q _ => [u, i.fc p] ++ beBytes r ++ beBytes q
  | .readHoldingRegisters u r q _ => [u, i.fc p] ++ beBytes r ++ beBytes q
  | .readInputRegisters u r q _ => [u, i.fc p] ++ beBytes r ++ beBytes q
  | .writeSingleCoil u r v _ => [u, i.fc p] ++ beBytes r ++ beBytes v
  | .writeSingleRegister u r v _ => [u, i.fc p] ++ beBytes r ++ beBytes v
  | .writeMultipleCoils u r q _ => [u, i.fc p] ++ beBytes r ++ beBytes q
  | .writeMultipleRegisters u r q _ => [u, i.fc p] ++ beBytes r ++ beBytes q
  | .rawTransfer u r b4 b5 _ => [u, i.fc p] ++ beBytes r ++ [b4, b5]
  | .illegalFunction u _ r b4 b5 _ => [u, i.fc p] ++ beBytes r ++ [b4, b5]

/-- A byte sequence with its checksum appended (R70, R214). -/
def withChecksum (p : Params) (s : List Byte) : List Byte := s ++ checksum p s

/-- The frame of an instruction: fixed bytes, tail, checksum (R70, R71). -/
def encode (p : Params) (i : Instr) : List Byte := withChecksum p (i.header p ++ i.tail)

/-- `F[6]` of a write-multiple frame, the byte count BC (R72). In an 8-byte frame index 6 is the first checksum byte
(R147: "F[6] always exists because L >= 8"; its corner case says which byte it then is). -/
def byteCount (p : Params) (unit fc : Byte) (reg qty : U16) (body : List Byte) : Byte :=
  match body with
  | bc :: _ => bc
  | [] => hi8 (crc16 p.crc ([unit, fc] ++ beBytes reg ++ beBytes qty))

/-! ### The opcode table's words -/

/-- The bytes of `w`, least significant first: bit 0 of the table's word is the least significant bit of its first
byte. -/
def tableBytes : Nat → Nat → List Byte
  | 0, _ => []
  | n + 1, w => BitVec.ofNat 8 w :: tableBytes n (w / 256)

/-- The frame of a table word. spec/opcode_table.json gives bits to the function code only, which is request byte 1, so
the word's bytes stand from index 1 on; the unit byte and all operand bytes are 0, up to the shortest frame of the
format with those operands (R71: 8 bytes, and 9 + BC = 9 for REQ_WMULTI); the checksum, which no row gives bits, is the
one the frame needs (notes/assumptions/4.md). -/
def tableFrame (p : Params) (nbits w : Nat) : List Byte :=
  let b := (0x00 : Byte) :: tableBytes (nbits / 8) w
  let n := if b.getD 1 0 = 0x0F ∨ b.getD 1 0 = 0x10 then 7 else 6
  withChecksum p (b ++ List.replicate (n - b.length) 0)

/-- The instruction the decoder reads from a table word, under the parameters a run from reset has. -/
def decodeTableWord (nbits w : Nat) : Option Instr :=
  match decode Params.default (tableFrame Params.default nbits w) with
  | .ok i => some i
  | .error _ => none

end Sys2Proof
end

