-- ==== Sys2Proof/Machine/State.lean ====
section
/-! DEFINITION. The engine's state (10_state.md R20 to R40), the ports and the host that drive it as plain data, and
the reasons a step can stop. -/

namespace Sys2Proof.Machine

/-- A byte memory: address and byte pairs, addresses strictly rising, no entry equal to what an unlisted address reads
as (`Memory.wf`, Machine/Memory.lean). -/
abbrev Memory := List Host.Cell

/-- `PHASE`, the values of the source's state machine (R36, R231). -/
inductive Phase where
  | idle | accumulating | silentDetected | frameReady | validating | dropped | decoding
  | exceptionReady | dispatching | responding | suppressed
  deriving DecidableEq, Repr

/-- `BKIND`: which builder operation the current function admits (R32). -/
inductive BuilderKind where
  /-- no builder write is admitted (`NONE`: the write functions) -/
  | none
  /-- READ_COILS and READ_DISCRETE_INPUTS (`BIT`) -/
  | bit
  /-- READ_HOLDING_REGISTERS and READ_INPUT_REGISTERS (`REG`) -/
  | reg
  /-- RAW_TRANSFER (`RAWBYTE`) -/
  | rawByte
  deriving DecidableEq, Repr

/-- A status code (R34). `exc 0` is not a status (D4): a callback that returns it is refused (`statusZero`). -/
inductive Status where
  | ok
  | exc (e : Byte)
  | suppress
  deriving DecidableEq, Repr

/-- `REQ`, the decoded request (R35). `viewOff` and `viewLen` delimit the payload view in `RX_BUF`. -/
structure Req where
  unit : Byte
  fc : Byte
  reg : U16
  qty : Nat
  viewOff : Nat
  viewLen : Nat
  deriving DecidableEq, Repr

/-- The model fault marks of 60_exceptions.md R253: kept for the whole run and never cleared; not hardware state. -/
inductive Mark where
  /-- a builder write after `BCAP` accepted writes (R185) -/
  | builderOverflow
  /-- a builder operation the current function does not admit (R186) -/
  | builderKind
  /-- `OK` after fewer than `BCAP` writes on a read or raw function (R187) -/
  | builderShort
  /-- an accessor index outside the request (R188, R189) -/
  | accessorRange
  /-- an accessor called for a function it does not serve (R190) -/
  | accessorFunction
  deriving DecidableEq, Repr

/-- The set of marks made so far, one Bool each. -/
structure Marks where
  builderOverflow : Bool
  builderKind : Bool
  builderShort : Bool
  accessorRange : Bool
  accessorFunction : Bool
  deriving DecidableEq, Repr

/-- The port events of R10, the observation of a poll (R241). -/
inductive PortEvent where
  /-- `RxAvailable()` returned this count -/
  | rxAvailable (count : Nat)
  /-- `Now()` returned this time -/
  | now (t : Nat)
  /-- `RxRead()` returned this byte -/
  | rxRead (b : Byte)
  /-- `Callback(unit, fc, reg, qty, view)` was invoked -/
  | callback (unit fc : Byte) (reg : U16) (qty : Nat) (view : List Byte)
  /-- the callback called `WriteBit(b)` -/
  | writeBit (b : Bool)
  /-- the callback called `WriteRegister(v)` -/
  | writeRegister (v : U16)
  /-- the callback called `ReadCoilValue(i)` and got a bit, or `none` for `ERR` -/
  | readCoilValue (i : Nat) (result : Option Bool)
  /-- the callback called `ReadRegisterValue(i)` and got a u16, or `none` for `ERR` -/
  | readRegisterValue (i : Nat) (result : Option U16)
  /-- the callback returned this status -/
  | callbackReturned (st : Status)
  /-- `DirAssert()` -/
  | dirAssert
  /-- `TxSend(s)` returned: the bytes are flushed -/
  | txSend (s : List Byte)
  /-- `DirDeassert()` -/
  | dirDeassert
  deriving DecidableEq, Repr

/-- What the external callback does on the port while it runs (R181, R192). -/
inductive CbAct where
  | writeBit (b : Bool)
  | writeRegister (v : U16)
  | readCoilValue (i : Nat)
  | readRegisterValue (i : Nat)
  /-- it calls `Process()` (forbidden, R264) -/
  | process
  deriving DecidableEq, Repr

/-- How an invocation of the callback ends (R191, R192). -/
inductive CbEnd where
  | returns (st : Status)
  /-- it never returns: a hang (R192, U19) -/
  | never
  deriving DecidableEq, Repr

/-- One invocation of the callback as the engine sees it: the port calls it makes, in order, and how it ends (R192,
D28). -/
structure CbRun where
  acts : List CbAct
  ends : CbEnd
  deriving DecidableEq, Repr

/-- What the ports answer during one poll (R266 to R269). -/
structure PollEnv where
  /-- the host's microsecond clock; `Now()` returns it modulo `2^P_WT` (R267) -/
  clock : Nat
  /-- what `RxAvailable()` reports: `none` is a transport that keeps its duties and reports its pending count;
  `some c` is any other count it may report (R266: the rules are defined for any sequence of counts) -/
  avail : Option Nat
  /-- what the callback does if this poll invokes it -/
  cb : CbRun
  /-- `TxSend` completes (a duty of the transport, R217) -/
  txCompletes : Bool
  deriving DecidableEq, Repr

/-- What the host, and through it the outside world, does to the engine (R84, R242, R254, R283). -/
inductive HostEvent where
  /-- `Reset()` (R280) -/
  | reset
  /-- `Configure(unit, baud, dir, cb)` (R281) -/
  | configure (unit : Byte) (baud : BitVec 32) (dir cb : Bool)
  /-- bytes arrive in the transport's receive queue -/
  | arrive (bytes : List Byte)
  /-- `Process()`, one poll, with what the ports answer during it -/
  | poll (env : PollEnv)
  /-- a builder or accessor call outside a callback invocation (R254) -/
  | strayCall (a : CbAct)
  /-- the application reads the payload view after its callback returned (R285) -/
  | staleView
  deriving DecidableEq, Repr

/-- Why the machine stops without an end state. -/
inductive Fault where
  /-- the callback never returns, so the poll never ends: a hang (R192, R242, U19 `stuck`). Raised by the callback
  port; safe (the model has no state where the hardware has none). -/
  | callbackNeverReturns
  /-- `TxSend` never completes, so the poll never ends: a hang (R217, R242, U19 `stuck`). Raised by the encoder's
  transmission; safe. -/
  | txNeverCompletes
  deriving DecidableEq, Repr

/-- Situations the spec gives no meaning: `refuse(Name)` of R11 and R254. -/
inductive Refusal where
  /-- an instruction without a meaning yet, by its mnemonic: raised by no arm of this model; safe -/
  | notModelled (mnemonic : String)
  /-- a poll before Configure (R230): raised by the poll's entry; safe -/
  | notConfigured
  /-- a poll while a poll is in progress, also one from inside the callback (R230, R264); safe -/
  | reentrant
  /-- a second Configure (R282); safe -/
  | configureTwice
  /-- Configure with baud 0 (R282); safe -/
  | badBaud
  /-- Configure with a threshold the clock cannot hold (R282); safe -/
  | thresholdTooWide
  /-- a builder or accessor call outside a callback invocation (R254, R181); safe -/
  | outsideCallback
  /-- a read of the payload view after the callback returned (R285, U22); safe -/
  | viewExpired
  /-- `RxRead()` finds no byte though the sampled count said there was one (D34, U23): raised by the burst read; safe -/
  | rxReadEmpty
  /-- `RxAvailable()` reports more than `P_TCAP`, which is no value of the port (R100, R266); safe -/
  | rxCountRange
  /-- the callback returned `EXC(0x00)`, which is not a status code (D4, U24); safe -/
  | statusZero
  deriving DecidableEq, Repr

/-- The machine. First the engine's own state, the table of R20 row by row; then the model's own fields, which are
not engine state: the parameters, the ports and the host as plain data, the fault marks and the observation. -/
structure State where
  /-- `CONFIGURED` (R26) -/
  configured : Bool
  /-- `CFG_UNIT` (R22) -/
  cfgUnit : Byte
  /-- `CFG_THRESH`, a `P_WT`-bit unsigned value in microseconds (R23) -/
  cfgThresh : Nat
  /-- `CFG_DIR` (R24) -/
  cfgDir : Bool
  /-- `CFG_CB` (R25) -/
  cfgCb : Bool
  /-- `OBS_COUNT`, 0..`P_TCAP` (R27) -/
  obsCount : Nat
  /-- `OBS_TIME`, a `P_WT`-bit unsigned value (R28) -/
  obsTime : Nat
  /-- `RX_BUF`, `P_RX_CAP` bytes (R29) -/
  rxBuf : Memory
  /-- `RX_LEN`, 0..`P_RX_CAP` (R29) -/
  rxLen : Nat
  /-- `TX_BUF`, `P_TX_CAP` bytes (R30) -/
  txBuf : Memory
  /-- `PLEN`, 0..251 (R31) -/
  plen : Nat
  /-- `BKIND` (R32) -/
  bkind : BuilderKind
  /-- `BCAP`, 0..2000 (R32) -/
  bcap : Nat
  /-- `DOFS`, 2 or 3 (R32) -/
  dofs : Nat
  /-- `DLEN`, 0..250 (R32) -/
  dlen : Nat
  /-- `WOFS`, 0..2000 (R32) -/
  wofs : Nat
  /-- `DIR_LINE`, true = asserted (R33) -/
  dirLine : Bool
  /-- `REQ`; `none` between polls, where none is held (R35, R39) -/
  req : Option Req
  /-- `STATUS`; `none` between polls, where none is held (R34, R39) -/
  status : Option Status
  /-- `PHASE` (R36) -/
  phase : Phase
  /-- `in_process` of R240: a `Process()` is in progress -/
  inProcess : Bool
  /-- model: the phases of the current or last poll, from the one it began in (R231) -/
  phasePath : List Phase
  /-- model: the fault marks of R253 -/
  marks : Marks
  /-- model: the port events of the run so far, oldest first (R10, R241) -/
  trace : List PortEvent
  /-- model: the parameters of R5 that are no engine state; no step writes them -/
  params : Params
  /-- port: the transport's receive queue, oldest byte first (R50, R266) -/
  rxQueue : List Byte
  /-- port: what the ports answer during the current or last poll -/
  env : PollEnv
  /-- host: what the host does next, first event first -/
  host : List HostEvent
  deriving DecidableEq, Repr

/-- No mark. -/
def Marks.clear : Marks := ⟨false, false, false, false, false⟩

/-- A callback that makes no port call and returns `OK`. -/
def CbRun.quiet : CbRun := { acts := [], ends := .returns .ok }

/-- Ports that keep their duties, at clock 0, with a quiet callback. -/
def PollEnv.quiet : PollEnv := { clock := 0, avail := none, cb := CbRun.quiet, txCompletes := true }

/-- The machine right after `Reset()`: R39's values. `CFG_UNIT`, `CFG_THRESH`, `CFG_DIR` and `CFG_CB` are unspecified
there and 0 or false here (DESIGN CHOICE, notes/assumptions/1.md; unsafe); the buffers list nothing; the parameters
are `Params.default` (notes/assumptions/2.md); no byte is pending and the host has nothing to do. -/
def State.reset : State :=
  { configured := false
    cfgUnit := 0
    cfgThresh := 0
    cfgDir := false
    cfgCb := false
    obsCount := 0
    obsTime := 0
    rxBuf := []
    rxLen := 0
    txBuf := []
    plen := 0
    bkind := .none
    bcap := 0
    dofs := 2
    dlen := 0
    wofs := 0
    dirLine := false
    req := none
    status := none
    phase := .idle
    inProcess := false
    phasePath := []
    marks := Marks.clear
    trace := []
    params := Params.default
    rxQueue := []
    env := PollEnv.quiet
    host := [] }

/-- The outcome of a step or of a part of one. -/
abbrev Outcome := Host.Outcome State Fault Refusal

end Sys2Proof.Machine
end

