-- ==== Sys2Proof/Machine/Flags.lean ====
section
/-! DEFINITION. The engine has no status flags or condition codes (10_state.md R37). What single-bit marks there are: the
exception bit of a response's function code (R76, R220) and the model's fault marks (60_exceptions.md R253). -/

namespace Sys2Proof.Machine

/-- `fc | 0x80`: the function code of an exception response (R76, R212, R220). -/
def exceptionCode (fc : Byte) : Byte := fc ||| 0x80

/-- `fault(Name)`: the mark is made and never cleared (R11, R253). -/
def Marks.add (m : Mark) (ms : Marks) : Marks :=
  match m with
  | .builderOverflow => { ms with builderOverflow := true }
  | .builderKind => { ms with builderKind := true }
  | .builderShort => { ms with builderShort := true }
  | .accessorRange => { ms with accessorRange := true }
  | .accessorFunction => { ms with accessorFunction := true }

/-- Whether a mark has been made. -/
def Marks.has (m : Mark) (ms : Marks) : Bool :=
  match m with
  | .builderOverflow => ms.builderOverflow
  | .builderKind => ms.builderKind
  | .builderShort => ms.builderShort
  | .accessorRange => ms.accessorRange
  | .accessorFunction => ms.accessorFunction

end Sys2Proof.Machine
end

