-- ==== Sys2Proof/Machine/Memory.lean ====
section
/-! DEFINITION. The byte memories `RX_BUF` and `TX_BUF` (10_state.md R29, R30; 20_memory.md R50, R56): reads and writes
of one byte, and of runs of bytes built from them. -/

namespace Sys2Proof.Machine

/-- What a byte nothing has written reads as. The spec gives the buffers no content after reset and no rule reads one
before it is written (R29, R30, U12); 0 is the model's value (DESIGN CHOICE, notes/assumptions/3.md; unsafe). -/
def unwrittenByte : Byte := 0x00

/-- One byte: `BUF[a]` (R9). -/
def Memory.read : Memory → Nat → Byte
  | [], _ => unwrittenByte
  | (k, b) :: m, a => if k = a then b else Memory.read m a

/-- One entry put before the cells of higher addresses, or left out if it is what an unlisted address reads as. -/
def Memory.cons (a : Nat) (v : Byte) (m : Memory) : Memory := if v = unwrittenByte then m else (a, v) :: m

/-- `BUF[a] <- v` (R9), keeping the canonical form. -/
def Memory.write : Memory → Nat → Byte → Memory
  | [], a, v => Memory.cons a v []
  | (k, b) :: m, a, v =>
    if k < a then (k, b) :: Memory.write m a v
    else if k = a then Memory.cons a v m
    else Memory.cons a v ((k, b) :: m)

/-- `MemRead(BUF, a, n)`, the bytes `BUF[a..a+n)` (R9). -/
def Memory.readRun (m : Memory) (a : Nat) : Nat → List Byte
  | 0 => []
  | n + 1 => Memory.read m a :: Memory.readRun m (a + 1) n

/-- `MemWrite(BUF, a, len s, s)` (R9). -/
def Memory.writeRun (m : Memory) (a : Nat) : List Byte → Memory
  | [] => m
  | b :: s => Memory.writeRun (Memory.write m a b) (a + 1) s

/-- The canonical form, from a lowest address on. -/
def Memory.wfFrom (lo : Nat) : Memory → Bool
  | [] => true
  | (k, b) :: m => decide (lo ≤ k) && b != unwrittenByte && Memory.wfFrom (k + 1) m

/-- The canonical form: addresses strictly rising, no entry equal to what an unlisted address reads as. -/
def Memory.wf (m : Memory) : Bool := Memory.wfFrom 0 m

/-- Every listed address lies below `cap`: the memory lies in a buffer of `cap` bytes (R50). -/
def Memory.within (cap : Nat) : Memory → Bool
  | [] => true
  | (k, _) :: m => decide (k < cap) && Memory.within cap m

/-- One bit of a byte set to `b` (R183: `TX_BUF[i][k] <- b`). -/
def setBit (x : Byte) (k : Nat) (b : Bool) : Byte :=
  if b then x ||| (1#8 <<< k) else x &&& ~~~(1#8 <<< k)

end Sys2Proof.Machine
end

