-- ==== Sys2Proof/Machine/Ops.lean ====
section
/-! DEFINITION. The named operations every stage of a poll uses: port events, phases, status, the response encoder
(44_response_encoder.md), and taking an exception and returning from it (42_request_decoder.md R155, 60_exceptions.md
R257, R258). -/

namespace Sys2Proof.Machine

/-- Goes on with `f` from a next state; a fault or a refusal stops. -/
def andThen (o : Outcome) (f : State → Outcome) : Outcome :=
  match o with
  | .next s => f s
  | .fault r => .fault r
  | .refused r => .refused r

/-- A port event happens (R10). -/
def emit (e : PortEvent) (s : State) : State := { s with trace := s.trace ++ [e] }

/-- `PHASE` takes a value (R36). -/
def enter (p : Phase) (s : State) : State := { s with phase := p, phasePath := s.phasePath ++ [p] }

/-- `STATUS <- st` (R34). -/
def setStatus (st : Status) (s : State) : State := { s with status := some st }

/-- `fault(Name)` (R11). -/
def markFault (m : Mark) (s : State) : State := { s with marks := Marks.add m s.marks }

/-- `TX_BUF[a] <- b` (R9). -/
def writeTx (a : Nat) (b : Byte) (s : State) : State := { s with txBuf := s.txBuf.write a b }

/-- `MemWrite(TX, a, len bs, bs)` (R9). -/
def writeTxRun (a : Nat) (bs : List Byte) (s : State) : State := { s with txBuf := s.txBuf.writeRun a bs }

/-- `REQ`. Every stage that reads it runs after `beginDecode` has set it; the value for `none` is never read. -/
def curReq (s : State) : Req := s.req.getD ⟨0, 0, 0, 0, 0, 0⟩

/-- The payload view `RX_BUF[view_off .. view_off + view_len)` (R35, R181). -/
def payloadView (s : State) : List Byte := s.rxBuf.readRun (curReq s).viewOff (curReq s).viewLen

/-- The end of a cycle that took a frame (R233, R236, R240): `REQ` and `STATUS` are held no longer, no `Process()` is in
progress, and the phase is `Idle`. `PLEN` and the builder fields keep the values the cycle left (DEDUCED,
notes/assumptions/18.md). It is also the return from an exception (R258): nothing was saved, so nothing is restored. -/
def endCycle (s : State) : State := enter .idle { s with req := none, status := none, inProcess := false }

/-- `drop(reason)` (R11, R126, R252): the cycle ends with no event. -/
def dropFrame (s : State) : State := endCycle (enter .dropped s)

/-! ### The response encoder -/

/-- `BuildNormal()` (R211, R219). -/
def buildNormal (s : State) : State := writeTx 1 (curReq s).fc (writeTx 0 (curReq s).unit s)

/-- `BuildException(e)` (R212, R78). -/
def buildException (e : Byte) (s : State) : State :=
  { writeTx 2 e (writeTx 1 (exceptionCode (curReq s).fc) (writeTx 0 (curReq s).unit s)) with plen := 1 }

/-- `AppendChecksum(N)` (R214, R52). -/
def appendChecksum (n : Nat) (s : State) : State :=
  let c := crc16 s.params.crc (s.txBuf.readRun 0 n)
  writeTx (n + 1) (lo8 c) (writeTx n (hi8 c) s)

/-- `Transmit(M)` with direction control (R215), after `TxSend` has returned. -/
def transmitDir (m : Nat) (s : State) : State :=
  let s := emit .dirAssert { s with dirLine := true }
  let s := emit (.txSend (s.txBuf.readRun 0 m)) s
  emit .dirDeassert { s with dirLine := false }

/-- `Transmit(M)` without direction control (R216): `DIR_LINE` is not driven. -/
def transmitPlain (m : Nat) (s : State) : State := emit (.txSend (s.txBuf.readRun 0 m)) s

/-- `Transmit(M)` (R215 to R217): a `TxSend` that never completes is a hang. -/
def transmit (m : Nat) (s : State) : Outcome :=
  if s.env.txCompletes then
    if s.cfgDir then .next (transmitDir m s) else .next (transmitPlain m s)
  else .fault .txNeverCompletes

/-- The common end of a response of `n` bytes before the checksum (R210). -/
def respond (n : Nat) (s : State) : Outcome :=
  andThen (transmit (n + 2) (appendChecksum n s)) fun t => .next (endCycle t)

/-- `Encode()` (R210): `st` is the value of `STATUS`. -/
def encodeResponse (st : Status) (s : State) : Outcome :=
  match st with
  | .suppress => .next (endCycle (enter .suppressed s))
  | .ok => respond (2 + s.plen) (buildNormal (enter .responding s))
  | .exc e => respond 3 (buildException e (enter .responding s))

/-! ### Taking an exception -/

/-- `exception(code)` raised by the decoder (R155, R257): `STATUS <- EXC(code)`, the dispatcher is skipped, and control
goes to the encoder, which always transmits. Nothing is saved, no mode or mask changes, there is no vector; the handler
is the exception-response path of R212, and the return (R258) is `endCycle`. -/
def takeException (code : Byte) (s : State) : Outcome :=
  encodeResponse (.exc code) (setStatus (.exc code) (enter .exceptionReady s))

end Sys2Proof.Machine
end

