-- ==== Sys2Proof/Machine/Assembler.lean ====
section
/-! DEFINITION. The FrameAssembler (40_frame_assembler.md), the FrameValidator (41_frame_validator.md), and the transport
port they stand on (60_exceptions.md R266, R267). -/

namespace Sys2Proof.Machine

/-! ### The transport and the clock -/

/-- `RxAvailable()` (R266). -/
def rxAvailable (s : State) : Nat :=
  match s.env.avail with
  | none => s.rxQueue.length
  | some c => c

/-- `Now()`: the clock modulo `2^P_WT` (R267). -/
def now (s : State) : Nat := s.env.clock % 2 ^ s.params.wt

/-- Bytes enter the transport's receive queue; what exceeds `P_TCAP` is lost before the engine sees it (R266, R289,
D26). -/
def arrive (bytes : List Byte) (s : State) : State :=
  { s with rxQueue := s.rxQueue ++ bytes.take (s.params.tcap - s.rxQueue.length) }

/-! ### The silence threshold -/

/-- `THRESH(baud)` in microseconds (R101). -/
def silenceThreshold (baud : Nat) : Nat := if baud ≤ 19200 then (3500000 * 11) / baud else 1750

/-- `(T - OBS_TIME) mod 2^P_WT` (R106). -/
def elapsed (wt t t0 : Nat) : Nat := (t + (2 ^ wt - t0 % 2 ^ wt)) % 2 ^ wt

/-! ### The assembler step -/

/-- The outcome of the assembler (R102 to R107), with the state it leaves. -/
inductive Assembled where
  | noFrame (s : State)
  | overflow (s : State)
  | frame (s : State)
  | refused (r : Refusal)
  deriving DecidableEq, Repr

/-- `n` calls of `RxRead()`, the first of them the `k`-th of the burst: byte `k` goes to `RX_BUF[k]` where `RX_BUF` has
such a byte (R104, R107). `none`: a call found no byte (D34). -/
def readBurst : Nat → Nat → State → Option State
  | 0, _, s => some s
  | n + 1, k, s =>
    match s.rxQueue with
    | [] => none
    | b :: q =>
      readBurst n (k + 1)
        { emit (.rxRead b) s with
          rxQueue := q
          rxBuf := if k < s.params.rxCap then s.rxBuf.write k b else s.rxBuf }

/-- Silence detected with `c` bytes pending (R104, R107). -/
def takeBurst (c : Nat) (s : State) : Assembled :=
  match readBurst c 0 (enter .silentDetected s) with
  | none => .refused .rxReadEmpty
  | some t =>
    if s.params.rxCap < c then .overflow { t with obsCount := 0, rxLen := 0 }
    else .frame { t with obsCount := 0, rxLen := c }

/-- The two samples every poll begins with (R100). -/
def sample (s : State) : State := emit (.now (now s)) (emit (.rxAvailable (rxAvailable s)) s)

/-- `AssemblerStep()` (R100, R102 to R107). -/
def assemblerStep (s : State) : Assembled :=
  let c := rxAvailable s
  let t := now s
  if s.params.tcap < c then .refused .rxCountRange
  else if c = 0 then .noFrame (sample s)
  else if c ≠ s.obsCount then .noFrame { sample s with obsCount := c, obsTime := t }
  else if elapsed s.params.wt t s.obsTime < s.cfgThresh then .noFrame (sample s)
  else takeBurst c (sample s)

/-! ### The validator -/

/-- The frame `RX_BUF[0..RX_LEN)` (R12, R29). -/
def rxFrame (s : State) : List Byte := s.rxBuf.readRun 0 s.rxLen

/-- Why a frame is dropped; a label, not observable (R11, R252). -/
inductive DropReason where
  | overflow | short | foreign | crc
  deriving DecidableEq, Repr

/-- The checks of R121, R122 and R124, in that order (R120); `none` is `VALID`. -/
def validate (s : State) : Option DropReason :=
  if s.rxLen < 8 then some .short
  else if s.cfgUnit ≠ 0 ∧ s.rxBuf.read 0 ≠ s.cfgUnit then some .foreign
  else if checksumOk s.params (rxFrame s) then none
  else some .crc

end Sys2Proof.Machine
end

