-- ==== Sys2Proof/Machine/Operands.lean ====
section
/-! DEFINITION. Operands: the common part of every decode (42_request_decoder.md R140), the checks and settings each
request format shares, and what the decoder hands on (30_encoding.md R71, R72, R77). -/

namespace Sys2Proof.Machine

/-- ILLEGAL_FUNCTION (R83). -/
def excIllegalFunction : Byte := 0x01
/-- ILLEGAL_DATA_VALUE (R83). -/
def excIllegalDataValue : Byte := 0x03
/-- SERVER_DEVICE_FAILURE (R83). -/
def excServerDeviceFailure : Byte := 0x04

/-- The outcome of a per-function rule: `READY` or `exception(code)` (R140). -/
inductive Decoded where
  | ready (s : State)
  | exception (code : Byte) (s : State)
  deriving DecidableEq, Repr

/-- The common part of every decode (R140). The request is fresh: its quantity and view are set by the rule of the
function. With `BCAP` the write offset, which it bounds, is set to 0 too (R32: `WOFS` is never greater than `BCAP`;
DEDUCED, notes/assumptions/14.md). -/
def beginDecode (unit fc : Byte) (reg : U16) (s : State) : State :=
  { s with
    req := some { unit := unit, fc := fc, reg := reg, qty := 0, viewOff := 0, viewLen := 0 }
    bkind := .none
    bcap := 0
    dofs := 2
    dlen := 0
    wofs := 0
    plen := 0 }

/-- `REQ.qty`, `REQ.view_off`, `REQ.view_len` set (R141 to R149). -/
def setRequest (qty viewOff viewLen : Nat) (s : State) : State :=
  { s with req := some { curReq s with qty := qty, viewOff := viewOff, viewLen := viewLen } }

/-- The range check of a quantity (R251). -/
def qtyInRange (qty limit : Nat) : Bool := decide (1 ≤ qty) && decide (qty ≤ limit)

/-- `PLEN` and the builder fields of a read or raw function (R141, R143, R149). -/
def setBuilder (plen : Nat) (kind : BuilderKind) (cap ofs len : Nat) (s : State) : State :=
  { s with plen := plen, bkind := kind, bcap := cap, dofs := ofs, dlen := len }

/-- The bit-read form (R141, R142). -/
def decodeBitRead (qty : U16) (s : State) : Decoded :=
  if qtyInRange qty.toNat 2000 then
    let bc := ceil8 qty.toNat
    .ready (setBuilder (1 + bc) .bit qty.toNat 3 bc
      (writeTx 2 (BitVec.ofNat 8 bc) (setRequest qty.toNat 0 0 s)))
  else .exception excIllegalDataValue s

/-- The register-read form (R143, R144). -/
def decodeRegRead (qty : U16) (s : State) : Decoded :=
  if qtyInRange qty.toNat 125 then
    let bc := 2 * qty.toNat
    .ready (setBuilder (1 + bc) .reg qty.toNat 3 bc
      (writeTx 2 (BitVec.ofNat 8 bc) (setRequest qty.toNat 0 0 s)))
  else .exception excIllegalDataValue s

/-- The echo of the request's bytes 2 to 5 and its payload length (R145 to R148, R77 `RSP_ECHO`). -/
def setEcho (reg value : U16) (s : State) : State :=
  { writeTxRun 2 (beBytes reg ++ beBytes value) s with plen := 4 }

/-- The single-coil form (R145). -/
def decodeCoilWrite (reg value : U16) (s : State) : Decoded :=
  if value = 0x0000#16 ∨ value = 0xFF00#16 then .ready (setEcho reg value (setRequest 1 4 2 s))
  else .exception excIllegalDataValue s

/-- The single-register form (R146): every value is READY. -/
def decodeRegWrite (reg value : U16) (s : State) : Decoded :=
  .ready (setEcho reg value (setRequest 1 4 2 s))

/-- The write-multiple form (R147, R148): range, byte count, fit, in that order; all raise 0x03. `want` is the byte
count the quantity calls for, `bc` is `F[6]` and `len` is `L`. -/
def decodeMultiWrite (reg qty : U16) (limit want : Nat) (bc : Byte) (len : Nat) (s : State) : Decoded :=
  if !qtyInRange qty.toNat limit then .exception excIllegalDataValue s
  else if bc.toNat ≠ want then .exception excIllegalDataValue s
  else if len < 9 + bc.toNat then .exception excIllegalDataValue s
  else .ready (setEcho reg qty (setRequest qty.toNat 7 bc.toNat s))

/-- The raw-transfer form (R149). -/
def decodeRaw (qty : Byte) (s : State) : Decoded :=
  if qtyInRange qty.toNat 123 then
    .ready (setBuilder qty.toNat .rawByte qty.toNat 2 qty.toNat (setRequest qty.toNat 0 0 s))
  else .exception excIllegalDataValue s

end Sys2Proof.Machine
end

