-- ==== Sys2Proof/Machine/Builder.lean ====
section
/-! DEFINITION. The two builder operations and the two payload accessors of the callback port (43_dispatch_builder.md
R183 to R190). -/

namespace Sys2Proof.Machine

/-- `WriteBit(b)` (R183, R185, R186). -/
def writeBit (b : Bool) (s : State) : State :=
  if s.bkind ≠ .bit then markFault .builderKind s
  else if s.bcap ≤ s.wofs then markFault .builderOverflow s
  else
    let i := s.dofs + s.wofs / 8
    { writeTx i (setBit (s.txBuf.read i) (s.wofs % 8) b) s with wofs := s.wofs + 1 }

/-- `WriteRegister(v)` (R184, R185, R186): two bytes for a register read, the low byte for a raw transfer. -/
def writeRegister (v : U16) (s : State) : State :=
  match s.bkind with
  | .reg =>
    if s.bcap ≤ s.wofs then markFault .builderOverflow s
    else { writeTxRun (s.dofs + 2 * s.wofs) (beBytes v) s with wofs := s.wofs + 1 }
  | .rawByte =>
    if s.bcap ≤ s.wofs then markFault .builderOverflow s
    else { writeTx (s.dofs + s.wofs) (lo8 v) s with wofs := s.wofs + 1 }
  | .none => markFault .builderKind s
  | .bit => markFault .builderKind s

/-- What an accessor call comes to: a value, or `ERR` with the fault it marks (R190). -/
inductive Access (α : Type) where
  | value (v : α)
  | err (m : Mark)
  deriving DecidableEq, Repr

/-- `ReadCoilValue(i)` (R188). -/
def coilAccess (i : Nat) (s : State) : Access Bool :=
  let r := curReq s
  if r.fc = 0x05 then
    if i ≠ 0 then .err .accessorRange else .value (s.rxBuf.read r.viewOff == 0xFF#8)
  else if r.fc = 0x0F then
    if r.qty ≤ i then .err .accessorRange
    else .value ((s.rxBuf.read (r.viewOff + i / 8)).getLsbD (i % 8))
  else .err .accessorFunction

/-- `ReadRegisterValue(i)` (R189). -/
def registerAccess (i : Nat) (s : State) : Access U16 :=
  let r := curReq s
  if r.fc = 0x06 then
    if i ≠ 0 then .err .accessorRange
    else .value (be16 (s.rxBuf.read r.viewOff) (s.rxBuf.read (r.viewOff + 1)))
  else if r.fc = 0x10 then
    if r.qty ≤ i then .err .accessorRange
    else .value (be16 (s.rxBuf.read (r.viewOff + 2 * i)) (s.rxBuf.read (r.viewOff + 2 * i + 1)))
  else .err .accessorFunction

/-- The result of an accessor call; `none` is `ERR`. -/
def Access.result {α : Type} : Access α → Option α
  | .value v => some v
  | .err _ => none

/-- The mark of an accessor call, if any: no other state changes (R190). -/
def Access.marked {α : Type} (a : Access α) (s : State) : State :=
  match a with
  | .value _ => s
  | .err m => markFault m s

end Sys2Proof.Machine
end

