-- ==== Sys2Proof/Machine/Callback.lean ====
section
/-! DEFINITION. The dispatcher and the callback port (43_dispatch_builder.md R180 to R182, R187, R191, R192). -/

namespace Sys2Proof.Machine

/-- One port call of the callback, seen on the port with its result (R181, R241). A `Process()` from inside the
callback is refused (R264). -/
def runAct (a : CbAct) (s : State) : Outcome :=
  match a with
  | .writeBit b => .next (writeBit b (emit (.writeBit b) s))
  | .writeRegister v => .next (writeRegister v (emit (.writeRegister v) s))
  | .readCoilValue i => .next ((coilAccess i s).marked (emit (.readCoilValue i (coilAccess i s).result) s))
  | .readRegisterValue i =>
    .next ((registerAccess i s).marked (emit (.readRegisterValue i (registerAccess i s).result) s))
  | .process => .refused .reentrant

/-- The port calls of one invocation, in order. -/
def runActs : List CbAct → State → Outcome
  | [], s => .next s
  | a :: as, s => andThen (runAct a s) (runActs as)

/-- `CheckFill()` (R187), after the callback returned `st`. -/
def checkFill (st : Status) (s : State) : State :=
  if st = .ok ∧ s.bkind ≠ .none ∧ s.wofs < s.bcap then markFault .builderShort s else s

/-- The callback returns `st`, stored in `STATUS` as it is (R191); `EXC(0x00)` is no status (U24). Then `CheckFill()`
and the encoder. -/
def callbackReturns (st : Status) (s : State) : Outcome :=
  if st = .exc 0x00 then .refused .statusZero
  else encodeResponse st (checkFill st (setStatus st (emit (.callbackReturned st) s)))

/-- The invocation of the registered callback (R181). -/
def invokeCallback (s : State) : Outcome :=
  let r := curReq s
  andThen (runActs s.env.cb.acts (emit (.callback r.unit r.fc r.reg r.qty (payloadView s)) s)) fun t =>
    match s.env.cb.ends with
    | .returns st => callbackReturns st t
    | .never => .fault .callbackNeverReturns

/-- `WOFS <- 0` and the data area cleared (R180). -/
def clearData (s : State) : State :=
  { writeTxRun s.dofs (List.replicate s.dlen 0x00) s with wofs := 0 }

/-- `Dispatch()` (R180 to R182), and the encoder after it. -/
def dispatch (s : State) : Outcome :=
  let s := clearData (enter .dispatching s)
  if s.cfgCb then invokeCallback s
  else encodeResponse (.exc excServerDeviceFailure) (setStatus (.exc excServerDeviceFailure) s)

/-- From the decoder's outcome on: READY requests are dispatched, exceptions are taken (R140, R155, R240). -/
def finishDecode (d : Decoded) : Outcome :=
  match d with
  | .ready s => dispatch s
  | .exception code s => takeException code s

end Sys2Proof.Machine
end

