-- ==== Sys2Proof/Machine/Reads.lean ====
section
/-! DEFINITION. The meanings of the four read functions (42_request_decoder.md R141 to R144). -/

namespace Sys2Proof.Machine

/-- READ_COILS (R141). The bytes after index 5 are ignored (R71, D13). -/
def execReadCoils (unit : Byte) (reg qty : U16) (_extra : List Byte) (s : State) : Outcome :=
  finishDecode (decodeBitRead qty (beginDecode unit 0x01 reg s))

/-- READ_DISCRETE_INPUTS (R142). -/
def execReadDiscreteInputs (unit : Byte) (reg qty : U16) (_extra : List Byte) (s : State) : Outcome :=
  finishDecode (decodeBitRead qty (beginDecode unit 0x02 reg s))

/-- READ_HOLDING_REGISTERS (R143). -/
def execReadHoldingRegisters (unit : Byte) (reg qty : U16) (_extra : List Byte) (s : State) : Outcome :=
  finishDecode (decodeRegRead qty (beginDecode unit 0x03 reg s))

/-- READ_INPUT_REGISTERS (R144). -/
def execReadInputRegisters (unit : Byte) (reg qty : U16) (_extra : List Byte) (s : State) : Outcome :=
  finishDecode (decodeRegRead qty (beginDecode unit 0x04 reg s))

end Sys2Proof.Machine
end

