-- ==== Sys2Proof/Machine/Vendor.lean ====
section
/-! DEFINITION. The meanings of the vendor extension and of every illegal code (42_request_decoder.md R149, R150). -/

namespace Sys2Proof.Machine

/-- RAW_TRANSFER (R149), function code `P_FC_RAW` (R74); index 4 is not read. -/
def execRawTransfer (unit : Byte) (reg : U16) (_ignored qty : Byte) (_extra : List Byte) (s : State) : Outcome :=
  finishDecode (decodeRaw qty (beginDecode unit s.params.fcRaw reg s))

/-- ILLEGAL_FUNCTION (R150): the common part of the decode, then exception 0x01. -/
def execIllegalFunction (unit fc : Byte) (reg : U16) (_b4 _b5 : Byte) (_extra : List Byte) (s : State) : Outcome :=
  finishDecode (.exception excIllegalFunction (beginDecode unit fc reg s))

end Sys2Proof.Machine
end

