-- ==== Sys2Proof/Machine/Writes.lean ====
section
/-! DEFINITION. The meanings of the four write functions (42_request_decoder.md R145 to R148). -/

namespace Sys2Proof.Machine

/-- WRITE_SINGLE_COIL (R145). -/
def execWriteSingleCoil (unit : Byte) (reg value : U16) (_extra : List Byte) (s : State) : Outcome :=
  finishDecode (decodeCoilWrite reg value (beginDecode unit 0x05 reg s))

/-- WRITE_SINGLE_REGISTER (R146). -/
def execWriteSingleRegister (unit : Byte) (reg value : U16) (_extra : List Byte) (s : State) : Outcome :=
  finishDecode (decodeRegWrite reg value (beginDecode unit 0x06 reg s))

/-- WRITE_MULTIPLE_COILS (R147): `F[6]` is the byte count, `L` is 8 and the bytes after index 5. -/
def execWriteMultipleCoils (unit : Byte) (reg qty : U16) (body : List Byte) (s : State) : Outcome :=
  finishDecode (decodeMultiWrite reg qty 1968 (ceil8 qty.toNat) (byteCount s.params unit 0x0F reg qty body)
    (8 + body.length) (beginDecode unit 0x0F reg s))

/-- WRITE_MULTIPLE_REGISTERS (R148). -/
def execWriteMultipleRegisters (unit : Byte) (reg qty : U16) (body : List Byte) (s : State) : Outcome :=
  finishDecode (decodeMultiWrite reg qty 123 (2 * qty.toNat) (byteCount s.params unit 0x10 reg qty body)
    (8 + body.length) (beginDecode unit 0x10 reg s))

end Sys2Proof.Machine
end

