-- ==== Sys2Proof/Machine/Dispatch.lean ====
section
/-! DEFINITION. One arm per instruction of spec/opcode_table.json. -/

namespace Sys2Proof.Machine

open Sys2Proof

def exec (i : Instr) (s : State) : Host.Outcome State Fault Refusal :=
  match i with
  | .readCoils unit reg qty extra => Sys2Proof.Machine.execReadCoils unit reg qty extra s
  | .readDiscreteInputs unit reg qty extra => Sys2Proof.Machine.execReadDiscreteInputs unit reg qty extra s
  | .readHoldingRegisters unit reg qty extra => Sys2Proof.Machine.execReadHoldingRegisters unit reg qty extra s
  | .readInputRegisters unit reg qty extra => Sys2Proof.Machine.execReadInputRegisters unit reg qty extra s
  | .writeSingleCoil unit reg value extra => Sys2Proof.Machine.execWriteSingleCoil unit reg value extra s
  | .writeSingleRegister unit reg value extra => Sys2Proof.Machine.execWriteSingleRegister unit reg value extra s
  | .writeMultipleCoils unit reg qty body => Sys2Proof.Machine.execWriteMultipleCoils unit reg qty body s
  | .writeMultipleRegisters unit reg qty body => Sys2Proof.Machine.execWriteMultipleRegisters unit reg qty body s
  | .rawTransfer unit reg ignored qty extra => Sys2Proof.Machine.execRawTransfer unit reg ignored qty extra s
  | .illegalFunction unit fc reg b4 b5 extra => Sys2Proof.Machine.execIllegalFunction unit fc reg b4 b5 extra s

end Sys2Proof.Machine
end

