-- ==== Sys2Proof/Machine/Process.lean ====
section
/-! DEFINITION. The poll step `Process()` (45_poll_cycle.md R230, R231, R240), `Configure` and `Reset()`
(70_reset_and_hazards.md R280 to R282), and what each host event does. -/

namespace Sys2Proof.Machine

/-- The end of a poll that took no frame: `Idle` when `OBS_COUNT` = 0, else `Accumulating` (R36, R232). -/
def settle (s : State) : State :=
  enter (if s.obsCount = 0 then .idle else .accumulating) { s with inProcess := false }

/-- The poll after `FRAME(n)` (R240): the validator, the decoder, and the meaning of the request. The decoder's own
rejection cannot follow the validator's `VALID` (Laws/Process.lean, decode_of_validate); it would be a drop. -/
def handleFrame (s : State) : Outcome :=
  let s := enter .validating (enter .frameReady s)
  match validate s with
  | some _ => .next (dropFrame s)
  | none =>
    match decode s.params (rxFrame s) with
    | .ok i => exec i (enter .decoding s)
    | .error _ => .next (dropFrame s)

/-- The start of a poll: `in_process <- true`; the phase path starts from the phase held (R240). -/
def beginPoll (env : PollEnv) (s : State) : State :=
  { s with env := env, inProcess := true, phasePath := [s.phase] }

/-- `Process()` (R230, R240). -/
def process (env : PollEnv) (s : State) : Outcome :=
  if !s.configured then .refused .notConfigured
  else if s.inProcess then .refused .reentrant
  else
    match assemblerStep (beginPoll env s) with
    | .refused r => .refused r
    | .noFrame t => .next (settle t)
    | .overflow t => .next (dropFrame t)
    | .frame t => handleFrame t

/-- The direction line driven to receive when there is one (R281). -/
def initDirection (dir : Bool) (s : State) : State :=
  if dir then emit .dirDeassert { s with dirLine := false } else s

/-- `Configure(unit, baud, dir, cb)` (R281, R282). -/
def configure (unit : Byte) (baud : BitVec 32) (dir cb : Bool) (s : State) : Outcome :=
  if s.configured then .refused .configureTwice
  else if baud.toNat = 0 then .refused .badBaud
  else if 2 ^ s.params.wt ≤ silenceThreshold baud.toNat then .refused .thresholdTooWide
  else
    .next { initDirection dir { s with
              cfgUnit := unit, cfgThresh := silenceThreshold baud.toNat, cfgDir := dir, cfgCb := cb } with
            configured := true }

/-- `Reset()` (R280): every engine element takes R39's value and no port event happens. What is not engine state stays:
the parameters, the ports, the host's further events, the trace, and the marks, which are never cleared (R253). -/
def applyReset (s : State) : State :=
  { State.reset with
    marks := s.marks
    trace := s.trace
    params := s.params
    rxQueue := s.rxQueue
    env := s.env
    host := s.host }

/-- What one host event does (R84, R242, R254, R285). -/
def hostStep (e : HostEvent) (s : State) : Outcome :=
  match e with
  | .reset => .next (applyReset s)
  | .configure unit baud dir cb => configure unit baud dir cb s
  | .arrive bytes => .next (arrive bytes s)
  | .poll env => process env s
  | .strayCall _ => .refused .outsideCallback
  | .staleView => .refused .viewExpired

/-- The machine with a request placed where the next poll takes it: the transport holds exactly `frame`, the baseline
has its count, the host's next event is a poll after the silence threshold by ports that keep their duties, and the
engine is configured and accepts any unit address. -/
def placeFrame (frame : List Byte) (s : State) : State :=
  { s with
    configured := true
    inProcess := false
    cfgUnit := 0
    obsCount := frame.length
    rxQueue := frame
    host := .poll { PollEnv.quiet with clock := s.obsTime + s.cfgThresh } :: s.host }

end Sys2Proof.Machine
end

