-- ==== Sys2Proof/Machine/Step.lean ====
section
/-! DEFINITION. One step of the machine: the host's next event (45_poll_cycle.md R242). With none pending the engine does
nothing (60_exceptions.md R263). -/

namespace Sys2Proof.Machine

/-- One step: the host's next event happens. -/
def step (s : State) : Host.Outcome State Fault Refusal :=
  match s.host with
  | [] => .next s
  | e :: rest => hostStep e { s with host := rest }

/-- The machine with a table word placed as the request the next step takes and runs (notes/assumptions/4.md). -/
def State.withFetchWord (s : State) (nbits w : Nat) : State := placeFrame (tableFrame s.params nbits w) s

end Sys2Proof.Machine
end

