-- ==== Sys2Proof/Safety.lean ====
section
/-! DEFINITION. What counts as a safe run, and the spec's own vocabulary for what an instruction asks and what the
engine answers, in the terms the statements use. Nothing here is used by the machine. -/

namespace Sys2Proof

/-! ### What a request asks (30_encoding.md R72, R77; 60_exceptions.md R251) -/

/-- The register address of a request. -/
def Instr.reg : Instr → U16
  | .readCoils _ r _ _ => r
  | .readDiscreteInputs _ r _ _ => r
  | .readHoldingRegisters _ r _ _ => r
  | .readInputRegisters _ r _ _ => r
  | .writeSingleCoil _ r _ _ => r
  | .writeSingleRegister _ r _ _ => r
  | .writeMultipleCoils _ r _ _ => r
  | .writeMultipleRegisters _ r _ _ => r
  | .rawTransfer _ r _ _ _ => r
  | .illegalFunction _ _ r _ _ _ => r

/-- The quantity the callback is given: 1 for the single writes (R72: "fixed qty=1"), 0 where none is read. -/
def Instr.requestQty : Instr → Nat
  | .readCoils _ _ q _ => q.toNat
  | .readDiscreteInputs _ _ q _ => q.toNat
  | .readHoldingRegisters _ _ q _ => q.toNat
  | .readInputRegisters _ _ q _ => q.toNat
  | .writeSingleCoil _ _ _ _ => 1
  | .writeSingleRegister _ _ _ _ => 1
  | .writeMultipleCoils _ _ q _ => q.toNat
  | .writeMultipleRegisters _ _ q _ => q.toNat
  | .rawTransfer _ _ _ q _ => q.toNat
  | .illegalFunction _ _ _ _ _ _ => 0

/-- The data bytes of a write-multiple body: what follows the byte count, as many as the count says (R71). -/
def bodyData : List Byte → List Byte
  | [] => []
  | bc :: rest => rest.take bc.toNat

/-- Where the payload view starts in the frame (R141 to R149). -/
def Instr.viewOff : Instr → Nat
  | .readCoils _ _ _ _ => 0
  | .readDiscreteInputs _ _ _ _ => 0
  | .readHoldingRegisters _ _ _ _ => 0
  | .readInputRegisters _ _ _ _ => 0
  | .writeSingleCoil _ _ _ _ => 4
  | .writeSingleRegister _ _ _ _ => 4
  | .writeMultipleCoils _ _ _ _ => 7
  | .writeMultipleRegisters _ _ _ _ => 7
  | .rawTransfer _ _ _ _ _ => 0
  | .illegalFunction _ _ _ _ _ _ => 0

/-- The payload view of a request that is READY: the value field, the data, or nothing (R141 to R149). -/
def Instr.view : Instr → List Byte
  | .readCoils _ _ _ _ => []
  | .readDiscreteInputs _ _ _ _ => []
  | .readHoldingRegisters _ _ _ _ => []
  | .readInputRegisters _ _ _ _ => []
  | .writeSingleCoil _ _ v _ => beBytes v
  | .writeSingleRegister _ _ v _ => beBytes v
  | .writeMultipleCoils _ _ _ b => bodyData b
  | .writeMultipleRegisters _ _ _ b => bodyData b
  | .rawTransfer _ _ _ _ _ => []
  | .illegalFunction _ _ _ _ _ _ => []

/-- The checks of a write-multiple request: range, byte count, fit (`9 + BC <= L`, where `L` is 9 and the bytes after the
byte count). An 8-byte frame never fits (R147, corner cases). -/
def multiValid (qty : U16) (limit want : Nat) : List Byte → Bool
  | [] => false
  | bc :: rest => decide (1 ≤ qty.toNat) && decide (qty.toNat ≤ limit) && decide (bc.toNat = want) &&
      decide (bc.toNat ≤ rest.length)

/-- Whether a request passes the decoder, row by row of R251. -/
def Instr.structurallyValid : Instr → Bool
  | .readCoils _ _ q _ => decide (1 ≤ q.toNat) && decide (q.toNat ≤ 2000)
  | .readDiscreteInputs _ _ q _ => decide (1 ≤ q.toNat) && decide (q.toNat ≤ 2000)
  | .readHoldingRegisters _ _ q _ => decide (1 ≤ q.toNat) && decide (q.toNat ≤ 125)
  | .readInputRegisters _ _ q _ => decide (1 ≤ q.toNat) && decide (q.toNat ≤ 125)
  | .writeSingleCoil _ _ v _ => v == 0x0000#16 || v == 0xFF00#16
  | .writeSingleRegister _ _ _ _ => true
  | .writeMultipleCoils _ _ q b => multiValid q 1968 (ceil8 q.toNat) b
  | .writeMultipleRegisters _ _ q b => multiValid q 123 (2 * q.toNat) b
  | .rawTransfer _ _ _ q _ => decide (1 ≤ q.toNat) && decide (q.toNat ≤ 123)
  | .illegalFunction _ _ _ _ _ _ => false

/-- The code of a request's decoder exception: 0x01 for an illegal function code, 0x03 for a failed check (R251). -/
def Instr.decoderCode : Instr → Byte
  | .readCoils _ _ _ _ => 0x03
  | .readDiscreteInputs _ _ _ _ => 0x03
  | .readHoldingRegisters _ _ _ _ => 0x03
  | .readInputRegisters _ _ _ _ => 0x03
  | .writeSingleCoil _ _ _ _ => 0x03
  | .writeSingleRegister _ _ _ _ => 0x03
  | .writeMultipleCoils _ _ _ _ => 0x03
  | .writeMultipleRegisters _ _ _ _ => 0x03
  | .rawTransfer _ _ _ _ _ => 0x03
  | .illegalFunction _ _ _ _ _ _ => 0x01

/-- The payload length `PLEN` of the normal response of a READY request (R77). -/
def Instr.okPlen : Instr → Nat
  | .readCoils _ _ q _ => 1 + ceil8 q.toNat
  | .readDiscreteInputs _ _ q _ => 1 + ceil8 q.toNat
  | .readHoldingRegisters _ _ q _ => 1 + 2 * q.toNat
  | .readInputRegisters _ _ q _ => 1 + 2 * q.toNat
  | .writeSingleCoil _ _ _ _ => 4
  | .writeSingleRegister _ _ _ _ => 4
  | .writeMultipleCoils _ _ _ _ => 4
  | .writeMultipleRegisters _ _ _ _ => 4
  | .rawTransfer _ _ _ q _ => q.toNat
  | .illegalFunction _ _ _ _ _ _ => 0

/-! ### The responses (R77, R78) -/

/-- The exception response frame (R78, R212). -/
def exceptionFrame (p : Params) (unit fc e : Byte) : List Byte := withChecksum p [unit, fc ||| 0x80, e]

/-- The echo response frame (R77 `RSP_ECHO`). -/
def echoFrame (p : Params) (unit fc : Byte) (reg value : U16) : List Byte :=
  withChecksum p ([unit, fc] ++ beBytes reg ++ beBytes value)

/-- A normal response with a length byte (R77 `RSP_BITS`, `RSP_REGS`). -/
def countedFrame (p : Params) (unit fc : Byte) (data : List Byte) : List Byte :=
  withChecksum p ([unit, fc, BitVec.ofNat 8 data.length] ++ data)

/-- A normal response without one (R77 `RSP_RAW`). -/
def rawFrame (p : Params) (unit fc : Byte) (data : List Byte) : List Byte := withChecksum p ([unit, fc] ++ data)

namespace Machine

/-- The port events of one transmission, with or without direction control (R215, R216). -/
def sendEvents (dir : Bool) (bytes : List Byte) : List PortEvent :=
  if dir then [.dirAssert, .txSend bytes, .dirDeassert] else [.txSend bytes]

/-! ### What the callback sees and may write -/

/-- `BKIND` for a READY request (R141 to R149). -/
def kindOf : Instr → BuilderKind
  | .readCoils _ _ _ _ => .bit
  | .readDiscreteInputs _ _ _ _ => .bit
  | .readHoldingRegisters _ _ _ _ => .reg
  | .readInputRegisters _ _ _ _ => .reg
  | .writeSingleCoil _ _ _ _ => .none
  | .writeSingleRegister _ _ _ _ => .none
  | .writeMultipleCoils _ _ _ _ => .none
  | .writeMultipleRegisters _ _ _ _ => .none
  | .rawTransfer _ _ _ _ _ => .rawByte
  | .illegalFunction _ _ _ _ _ _ => .none

/-- `BCAP` for a READY request. -/
def capOf (i : Instr) : Nat := if kindOf i = .none then 0 else i.requestQty

/-- What `ReadCoilValue(k)` gives for a request, `none` for `ERR` (R188, R190). -/
def coilOf (i : Instr) (k : Nat) : Option Bool :=
  match i with
  | .readCoils _ _ _ _ => none
  | .readDiscreteInputs _ _ _ _ => none
  | .readHoldingRegisters _ _ _ _ => none
  | .readInputRegisters _ _ _ _ => none
  | .writeSingleCoil _ _ v _ => if k = 0 then some (v == 0xFF00#16) else none
  | .writeSingleRegister _ _ _ _ => none
  | .writeMultipleCoils _ _ q b =>
    if k < q.toNat then some (((bodyData b).getD (k / 8) 0).getLsbD (k % 8)) else none
  | .writeMultipleRegisters _ _ _ _ => none
  | .rawTransfer _ _ _ _ _ => none
  | .illegalFunction _ _ _ _ _ _ => none

/-- What `ReadRegisterValue(k)` gives for a request, `none` for `ERR` (R189, R190). -/
def registerOf (i : Instr) (k : Nat) : Option U16 :=
  match i with
  | .readCoils _ _ _ _ => none
  | .readDiscreteInputs _ _ _ _ => none
  | .readHoldingRegisters _ _ _ _ => none
  | .readInputRegisters _ _ _ _ => none
  | .writeSingleCoil _ _ _ _ => none
  | .writeSingleRegister _ _ v _ => if k = 0 then some v else none
  | .writeMultipleCoils _ _ _ _ => none
  | .writeMultipleRegisters _ _ q b =>
    if k < q.toNat then some (be16 ((bodyData b).getD (2 * k) 0) ((bodyData b).getD (2 * k + 1) 0)) else none
  | .rawTransfer _ _ _ _ _ => none
  | .illegalFunction _ _ _ _ _ _ => none

/-- Whether `ReadCoilValue` serves the function of a request at all (R188). -/
def servesCoil : Instr → Bool
  | .readCoils _ _ _ _ => false
  | .readDiscreteInputs _ _ _ _ => false
  | .readHoldingRegisters _ _ _ _ => false
  | .readInputRegisters _ _ _ _ => false
  | .writeSingleCoil _ _ _ _ => true
  | .writeSingleRegister _ _ _ _ => false
  | .writeMultipleCoils _ _ _ _ => true
  | .writeMultipleRegisters _ _ _ _ => false
  | .rawTransfer _ _ _ _ _ => false
  | .illegalFunction _ _ _ _ _ _ => false

/-- Whether `ReadRegisterValue` serves the function of a request at all (R189). -/
def servesRegister : Instr → Bool
  | .readCoils _ _ _ _ => false
  | .readDiscreteInputs _ _ _ _ => false
  | .readHoldingRegisters _ _ _ _ => false
  | .readInputRegisters _ _ _ _ => false
  | .writeSingleCoil _ _ _ _ => false
  | .writeSingleRegister _ _ _ _ => true
  | .writeMultipleCoils _ _ _ _ => false
  | .writeMultipleRegisters _ _ _ _ => true
  | .rawTransfer _ _ _ _ _ => false
  | .illegalFunction _ _ _ _ _ _ => false

/-- The port event of a callback's call, for a request; a `Process()` call has none. -/
def eventOf (i : Instr) (a : CbAct) : Option PortEvent :=
  match a with
  | .writeBit b => some (.writeBit b)
  | .writeRegister v => some (.writeRegister v)
  | .readCoilValue k => some (.readCoilValue k (coilOf i k))
  | .readRegisterValue k => some (.readRegisterValue k (registerOf i k))
  | .process => none

/-- Whether a builder call is of the kind the current function admits (R32, R183, R184). -/
def admits (k : BuilderKind) (a : CbAct) : Bool :=
  match a with
  | .writeBit _ => k == .bit
  | .writeRegister _ => k == .reg || k == .rawByte
  | .readCoilValue _ => false
  | .readRegisterValue _ => false
  | .process => false

/-- How many builder calls of the kind the current function admits a callback makes. -/
def builderWrites (k : BuilderKind) (acts : List CbAct) : Nat := acts.countP (admits k)

/-- The bits a callback's `WriteBit` calls write, in order. -/
def bitWrites : List CbAct → List Bool
  | [] => []
  | .writeBit b :: as => b :: bitWrites as
  | .writeRegister _ :: as => bitWrites as
  | .readCoilValue _ :: as => bitWrites as
  | .readRegisterValue _ :: as => bitWrites as
  | .process :: as => bitWrites as

/-- The values a callback's `WriteRegister` calls write, in order. -/
def registerWrites : List CbAct → List U16
  | [] => []
  | .writeBit _ :: as => registerWrites as
  | .writeRegister v :: as => v :: registerWrites as
  | .readCoilValue _ :: as => registerWrites as
  | .readRegisterValue _ :: as => registerWrites as
  | .process :: as => registerWrites as

/-- The mark a call makes whatever was written before: a builder call of the wrong kind, and an accessor call outside its
function or range, is marked (R186, R188 to R190). -/
def markOf (i : Instr) (a : CbAct) : Option Mark :=
  match a with
  | .writeBit b => if admits (kindOf i) (.writeBit b) then none else some .builderKind
  | .writeRegister v => if admits (kindOf i) (.writeRegister v) then none else some .builderKind
  | .readCoilValue k =>
    if servesCoil i then (if (coilOf i k).isSome then none else some .accessorRange) else some .accessorFunction
  | .readRegisterValue k =>
    if servesRegister i then (if (registerOf i k).isSome then none else some .accessorRange)
    else some .accessorFunction
  | .process => none

/-- Marks made one after the other. -/
def marksAfter (ms : Marks) : List Mark → Marks
  | [] => ms
  | m :: rest => marksAfter (Marks.add m ms) rest

/-- The mark of `n` builder writes of the admitted kind, for a capacity `cap` (R185). -/
def overflowMarks (n cap : Nat) : List Mark := if cap < n then [.builderOverflow] else []

/-- The marks a callback's calls make for a request (R185, R186, R188 to R190). -/
def callMarks (i : Instr) (acts : List CbAct) : List Mark :=
  overflowMarks (builderWrites (kindOf i) acts) (capOf i) ++ acts.filterMap (markOf i)

/-- The marks of those calls and a return of `OK`: too few writes are marked, of a read or raw function (R187). -/
def okMarks (i : Instr) (acts : List CbAct) : List Mark :=
  callMarks i acts ++ (if builderWrites (kindOf i) acts < capOf i then [.builderShort] else [])

/-- An event of the callback port's calls. -/
def isCallEvent : PortEvent → Bool
  | .rxAvailable _ => false
  | .now _ => false
  | .rxRead _ => false
  | .callback _ _ _ _ _ => false
  | .writeBit _ => true
  | .writeRegister _ => true
  | .readCoilValue _ _ => true
  | .readRegisterValue _ _ => true
  | .callbackReturned _ => false
  | .dirAssert => false
  | .txSend _ => false
  | .dirDeassert => false

/-- The byte sequences a list of events puts on the wire. -/
def sent : List PortEvent → List (List Byte)
  | [] => []
  | .txSend s :: es => s :: sent es
  | .rxAvailable _ :: es => sent es
  | .now _ :: es => sent es
  | .rxRead _ :: es => sent es
  | .callback _ _ _ _ _ :: es => sent es
  | .writeBit _ :: es => sent es
  | .writeRegister _ :: es => sent es
  | .readCoilValue _ _ :: es => sent es
  | .readRegisterValue _ _ :: es => sent es
  | .callbackReturned _ :: es => sent es
  | .dirAssert :: es => sent es
  | .dirDeassert :: es => sent es

/-- The payload view of a request stands in `RX_BUF` where the frame has it (true in every poll that takes the frame). -/
def rxHoldsView (i : Instr) (s : State) : Prop := s.rxBuf.readRun i.viewOff i.view.length = i.view

/-! ### Frames and invariants -/

/-- What no instruction changes: the configuration, the observation baseline, the received frame, the parameters, the
ports and the host. -/
structure KeepsRest (s t : State) : Prop where
  configured : t.configured = s.configured
  cfgUnit : t.cfgUnit = s.cfgUnit
  cfgThresh : t.cfgThresh = s.cfgThresh
  cfgDir : t.cfgDir = s.cfgDir
  cfgCb : t.cfgCb = s.cfgCb
  obsCount : t.obsCount = s.obsCount
  obsTime : t.obsTime = s.obsTime
  rxBuf : t.rxBuf = s.rxBuf
  rxLen : t.rxLen = s.rxLen
  params : t.params = s.params
  rxQueue : t.rxQueue = s.rxQueue
  env : t.env = s.env
  host : t.host = s.host

/-- The end of a cycle: `Idle`, no `Process()` in progress, no request and no status held (R236, R240, R39). -/
structure CycleOver (t : State) : Prop where
  phase : t.phase = .idle
  inProcess : t.inProcess = false
  req : t.req = none
  status : t.status = none

/-- What holds between polls in every run. -/
structure Inv (s : State) : Prop where
  /-- both buffers keep their canonical form -/
  rxWf : s.rxBuf.wf = true
  txWf : s.txBuf.wf = true
  /-- every byte written lies in its buffer; in `TX_BUF` below index 255 (R58) -/
  rxWithin : s.rxBuf.within s.params.rxCap = true
  txWithin : s.txBuf.within 255 = true
  /-- the registers keep their ranges (R20, R27 to R31), and the write offset is at most the capacity (R32) -/
  rxLen : s.rxLen ≤ s.params.rxCap
  obsCount : s.obsCount ≤ s.params.tcap
  obsTime : s.obsTime < 2 ^ s.params.wt
  cfgThresh : s.cfgThresh < 2 ^ s.params.wt
  plen : s.plen ≤ 251
  bcap : s.bcap ≤ 2000
  dofs : s.dofs = 2 ∨ s.dofs = 3
  dlen : s.dlen ≤ 250
  wofs : s.wofs ≤ s.bcap
  /-- the transport holds at most `P_TCAP` bytes (R266) -/
  rxQueue : s.rxQueue.length ≤ s.params.tcap
  /-- the transmitter is disabled between polls (R238) -/
  dirLine : s.dirLine = false
  /-- no per-cycle value is held and no poll is in progress (R236, R240) -/
  req : s.req = none
  status : s.status = none
  inProcess : s.inProcess = false
  /-- the phase says what `OBS_COUNT` says (R36) -/
  phase : s.phase = if s.obsCount = 0 then .idle else .accumulating

/-- A safe run so far: the callback has broken no duty (R253: "a claim can require no fault marked"). -/
def Unmarked (s : State) : Prop := s.marks = Marks.clear

/-! ### Phases (R231) -/

/-- The transitions of R231's table. -/
def phaseEdge (a b : Phase) : Bool :=
  match a, b with
  | .idle, .idle => true
  | .idle, .accumulating => true
  | .accumulating, .accumulating => true
  | .accumulating, .silentDetected => true
  | .silentDetected, .frameReady => true
  | .silentDetected, .dropped => true
  | .frameReady, .validating => true
  | .validating, .dropped => true
  | .validating, .decoding => true
  | .decoding, .exceptionReady => true
  | .decoding, .dispatching => true
  | .exceptionReady, .responding => true
  | .dispatching, .responding => true
  | .dispatching, .suppressed => true
  | .responding, .idle => true
  | .dropped, .idle => true
  | .suppressed, .idle => true
  | _, _ => false

/-- A list of phases each of which follows from the one before by R231's table. -/
def phaseChain : List Phase → Bool
  | [] => true
  | a :: rest =>
    match rest with
    | [] => true
    | b :: _ => phaseEdge a b && phaseChain rest

/-! ### States that differ in what no rule reads (R38, R237, R238) -/

/-- Two states between polls that agree on everything a later poll may read. They may differ in the stale contents of
the buffers, `RX_LEN`, `PLEN` and the builder fields; in the configuration registers as long as the engine is not
configured (R26); and in `OBS_TIME` while `OBS_COUNT` is 0 (R28). -/
structure SameLive (s t : State) : Prop where
  configured : t.configured = s.configured
  cfg : s.configured = true →
    t.cfgUnit = s.cfgUnit ∧ t.cfgThresh = s.cfgThresh ∧ t.cfgDir = s.cfgDir ∧ t.cfgCb = s.cfgCb
  obsCount : t.obsCount = s.obsCount
  obsTime : s.obsCount ≠ 0 → t.obsTime = s.obsTime
  dirLine : t.dirLine = s.dirLine
  req : t.req = s.req
  status : t.status = s.status
  phase : t.phase = s.phase
  inProcess : t.inProcess = s.inProcess
  phasePath : t.phasePath = s.phasePath
  marks : t.marks = s.marks
  trace : t.trace = s.trace
  params : t.params = s.params
  rxQueue : t.rxQueue = s.rxQueue
  env : t.env = s.env
  host : t.host = s.host

/-- Two outcomes that no observer can tell apart: next states that agree on everything live, or the same stop. -/
def sameOutcome (o o' : Outcome) : Prop :=
  match o, o' with
  | .next s, .next t => SameLive s t
  | .fault f, .fault g => f = g
  | .refused r, .refused q => r = q
  | _, _ => False

/-! ### The state a poll hands to the meaning of a request -/

/-- The state in which a poll runs the request it took: the `c` oldest pending bytes read into `RX_BUF`, the baseline
cleared, the two samples and the reads on the trace, the phase `Decoding` (R100, R104, R231, R240). `rest` is what the
host does afterwards. -/
def requestTaken (env : PollEnv) (rest : List HostEvent) (c : Nat) (s : State) : State :=
  { s with
    host := rest
    env := env
    inProcess := true
    rxBuf := s.rxBuf.writeRun 0 (s.rxQueue.take c)
    rxLen := c
    rxQueue := s.rxQueue.drop c
    obsCount := 0
    trace := s.trace ++ [.rxAvailable c, .now (env.clock % 2 ^ s.params.wt)] ++ (s.rxQueue.take c).map .rxRead
    phase := .decoding
    phasePath := [s.phase, .silentDetected, .frameReady, .validating, .decoding] }

/-- The count `RxAvailable()` reports in a poll with these port answers. -/
def reported (env : PollEnv) (s : State) : Nat := env.avail.getD s.rxQueue.length

end Machine

end Sys2Proof
end

