-- ==== Sys2Proof/Certificates/Slice0/Obligations.lean ====
section
/-! DEFINITION. The statements for the provers, in the spec's order: encoding, configuration and reset, the frame
assembler and validator, the instructions, the callback port, the whole poll. -/

section

open Sys2Proof Sys2Proof.Machine

/-! ### Encoding -/

/-- Decoding an encoded well-formed instruction gives it back, for all ten rows, every operand and every parameter. -/
def Obligations.DecodeEncodeGivesBack : Prop :=
  ∀ (p : Params) (i : Instr), i.wf p = true → decode p (encode p i) = .ok i

/-- Every frame the decoder accepts is the encoding of the instruction it reads, and that instruction is well-formed. -/
def Obligations.EncodeDecodeGivesBack : Prop :=
  ∀ (p : Params) (F : List Byte) (i : Instr), decode p F = .ok i → i.wf p = true ∧ encode p i = F

/-- The decoder accepts exactly the frames that are long enough, fit the buffer and carry the right checksum. -/
def Obligations.DecodeAcceptsExactlyValid : Prop :=
  ∀ (p : Params) (F : List Byte),
    (∃ i, decode p F = .ok i) ↔
      8 ≤ F.length ∧ F.length ≤ p.rxCap ∧ checksumOk p F = true

/-- R75: in a frame that decodes, byte 1 decides the instruction: ILLEGAL_FUNCTION exactly for a byte that is none of
the eight standard codes and not `P_FC_RAW`; otherwise the instruction of that code. -/
def Obligations.FunctionCodeDecidesInstruction : Prop :=
  ∀ (p : Params) (F : List Byte) (i : Instr), decode p F = .ok i →
    F[1]? = some (i.fc p) ∧
      ((∃ u fc r b4 b5 x, i = .illegalFunction u fc r b4 b5 x) ↔
        standardCodes.contains (i.fc p) = false ∧ i.fc p ≠ p.fcRaw)

/-- Words written out from the spec's examples (R141 to R150) decode to the instructions they stand for. -/
def Obligations.WrittenOutFramesDecode : Prop :=
  decode Params.default [0x01, 0x01, 0x00, 0x13, 0x00, 0x0A, 0x4D, 0xC8] = .ok (.readCoils 0x01 0x0013 0x000A []) ∧
  decode Params.default [0x01, 0x03, 0x00, 0x00, 0x00, 0x03, 0x05, 0xCB] =
    .ok (.readHoldingRegisters 0x01 0x0000 0x0003 []) ∧
  decode Params.default [0x01, 0x05, 0x00, 0xAC, 0xFF, 0x00, 0x4C, 0x1B] =
    .ok (.writeSingleCoil 0x01 0x00AC 0xFF00 []) ∧
  decode Params.default [0x01, 0x10, 0x00, 0x01, 0x00, 0x02, 0x04, 0x00, 0x0A, 0x01, 0x02, 0x92, 0x30] =
    .ok (.writeMultipleRegisters 0x01 0x0001 0x0002 [0x04, 0x00, 0x0A, 0x01, 0x02]) ∧
  decode Params.default [0x01, 0x07, 0x00, 0x00, 0x00, 0x00, 0xB4, 0x0A] =
    .ok (.illegalFunction 0x01 0x07 0x0000 0x00 0x00 [])

/-- The check values R125 gives for the default checksum instance. -/
def Obligations.ChecksumCheckValues : Prop :=
  crc16Modbus [0x31, 0x32, 0x33, 0x34, 0x35, 0x36, 0x37, 0x38, 0x39] = 0x4B37#16 ∧
  crc16 .modbusSwapped [0x31, 0x32, 0x33, 0x34, 0x35, 0x36, 0x37, 0x38, 0x39] = 0x374B#16 ∧
  crc16 .modbusSwapped [0x01, 0x03, 0x00, 0x00, 0x00, 0x0A] = 0xC5CD#16

/-- R220: for a request code with bit 7 set the exception response's function byte is the request's. -/
def Obligations.ExceptionBitOfHighCodes : Prop :=
  ∀ fc : Byte, 0x80 ≤ fc.toNat → exceptionCode fc = fc

/-! ### Reset and configuration -/

/-- R39: the values reset leaves, where the spec gives one. -/
def Obligations.ResetValues : Prop :=
  State.reset.configured = false ∧ State.reset.obsCount = 0 ∧ State.reset.obsTime = 0 ∧ State.reset.rxLen = 0 ∧
  State.reset.plen = 0 ∧ State.reset.bkind = .none ∧ State.reset.bcap = 0 ∧ State.reset.dofs = 2 ∧
  State.reset.dlen = 0 ∧ State.reset.wofs = 0 ∧ State.reset.dirLine = false ∧ State.reset.req = none ∧
  State.reset.status = none ∧ State.reset.phase = .idle

/-- R280: the reset event gives every engine element its reset value, in every state, and performs no port event. That
the parameters, the pending bytes, the marks and the host's further events stay is the model's choice (log entry 8). -/
def Obligations.ResetEventResets : Prop :=
  ∀ (s : State) (rest : List HostEvent), s.host = .reset :: rest →
    ∃ t, step s = .next t ∧ t.trace = s.trace ∧
      t.configured = false ∧ t.obsCount = 0 ∧ t.obsTime = 0 ∧ t.rxLen = 0 ∧ t.plen = 0 ∧ t.bkind = .none ∧
      t.bcap = 0 ∧ t.dofs = 2 ∧ t.dlen = 0 ∧ t.wofs = 0 ∧ t.dirLine = false ∧ t.req = none ∧ t.status = none ∧
      t.phase = .idle ∧
      t.params = s.params ∧ t.rxQueue = s.rxQueue ∧ t.marks = s.marks ∧ t.host = rest

/-- R293: the threshold table. -/
def Obligations.ThresholdTable : Prop :=
  silenceThreshold 300 = 128333 ∧ silenceThreshold 1200 = 32083 ∧ silenceThreshold 2400 = 16041 ∧
  silenceThreshold 4800 = 8020 ∧ silenceThreshold 9600 = 4010 ∧ silenceThreshold 14400 = 2673 ∧
  silenceThreshold 19200 = 2005 ∧ silenceThreshold 38400 = 1750 ∧ silenceThreshold 57600 = 1750 ∧
  silenceThreshold 115200 = 1750

/-- R101: with a clock of at least 26 bits every legal baud rate has a threshold the clock holds. -/
def Obligations.LegalBaudFitsClock : Prop :=
  ∀ (baud wt : Nat), 1 ≤ baud → 26 ≤ wt → silenceThreshold baud < 2 ^ wt

/-- R281: Configure writes the four configuration fields and `CONFIGURED`, drives the line to receive when there is one,
and changes nothing else of the engine. -/
def Obligations.ConfigureWrites : Prop :=
  ∀ (s : State) (rest : List HostEvent) (unit : Byte) (baud : BitVec 32) (dir cb : Bool),
    s.host = .configure unit baud dir cb :: rest → s.configured = false → 1 ≤ baud.toNat →
    silenceThreshold baud.toNat < 2 ^ s.params.wt →
    step s = .next { s with
      host := rest
      configured := true
      cfgUnit := unit
      cfgThresh := silenceThreshold baud.toNat
      cfgDir := dir
      cfgCb := cb
      dirLine := if dir then false else s.dirLine
      trace := if dir then s.trace ++ [.dirDeassert] else s.trace }

/-- R282: when Configure is refused, and by which name; a refused Configure has no next state. -/
def Obligations.ConfigureRefusals : Prop :=
  ∀ (s : State) (rest : List HostEvent) (unit : Byte) (baud : BitVec 32) (dir cb : Bool),
    s.host = .configure unit baud dir cb :: rest →
    (s.configured = true → step s = .refused .configureTwice) ∧
    (s.configured = false → baud.toNat = 0 → step s = .refused .badBaud) ∧
    (s.configured = false → 1 ≤ baud.toNat → 2 ^ s.params.wt ≤ silenceThreshold baud.toNat →
      step s = .refused .thresholdTooWide)

/-- R21: only Configure (and a reset) writes the configuration registers and `CONFIGURED`: no poll does, whatever
request it takes and whatever its callback does. -/
def Obligations.ConfigurationReadOnly : Prop :=
  ∀ (s t : State), step s = .next t →
    (∀ unit baud dir cb rest, s.host ≠ .configure unit baud dir cb :: rest) → (∀ rest, s.host ≠ .reset :: rest) →
    t.configured = s.configured ∧ t.cfgUnit = s.cfgUnit ∧ t.cfgThresh = s.cfgThresh ∧ t.cfgDir = s.cfgDir ∧
      t.cfgCb = s.cfgCb

/-- R230: a poll before Configure, or while a poll is in progress, has no meaning. -/
def Obligations.PollEntryRefusals : Prop :=
  ∀ (s : State) (env : PollEnv) (rest : List HostEvent), s.host = .poll env :: rest →
    (s.configured = false → s.inProcess = false → step s = .refused .notConfigured) ∧
    (s.configured = true → s.inProcess = true → step s = .refused .reentrant) ∧
    (s.configured = false → s.inProcess = true →
      step s = .refused .notConfigured ∨ step s = .refused .reentrant)

/-- R254, R285: a port call outside a callback invocation, and a read of the payload view after the callback returned,
have no meaning. That they are events of the host is the model's choice (log entry 17). -/
def Obligations.CallsOutsideCallbackRefused : Prop :=
  ∀ (s : State) (rest : List HostEvent),
    (∀ a, s.host = .strayCall a :: rest → step s = .refused .outsideCallback) ∧
    (s.host = .staleView :: rest → step s = .refused .viewExpired)

/-- R263: between the host's events the engine does nothing. That a host with no event pending gives a step without
effect is the model's choice (log entry 4). -/
def Obligations.NothingHappensWithoutHost : Prop :=
  ∀ s : State, s.host = [] → step s = .next s

/-! ### The transport, the clock and the frame assembler -/

/-- R266: bytes the transport cannot buffer are lost. That the newest bytes are the lost ones is the model's choice (log
entry 6). -/
def Obligations.ArrivalsQueueUpToCapacity : Prop :=
  ∀ (s : State) (bytes : List Byte) (rest : List HostEvent), s.host = .arrive bytes :: rest →
    s.rxQueue.length ≤ s.params.tcap →
    step s = .next { s with host := rest, rxQueue := (s.rxQueue ++ bytes).take s.params.tcap }

/-- R106: elapsed time is the difference of the two times modulo `2^P_WT`. -/
def Obligations.ElapsedIsModular : Prop :=
  ∀ (wt t t0 : Nat), t < 2 ^ wt → t0 < 2 ^ wt →
    elapsed wt t t0 < 2 ^ wt ∧ (elapsed wt t t0 : Int) = ((t : Int) - (t0 : Int)) % (2 ^ wt : Int)

/-- R102: a poll that sees no pending byte changes nothing of the assembler's state and takes no frame. (`env`, `trace`
and `phasePath` are the model's own fields: log entries 6 and 9.) -/
def Obligations.EmptyTransportPoll : Prop :=
  ∀ (s : State) (env : PollEnv) (rest : List HostEvent), s.host = .poll env :: rest →
    s.configured = true → s.inProcess = false → reported env s = 0 →
    step s = .next { s with
      host := rest
      env := env
      inProcess := false
      trace := s.trace ++ [.rxAvailable 0, .now (env.clock % 2 ^ s.params.wt)]
      phase := if s.obsCount = 0 then .idle else .accumulating
      phasePath := [s.phase, if s.obsCount = 0 then .idle else .accumulating] }

/-- R103: a poll that sees a nonzero count different from `OBS_COUNT` records it and the time, and takes no frame.
(`env`, `trace` and `phasePath` are the model's own fields: log entries 6 and 9.) -/
def Obligations.ChangingCountPoll : Prop :=
  ∀ (s : State) (env : PollEnv) (rest : List HostEvent), s.host = .poll env :: rest →
    s.configured = true → s.inProcess = false → reported env s ≤ s.params.tcap →
    reported env s ≠ 0 → reported env s ≠ s.obsCount →
    step s = .next { s with
      host := rest
      env := env
      inProcess := false
      obsCount := reported env s
      obsTime := env.clock % 2 ^ s.params.wt
      trace := s.trace ++ [.rxAvailable (reported env s), .now (env.clock % 2 ^ s.params.wt)]
      phase := .accumulating
      phasePath := [s.phase, .accumulating] }

/-- R105: a poll that sees the same nonzero count before the threshold has elapsed changes no assembler state. -/
def Obligations.StillWaitingPoll : Prop :=
  ∀ (s : State) (env : PollEnv) (rest : List HostEvent), s.host = .poll env :: rest →
    s.configured = true → s.inProcess = false → reported env s ≤ s.params.tcap →
    reported env s ≠ 0 → reported env s = s.obsCount →
    elapsed s.params.wt (env.clock % 2 ^ s.params.wt) s.obsTime < s.cfgThresh →
    step s = .next { s with
      host := rest
      env := env
      inProcess := false
      trace := s.trace ++ [.rxAvailable s.obsCount, .now (env.clock % 2 ^ s.params.wt)]
      phase := .accumulating
      phasePath := [s.phase, .accumulating] }

/-- R104: at silence the assembler reads exactly C bytes, stores the k-th in `RX_BUF[k]`, sets `RX_LEN` to C and
`OBS_COUNT` to 0, leaves `OBS_TIME` and every other byte of `RX_BUF` as they were, and the outcome is a frame. -/
def Obligations.SilenceTakesBurst : Prop :=
  ∀ (s : State) (c : Nat), c = rxAvailable s → c ≤ s.params.tcap → c ≠ 0 → c = s.obsCount →
    s.cfgThresh ≤ elapsed s.params.wt (now s) s.obsTime → c ≤ s.params.rxCap → c ≤ s.rxQueue.length →
    s.rxBuf.wf = true →
    ∃ t, assemblerStep s = .frame t ∧
      (∀ k, k < c → s.rxQueue[k]? = some (t.rxBuf.read k)) ∧
      (∀ k, c ≤ k → t.rxBuf.read k = s.rxBuf.read k) ∧
      t.rxLen = c ∧ t.obsCount = 0 ∧ t.obsTime = s.obsTime ∧ t.rxQueue = s.rxQueue.drop c ∧
      t.trace = s.trace ++ [.rxAvailable c, .now (now s)] ++ (s.rxQueue.take c).map .rxRead ∧
      t.txBuf = s.txBuf ∧ t.marks = s.marks ∧ t.dirLine = s.dirLine

/-- R107: a burst longer than `P_RX_CAP` is drained, only its first `P_RX_CAP` bytes are stored, and the poll ends as a
silent drop. -/
def Obligations.OversizeBurstDropped : Prop :=
  ∀ (s : State) (env : PollEnv) (rest : List HostEvent) (c : Nat), s.host = .poll env :: rest →
    s.configured = true → s.inProcess = false → c = reported env s → c ≤ s.params.tcap → c = s.obsCount →
    s.cfgThresh ≤ elapsed s.params.wt (env.clock % 2 ^ s.params.wt) s.obsTime → s.params.rxCap < c →
    c ≤ s.rxQueue.length → s.rxBuf.wf = true →
    ∃ t, step s = .next t ∧ CycleOver t ∧
      t.rxLen = 0 ∧ t.obsCount = 0 ∧ t.obsTime = s.obsTime ∧ t.rxQueue = s.rxQueue.drop c ∧
      (∀ k, k < s.params.rxCap → s.rxQueue[k]? = some (t.rxBuf.read k)) ∧
      (∀ k, s.params.rxCap ≤ k → t.rxBuf.read k = s.rxBuf.read k) ∧
      t.trace = s.trace ++ [.rxAvailable c, .now (env.clock % 2 ^ s.params.wt)] ++
        (s.rxQueue.take c).map .rxRead ∧
      t.txBuf = s.txBuf ∧ t.marks = s.marks ∧ t.dirLine = s.dirLine

/-- R112: a byte is read from the transport only in a poll that sees a nonzero count equal to the recorded one, at least
the threshold after the recorded time: an unstable count is never taken. -/
def Obligations.UnstableBurstNotTaken : Prop :=
  ∀ (s t : State) (env : PollEnv) (rest : List HostEvent), s.host = .poll env :: rest → step s = .next t →
    t.rxQueue ≠ s.rxQueue →
    reported env s ≠ 0 ∧ reported env s = s.obsCount ∧
      s.cfgThresh ≤ elapsed s.params.wt (env.clock % 2 ^ s.params.wt) s.obsTime ∧
      t.rxQueue = s.rxQueue.drop s.obsCount

/-- D34, U23: a poll that must read a byte the transport does not have has no meaning (log entry 6). -/
def Obligations.MissingByteRefused : Prop :=
  ∀ (s : State) (env : PollEnv) (rest : List HostEvent), s.host = .poll env :: rest →
    s.configured = true → s.inProcess = false → reported env s ≤ s.params.tcap →
    reported env s = s.obsCount → s.rxQueue.length < reported env s →
    s.cfgThresh ≤ elapsed s.params.wt (env.clock % 2 ^ s.params.wt) s.obsTime →
    step s = .refused .rxReadEmpty

/-! ### The validator and the request -/

/-- R104, R121, R122, R124, R126, R127, R252: a frame that is too short, addressed elsewhere or fails its checksum ends the
poll with no transmission and no callback, whatever its content; only what the assembler wrote remains of it. That `PLEN`
and the builder fields keep their values over the drop is inferred (log entry 18). -/
def Obligations.InvalidFrameDropped : Prop :=
  ∀ (s : State) (env : PollEnv) (rest : List HostEvent) (c : Nat) (F : List Byte), s.host = .poll env :: rest →
    s.configured = true → s.inProcess = false → c = reported env s → c ≤ s.params.tcap → c ≠ 0 → c = s.obsCount →
    s.cfgThresh ≤ elapsed s.params.wt (env.clock % 2 ^ s.params.wt) s.obsTime → c ≤ s.params.rxCap →
    c ≤ s.rxQueue.length → s.rxBuf.wf = true → F = s.rxQueue.take c →
    (c < 8 ∨ (s.cfgUnit ≠ 0 ∧ F[0]? ≠ some s.cfgUnit) ∨ checksumOk s.params F = false) →
    ∃ t, step s = .next t ∧ CycleOver t ∧
      t.trace = s.trace ++ [.rxAvailable c, .now (env.clock % 2 ^ s.params.wt)] ++ F.map .rxRead ∧
      t.rxBuf = s.rxBuf.writeRun 0 F ∧ t.rxLen = c ∧ t.obsCount = 0 ∧ t.obsTime = s.obsTime ∧
      t.rxQueue = s.rxQueue.drop c ∧ t.txBuf = s.txBuf ∧ t.dirLine = s.dirLine ∧ t.marks = s.marks ∧
      t.plen = s.plen ∧ t.bkind = s.bkind ∧ t.bcap = s.bcap ∧ t.dofs = s.dofs ∧ t.dlen = s.dlen ∧ t.wofs = s.wofs

/-- A step runs the decoded instruction: when the poll takes a burst that decodes to `i` and the unit address is
accepted, the step is the meaning of `i` in the state `requestTaken` spells out. -/
def Obligations.StepRunsDecodedInstruction : Prop :=
  ∀ (s : State) (env : PollEnv) (rest : List HostEvent) (c : Nat) (i : Instr), s.host = .poll env :: rest →
    s.configured = true → s.inProcess = false → c = reported env s → c ≤ s.params.tcap → c = s.obsCount →
    s.cfgThresh ≤ elapsed s.params.wt (env.clock % 2 ^ s.params.wt) s.obsTime → c ≤ s.rxQueue.length →
    s.rxBuf.wf = true → decode s.params (s.rxQueue.take c) = .ok i → (s.cfgUnit = 0 ∨ i.unit = s.cfgUnit) →
    step s = exec i (requestTaken env rest c s)

/-- A well-formed request that arrives whole at an idle, configured engine and then stays silent for the threshold is
run: three steps (it arrives, a poll records it, a poll takes it). -/
def Obligations.SilentRequestIsRun : Prop :=
  ∀ (s : State) (i : Instr) (e1 e2 : PollEnv) (rest : List HostEvent), Inv s → s.configured = true →
    s.obsCount = 0 → s.rxQueue = [] → i.wf s.params = true → (encode s.params i).length ≤ s.params.tcap →
    (s.cfgUnit = 0 ∨ i.unit = s.cfgUnit) → e1.avail = none → e2.avail = none →
    s.cfgThresh ≤ elapsed s.params.wt (e2.clock % 2 ^ s.params.wt) (e1.clock % 2 ^ s.params.wt) →
    s.host = .arrive (encode s.params i) :: .poll e1 :: .poll e2 :: rest →
    ∃ r u, step s = .next r ∧ step r = .next u ∧
      step u = exec i (requestTaken e2 rest (encode s.params i).length u) ∧
      u.trace = s.trace ++ [.rxAvailable (encode s.params i).length, .now (e1.clock % 2 ^ s.params.wt)] ∧
      u.rxQueue = encode s.params i ∧ u.txBuf = s.txBuf

/-! ### The instructions: results -/

/-- READ_COILS and READ_DISCRETE_INPUTS (R141, R142, R183, R185 to R187, R190, R211): for a quantity in range and a
callback that makes any port calls but `Process()` and returns OK, the response is the packed bits its `WriteBit` calls
wrote, item k in bit k mod 8 of byte k div 8, with 0 for the items not written and for the bits beyond the quantity.
`WriteBit` calls beyond the quantity and all `WriteRegister` calls are ignored and marked, accessor calls get `ERR` and are
marked, too few bits are marked. `WOFS` ends as the number of accepted writes. That `PLEN` and the builder fields keep
their values after the cycle is inferred (log entry 18). -/
def Obligations.BitReadsAnswered : Prop :=
  ∀ (s : State) (unit : Byte) (reg qty : U16) (extra : List Byte) (acts : List CbAct) (fc : Byte) (i : Instr),
    (fc = 0x01 ∧ i = .readCoils unit reg qty extra ∨ fc = 0x02 ∧ i = .readDiscreteInputs unit reg qty extra) →
    1 ≤ qty.toNat → qty.toNat ≤ 2000 → s.cfgCb = true → s.env.txCompletes = true → s.txBuf.wf = true →
    s.env.cb = { acts := acts, ends := .returns .ok } → CbAct.process ∉ acts →
    ∃ t data, exec i s = .next t ∧ data.length = ceil8 qty.toNat ∧
      (∀ k, k < 8 * ceil8 qty.toNat →
        (data.getD (k / 8) 0).getLsbD (k % 8) = if k < qty.toNat then (bitWrites acts).getD k false else false) ∧
      t.trace = s.trace ++ [.callback unit fc reg qty.toNat []] ++ acts.filterMap (eventOf i) ++
        [.callbackReturned .ok] ++ sendEvents s.cfgDir (countedFrame s.params unit fc data) ∧
      t.txBuf.readRun 0 (5 + ceil8 qty.toNat) = countedFrame s.params unit fc data ∧
      (∀ a, 5 + ceil8 qty.toNat ≤ a → t.txBuf.read a = s.txBuf.read a) ∧
      t.plen = 1 + ceil8 qty.toNat ∧ t.bkind = .bit ∧ t.bcap = qty.toNat ∧ t.dofs = 3 ∧
      t.dlen = ceil8 qty.toNat ∧ t.wofs = min (builderWrites (kindOf i) acts) qty.toNat ∧
      t.marks = marksAfter s.marks (okMarks i acts) ∧ t.dirLine = (if s.cfgDir then false else s.dirLine) ∧
      KeepsRest s t ∧ CycleOver t

/-- READ_HOLDING_REGISTERS and READ_INPUT_REGISTERS (R143, R144, R184 to R187, R190, R211): for a quantity in range and a
callback that makes any port calls but `Process()` and returns OK, the response carries the registers its `WriteRegister`
calls wrote, big-endian, in order, with 0 for those not written. `WriteRegister` calls beyond the quantity and all
`WriteBit` calls are ignored and marked, accessor calls get `ERR` and are marked, too few registers are marked. `WOFS` ends
as the number of accepted writes. That `PLEN` and the builder fields keep their values after the cycle is inferred (log
entry 18). -/
def Obligations.RegisterReadsAnswered : Prop :=
  ∀ (s : State) (unit : Byte) (reg qty : U16) (extra : List Byte) (acts : List CbAct) (fc : Byte) (i : Instr),
    (fc = 0x03 ∧ i = .readHoldingRegisters unit reg qty extra ∨
      fc = 0x04 ∧ i = .readInputRegisters unit reg qty extra) →
    1 ≤ qty.toNat → qty.toNat ≤ 125 → s.cfgCb = true → s.env.txCompletes = true → s.txBuf.wf = true →
    s.env.cb = { acts := acts, ends := .returns .ok } → CbAct.process ∉ acts →
    ∃ t data, exec i s = .next t ∧
      data = (((registerWrites acts).take qty.toNat).flatMap beBytes) ++
        List.replicate (2 * (qty.toNat - (registerWrites acts).length)) 0x00 ∧
      t.trace = s.trace ++ [.callback unit fc reg qty.toNat []] ++ acts.filterMap (eventOf i) ++
        [.callbackReturned .ok] ++ sendEvents s.cfgDir (countedFrame s.params unit fc data) ∧
      t.txBuf.readRun 0 (5 + 2 * qty.toNat) = countedFrame s.params unit fc data ∧
      (∀ a, 5 + 2 * qty.toNat ≤ a → t.txBuf.read a = s.txBuf.read a) ∧
      t.plen = 1 + 2 * qty.toNat ∧ t.bkind = .reg ∧ t.bcap = qty.toNat ∧ t.dofs = 3 ∧
      t.dlen = 2 * qty.toNat ∧ t.wofs = min (builderWrites (kindOf i) acts) qty.toNat ∧
      t.marks = marksAfter s.marks (okMarks i acts) ∧ t.dirLine = (if s.cfgDir then false else s.dirLine) ∧
      KeepsRest s t ∧ CycleOver t

/-- RAW_TRANSFER (R149, R184 to R187, R190, R211): for a quantity in range and a callback that makes any port calls but
`Process()` and returns OK, the response carries the low byte of each value its `WriteRegister` calls wrote, in order, with
0 for those not written, and no length byte; the other calls are ignored and marked as in a register read. `WOFS` ends as
the number of accepted writes. That `PLEN` and the builder fields keep their values after the cycle is inferred (log entry
18). -/
def Obligations.RawTransferAnswered : Prop :=
  ∀ (s : State) (unit : Byte) (reg : U16) (ignored qty : Byte) (extra : List Byte) (acts : List CbAct) (i : Instr),
    i = .rawTransfer unit reg ignored qty extra →
    1 ≤ qty.toNat → qty.toNat ≤ 123 → s.cfgCb = true → s.env.txCompletes = true → s.txBuf.wf = true →
    s.env.cb = { acts := acts, ends := .returns .ok } → CbAct.process ∉ acts →
    ∃ t data, exec i s = .next t ∧
      data = ((registerWrites acts).take qty.toNat).map lo8 ++
        List.replicate (qty.toNat - (registerWrites acts).length) 0x00 ∧
      t.trace = s.trace ++ [.callback unit s.params.fcRaw reg qty.toNat []] ++ acts.filterMap (eventOf i) ++
        [.callbackReturned .ok] ++ sendEvents s.cfgDir (rawFrame s.params unit s.params.fcRaw data) ∧
      t.txBuf.readRun 0 (4 + qty.toNat) = rawFrame s.params unit s.params.fcRaw data ∧
      (∀ a, 4 + qty.toNat ≤ a → t.txBuf.read a = s.txBuf.read a) ∧
      t.plen = qty.toNat ∧ t.bkind = .rawByte ∧ t.bcap = qty.toNat ∧ t.dofs = 2 ∧
      t.dlen = qty.toNat ∧ t.wofs = min (builderWrites (kindOf i) acts) qty.toNat ∧
      t.marks = marksAfter s.marks (okMarks i acts) ∧ t.dirLine = (if s.cfgDir then false else s.dirLine) ∧
      KeepsRest s t ∧ CycleOver t

/-- WRITE_SINGLE_COIL and WRITE_SINGLE_REGISTER (R145, R146, R153, R186, R188 to R190, R211): for an admitted value and
a callback that makes any port calls and returns OK, the response is the echo, every builder call is ignored and marked,
and the accessors give what the request carries. That `PLEN` and the builder fields keep their values after the cycle is
inferred (log entry 18). -/
def Obligations.SingleWritesEchoed : Prop :=
  ∀ (s : State) (unit : Byte) (reg value : U16) (extra : List Byte) (acts : List CbAct) (fc : Byte) (i : Instr),
    (fc = 0x05 ∧ i = .writeSingleCoil unit reg value extra ∧ (value = 0x0000#16 ∨ value = 0xFF00#16) ∨
      fc = 0x06 ∧ i = .writeSingleRegister unit reg value extra) →
    s.cfgCb = true → s.env.txCompletes = true → s.txBuf.wf = true → rxHoldsView i s →
    s.env.cb = { acts := acts, ends := .returns .ok } → CbAct.process ∉ acts →
    ∃ t, exec i s = .next t ∧
      t.trace = s.trace ++ [.callback unit fc reg 1 (beBytes value)] ++ acts.filterMap (eventOf i) ++
        [.callbackReturned .ok] ++ sendEvents s.cfgDir (echoFrame s.params unit fc reg value) ∧
      t.txBuf.readRun 0 8 = echoFrame s.params unit fc reg value ∧
      (∀ a, 8 ≤ a → t.txBuf.read a = s.txBuf.read a) ∧
      t.plen = 4 ∧ t.bkind = .none ∧ t.bcap = 0 ∧ t.dofs = 2 ∧ t.dlen = 0 ∧ t.wofs = 0 ∧
      t.marks = marksAfter s.marks (okMarks i acts) ∧
      t.dirLine = (if s.cfgDir then false else s.dirLine) ∧ KeepsRest s t ∧ CycleOver t

/-- WRITE_MULTIPLE_COILS and WRITE_MULTIPLE_REGISTERS (R147, R148, R153, R186, R188 to R190, R211): for a quantity in
range, the byte count it calls for and data that fit, the response is the echo of address and quantity, and the
accessors give the coils and registers of the data. That `PLEN` and the builder fields keep their values after the cycle
is inferred (log entry 18). -/
def Obligations.MultipleWritesEchoed : Prop :=
  ∀ (s : State) (unit : Byte) (reg qty : U16) (bc : Byte) (data : List Byte) (acts : List CbAct) (fc : Byte)
    (i : Instr),
    (fc = 0x0F ∧ i = .writeMultipleCoils unit reg qty (bc :: data) ∧ qty.toNat ≤ 1968 ∧
        bc.toNat = ceil8 qty.toNat ∨
      fc = 0x10 ∧ i = .writeMultipleRegisters unit reg qty (bc :: data) ∧ qty.toNat ≤ 123 ∧
        bc.toNat = 2 * qty.toNat) →
    1 ≤ qty.toNat → bc.toNat ≤ data.length →
    s.cfgCb = true → s.env.txCompletes = true → s.txBuf.wf = true → rxHoldsView i s →
    s.env.cb = { acts := acts, ends := .returns .ok } → CbAct.process ∉ acts →
    ∃ t, exec i s = .next t ∧
      t.trace = s.trace ++ [.callback unit fc reg qty.toNat (data.take bc.toNat)] ++ acts.filterMap (eventOf i) ++
        [.callbackReturned .ok] ++ sendEvents s.cfgDir (echoFrame s.params unit fc reg qty) ∧
      t.txBuf.readRun 0 8 = echoFrame s.params unit fc reg qty ∧
      (∀ a, 8 ≤ a → t.txBuf.read a = s.txBuf.read a) ∧
      t.plen = 4 ∧ t.bkind = .none ∧ t.bcap = 0 ∧ t.dofs = 2 ∧ t.dlen = 0 ∧ t.wofs = 0 ∧
      t.marks = marksAfter s.marks (okMarks i acts) ∧
      t.dirLine = (if s.cfgDir then false else s.dirLine) ∧ KeepsRest s t ∧ CycleOver t

/-- R181, R187, R191, R211, R214, R240: every request that passes its row's checks completes. With a callback that makes
any port calls but `Process()` and returns OK, the nine instructions READ_COILS, READ_DISCRETE_INPUTS,
READ_HOLDING_REGISTERS, READ_INPUT_REGISTERS, WRITE_SINGLE_COIL, WRITE_SINGLE_REGISTER, WRITE_MULTIPLE_COILS,
WRITE_MULTIPLE_REGISTERS and RAW_TRANSFER each go on to a next state, with one transmission of unit, function code and a
payload of the length R77 gives, and its checksum. (What the payload is, the statements above say.) -/
def Obligations.ValidRequestsComplete : Prop :=
  ∀ (s : State) (i : Instr) (acts : List CbAct), i.structurallyValid = true → s.cfgCb = true →
    s.env.txCompletes = true → s.txBuf.wf = true → rxHoldsView i s →
    s.env.cb = { acts := acts, ends := .returns .ok } → CbAct.process ∉ acts →
    ∃ t payload, exec i s = .next t ∧ payload.length = i.okPlen ∧
      t.trace = s.trace ++ [.callback i.unit (i.fc s.params) i.reg i.requestQty i.view] ++
        acts.filterMap (eventOf i) ++ [.callbackReturned .ok] ++
        sendEvents s.cfgDir (withChecksum s.params ([i.unit, i.fc s.params] ++ payload)) ∧
      t.marks = marksAfter s.marks (okMarks i acts) ∧ t.dirLine = (if s.cfgDir then false else s.dirLine) ∧
      KeepsRest s t ∧ CycleOver t

/-- ILLEGAL_FUNCTION (R140, R150, R155, R212, R215): the exception response of code 0x01, whether or not a callback is
registered and whatever it would do. That `WOFS` is then 0 is the model's choice (log entry 14: R32 bounds it by `BCAP`,
which R140 has set to 0); that `PLEN` and the builder fields keep their values after the cycle is inferred (log entry
18). -/
def Obligations.IllegalFunctionAnswered : Prop :=
  ∀ (s : State) (unit fc : Byte) (reg : U16) (b4 b5 : Byte) (extra : List Byte),
    s.env.txCompletes = true → s.txBuf.wf = true →
    ∃ t, exec (.illegalFunction unit fc reg b4 b5 extra) s = .next t ∧
      t.trace = s.trace ++ sendEvents s.cfgDir (exceptionFrame s.params unit fc 0x01) ∧
      t.txBuf.readRun 0 5 = exceptionFrame s.params unit fc 0x01 ∧
      (∀ a, 5 ≤ a → t.txBuf.read a = s.txBuf.read a) ∧
      t.plen = 1 ∧ t.bkind = .none ∧ t.bcap = 0 ∧ t.dofs = 2 ∧ t.dlen = 0 ∧ t.wofs = 0 ∧
      t.marks = s.marks ∧ t.dirLine = (if s.cfgDir then false else s.dirLine) ∧ KeepsRest s t ∧ CycleOver t

/-- R140, R155, R212, R215, R251: every request that fails a check of its row is answered with the exception response of
that row's code (0x03, or 0x01 for an illegal function code), and never reaches the callback. That `WOFS` is then 0 is the
model's choice (log entry 14: R32 bounds it by `BCAP`, which R140 has set to 0); that `PLEN` and the builder fields keep
their values after the cycle is inferred (log entry 18). -/
def Obligations.FailedCheckAnswered : Prop :=
  ∀ (s : State) (i : Instr), i.structurallyValid = false → s.env.txCompletes = true → s.txBuf.wf = true →
    ∃ t, exec i s = .next t ∧
      t.trace = s.trace ++
        sendEvents s.cfgDir (exceptionFrame s.params i.unit (i.fc s.params) i.decoderCode) ∧
      t.txBuf.readRun 0 5 = exceptionFrame s.params i.unit (i.fc s.params) i.decoderCode ∧
      (∀ a, 5 ≤ a → t.txBuf.read a = s.txBuf.read a) ∧
      t.plen = 1 ∧ t.bkind = .none ∧ t.bcap = 0 ∧ t.dofs = 2 ∧ t.dlen = 0 ∧ t.wofs = 0 ∧
      t.marks = s.marks ∧ t.dirLine = (if s.cfgDir then false else s.dirLine) ∧ KeepsRest s t ∧ CycleOver t

/-- R182, R212: with no callback registered every structurally valid request is answered with server device failure. That
`PLEN` keeps its value after the cycle is inferred (log entry 18). -/
def Obligations.NoCallbackAnswered : Prop :=
  ∀ (s : State) (i : Instr), i.structurallyValid = true → s.cfgCb = false → s.env.txCompletes = true →
    s.txBuf.wf = true →
    ∃ t, exec i s = .next t ∧
      t.trace = s.trace ++ sendEvents s.cfgDir (exceptionFrame s.params i.unit (i.fc s.params) 0x04) ∧
      t.txBuf.readRun 0 5 = exceptionFrame s.params i.unit (i.fc s.params) 0x04 ∧
      (∀ a, 5 ≤ a → 2 + i.okPlen ≤ a → t.txBuf.read a = s.txBuf.read a) ∧
      t.plen = 1 ∧ t.marks = s.marks ∧ t.dirLine = (if s.cfgDir then false else s.dirLine) ∧
      KeepsRest s t ∧ CycleOver t

/-- R187, R191, R212: a code the callback returns is sent verbatim in an exception response, and whatever it had written
is not sent. The calls are seen and marked as for `OK`, but a short fill is not marked. (That `PLEN` and `WOFS` keep their
values after the cycle: log entry 18.) -/
def Obligations.CallbackExceptionSentVerbatim : Prop :=
  ∀ (s : State) (i : Instr) (acts : List CbAct) (e : Byte), i.structurallyValid = true → s.cfgCb = true →
    s.env.txCompletes = true → s.txBuf.wf = true → CbAct.process ∉ acts →
    s.env.cb = { acts := acts, ends := .returns (.exc e) } → e ≠ 0x00 → rxHoldsView i s →
    ∃ t, exec i s = .next t ∧
      t.trace = s.trace ++ [.callback i.unit (i.fc s.params) i.reg i.requestQty i.view] ++
        acts.filterMap (eventOf i) ++ [.callbackReturned (.exc e)] ++
        sendEvents s.cfgDir (exceptionFrame s.params i.unit (i.fc s.params) e) ∧
      t.txBuf.readRun 0 5 = exceptionFrame s.params i.unit (i.fc s.params) e ∧
      (∀ a, 5 ≤ a → 2 + i.okPlen ≤ a → t.txBuf.read a = s.txBuf.read a) ∧
      t.plen = 1 ∧ t.wofs = min (builderWrites (kindOf i) acts) (capOf i) ∧
      t.marks = marksAfter s.marks (callMarks i acts) ∧
      t.dirLine = (if s.cfgDir then false else s.dirLine) ∧ KeepsRest s t ∧ CycleOver t

/-- R187, R213: when the callback returns suppress nothing is transmitted, the line is not driven, and the encoder writes
no byte: `TX_BUF` changes at most where the decoder and the builder wrote the payload. The calls are seen and marked as for
`OK`, but a short fill is not marked. (That `PLEN` and `WOFS` keep their values after the cycle: log entry 18.) -/
def Obligations.SuppressedResponseSilent : Prop :=
  ∀ (s : State) (i : Instr) (acts : List CbAct), i.structurallyValid = true → s.cfgCb = true →
    CbAct.process ∉ acts → s.env.cb = { acts := acts, ends := .returns .suppress } → rxHoldsView i s →
    ∃ t, exec i s = .next t ∧
      t.trace = s.trace ++ [.callback i.unit (i.fc s.params) i.reg i.requestQty i.view] ++
        acts.filterMap (eventOf i) ++ [.callbackReturned .suppress] ∧
      (∀ a, a < 2 ∨ 2 + i.okPlen ≤ a → t.txBuf.read a = s.txBuf.read a) ∧
      t.plen = i.okPlen ∧ t.wofs = min (builderWrites (kindOf i) acts) (capOf i) ∧
      t.marks = marksAfter s.marks (callMarks i acts) ∧ t.dirLine = s.dirLine ∧ KeepsRest s t ∧ CycleOver t

/-- R264, R192, R217, U24: what has no end state. A READY request whose callback calls `Process()` is refused; one whose
callback returns `EXC(0x00)` is refused; one whose callback never returns, and any response whose `TxSend` never
completes, hangs. That a hang is a named fault is the model's choice (log entry 7). -/
def Obligations.BrokenPortsHaveNoEndState : Prop :=
  ∀ (s : State) (i : Instr),
    (i.structurallyValid = true → s.cfgCb = true → CbAct.process ∈ s.env.cb.acts →
      exec i s = .refused .reentrant) ∧
    (i.structurallyValid = true → s.cfgCb = true → CbAct.process ∉ s.env.cb.acts →
      s.env.cb.ends = .returns (.exc 0x00) → exec i s = .refused .statusZero) ∧
    (i.structurallyValid = true → s.cfgCb = true → CbAct.process ∉ s.env.cb.acts → s.env.cb.ends = .never →
      exec i s = .fault .callbackNeverReturns) ∧
    (s.env.txCompletes = false → i.structurallyValid = false ∨ s.cfgCb = false →
      exec i s = .fault .txNeverCompletes) ∧
    (∀ st, i.structurallyValid = true → s.cfgCb = true → CbAct.process ∉ s.env.cb.acts →
      s.env.cb.ends = .returns st → st ≠ .exc 0x00 → st ≠ .suppress → s.env.txCompletes = false →
      exec i s = .fault .txNeverCompletes)

/-- What every instruction leaves unchanged, in every outcome that is a next state: the configuration, the observation
baseline, the received frame, the parameters, the ports and the host; and every byte of `TX_BUF` outside the response
the request can have (five bytes, or the normal response of a valid request). -/
def Obligations.InstructionFrame : Prop :=
  ∀ (s t : State) (i : Instr), exec i s = .next t →
    KeepsRest s t ∧ CycleOver t ∧
      (∀ a, 5 ≤ a → (i.structurallyValid = true → 4 + i.okPlen ≤ a) → t.txBuf.read a = s.txBuf.read a)

/-! ### The callback port -/

/-- R64: the port calls of a callback change `TX_BUF` and the write offset only through the builder operations, and no
other engine state; besides, they are seen on the port and may mark. -/
def Obligations.CallbackChangesOnlyBuilder : Prop :=
  ∀ (s t : State) (acts : List CbAct), runActs acts s = .next t →
    t = { s with txBuf := t.txBuf, wofs := t.wofs, marks := t.marks, trace := t.trace } ∧
      ((∀ a ∈ acts, (∀ b, a ≠ .writeBit b) ∧ (∀ v, a ≠ .writeRegister v)) →
        t.txBuf = s.txBuf ∧ t.wofs = s.wofs) ∧
      ∃ calls, t.trace = s.trace ++ calls ∧ calls.length = acts.length ∧ (∀ c ∈ calls, isCallEvent c = true)

/-- R185, R186: a builder call of the wrong kind, and one beyond the capacity, change no state but the mark. -/
def Obligations.RefusedBuilderWritesIgnored : Prop :=
  ∀ (s : State) (b : Bool) (v : U16),
    (s.bkind ≠ .bit → writeBit b s = markFault .builderKind s) ∧
    (s.bkind = .bit → s.bcap ≤ s.wofs → writeBit b s = markFault .builderOverflow s) ∧
    (s.bkind ≠ .reg → s.bkind ≠ .rawByte → writeRegister v s = markFault .builderKind s) ∧
    (s.bkind = .reg ∨ s.bkind = .rawByte → s.bcap ≤ s.wofs → writeRegister v s = markFault .builderOverflow s)

/-- R32: the write offset is never greater than the capacity: not at reset, not in a decode (which sets both to 0: R140,
and log entry 14 for the offset), not at any point of a callback's run, where it counts the builder calls of the admitted
kind up to the capacity (R183 to R186), not after an instruction, and not after any step from a state where it was not. -/
def Obligations.WriteOffsetNeverAboveCapacity : Prop :=
  State.reset.wofs ≤ State.reset.bcap ∧
  ∀ s : State,
    (∀ u fc r, (beginDecode u fc r s).wofs = 0 ∧ (beginDecode u fc r s).bcap = 0) ∧
    (∀ acts t, s.wofs ≤ s.bcap → runActs acts s = .next t →
      t.wofs = min (s.wofs + builderWrites s.bkind acts) s.bcap ∧ t.bcap = s.bcap) ∧
    (∀ i t, exec i s = .next t → t.wofs ≤ t.bcap) ∧
    (∀ t, s.wofs ≤ s.bcap → step s = .next t → t.wofs ≤ t.bcap)

/-- R190: an accessor called for a function it does not serve gives `ERR`, changes no state and marks AccessorFunction;
the read functions and RAW_TRANSFER always get `ERR`. -/
def Obligations.AccessorsServeOnlyTheirFunctions : Prop :=
  ∀ (s : State) (r : Req) (k : Nat), s.req = some r →
    (r.fc ≠ 0x05 → r.fc ≠ 0x0F →
      coilAccess k s = .err .accessorFunction ∧
        runAct (.readCoilValue k) s = .next (markFault .accessorFunction (emit (.readCoilValue k none) s))) ∧
    (r.fc ≠ 0x06 → r.fc ≠ 0x10 →
      registerAccess k s = .err .accessorFunction ∧
        runAct (.readRegisterValue k) s =
          .next (markFault .accessorFunction (emit (.readRegisterValue k none) s)))

/-- R253: a mark once made is never cleared, by any step; not by the reset event either (the model's choice, log entry
8). -/
def Obligations.MarksNeverCleared : Prop :=
  ∀ (s t : State) (m : Mark), step s = .next t → s.marks.has m = true → t.marks.has m = true

/-! ### The whole poll -/

/-- R241: what a poll shows its environment: the two samples; then nothing more, or C reads; then at most one callback
invocation with its calls and its returned status; then at most one transmission, bracketed by the direction line when
there is one. -/
def Obligations.PollObservation : Prop :=
  ∀ (s t : State) (env : PollEnv) (rest : List HostEvent), s.host = .poll env :: rest → step s = .next t →
    ∃ (reads : List Byte) (invoked out : List PortEvent),
      t.trace = s.trace ++ [.rxAvailable (reported env s), .now (env.clock % 2 ^ s.params.wt)] ++
        reads.map .rxRead ++ invoked ++ out ∧
      (reads = [] ∨ reads.length = reported env s) ∧
      (reads = [] → invoked = [] ∧ out = []) ∧
      (invoked = [] ∨ ∃ u fc r q v calls st,
        invoked = .callback u fc r q v :: calls ++ [.callbackReturned st] ∧ (∀ c ∈ calls, isCallEvent c = true)) ∧
      (out = [] ∨ ∃ bytes, out = sendEvents s.cfgDir bytes)

/-- R221: a step performs at most one `TxSend`; only a poll performs one. -/
def Obligations.AtMostOneTransmission : Prop :=
  ∀ (s t : State), step s = .next t →
    ∃ out, t.trace = s.trace ++ out ∧ (sent out).length ≤ 1 ∧
      ((∀ env rest, s.host ≠ .poll env :: rest) → sent out = [])

/-- R214, R218: every frame the engine sends passes its own checksum check and is 5 to 255 bytes long. -/
def Obligations.SentFramesAreValid : Prop :=
  ∀ (s t : State) (out : List PortEvent) (bytes : List Byte), Inv s → step s = .next t →
    t.trace = s.trace ++ out → bytes ∈ sent out →
    5 ≤ bytes.length ∧ bytes.length ≤ 255 ∧ checksumOk s.params bytes = true

/-- R219: the unit byte of every response is the address byte of the request the poll took, and with `CFG_UNIT` not 0
it is `CFG_UNIT`. -/
def Obligations.ResponseUnitIsRequestUnit : Prop :=
  ∀ (s t : State) (out : List PortEvent) (bytes : List Byte), Inv s → step s = .next t →
    t.trace = s.trace ++ out → bytes ∈ sent out →
    bytes[0]? = s.rxQueue[0]? ∧ (s.cfgUnit ≠ 0 → bytes[0]? = some s.cfgUnit)

/-- R231: the phases a poll goes through follow the transition table, from the phase held before it to the phase held
after it, which is `Idle` or `Accumulating`. The path is the model's own field (log entry 9). -/
def Obligations.PhasesFollowTable : Prop :=
  ∀ (s t : State) (env : PollEnv) (rest : List HostEvent), Inv s → s.host = .poll env :: rest → step s = .next t →
    phaseChain t.phasePath = true ∧ t.phasePath.head? = some s.phase ∧ t.phasePath.getLast? = some t.phase ∧
      (t.phase = .idle ∨ t.phase = .accumulating)

/-- The invariant holds right after reset. -/
def Obligations.InvariantAtReset : Prop := Inv State.reset

/-- Every step keeps the invariant: the buffers' canonical form and bounds (R58), the ranges of the registers, the line
deasserted between polls (R238), no request and no status held over a poll (R39, R236), `WOFS` at most `BCAP` (R32), the
phase as `OBS_COUNT` says (R36). -/
def Obligations.StepKeepsInvariant : Prop :=
  ∀ (s t : State), Inv s → step s = .next t → Inv t

/-- R237, R238: what no rule reads is not observable. Two states between polls that agree on everything live make steps
no observer can tell apart: they stop alike, or go on to states that agree on everything live, the whole observation
among it. So the values the model gives unspecified state at reset (log entries 1 and 3) show in no run. -/
def Obligations.StaleStateUnobservable : Prop :=
  ∀ (s t : State), Inv s → Inv t → SameLive s t → sameOutcome (step s) (step t)

end
end

