-- ==== Sys2Proof/Laws/Bytes.lean ====
section
/-! SUPPORT. Laws of the byte order (R51), the checksum's place in a frame (R52, R124) and the frame of an instruction. -/

namespace Sys2Proof

@[simp] theorem toNat_hi8 (v : U16) : (hi8 v).toNat = v.toNat / 256 := by
  have := v.isLt
  simp only [hi8, BitVec.toNat_ofNat]; omega

@[simp] theorem toNat_lo8 (v : U16) : (lo8 v).toNat = v.toNat % 256 := by simp [lo8]

@[simp] theorem toNat_be16 (a b : Byte) : (be16 a b).toNat = a.toNat * 256 + b.toNat := by
  have := a.isLt
  have := b.isLt
  simp only [be16, BitVec.toNat_ofNat]; omega

/-- A u16 written as two bytes reads back as itself (R51, R54). -/
@[simp] theorem be16_hi8_lo8 (v : U16) : be16 (hi8 v) (lo8 v) = v :=
  BitVec.eq_of_toNat_eq (by simp only [toNat_be16, toNat_hi8, toNat_lo8]; omega)

@[simp] theorem hi8_be16 (a b : Byte) : hi8 (be16 a b) = a :=
  BitVec.eq_of_toNat_eq (by have := b.isLt; simp only [toNat_be16, toNat_hi8]; omega)

@[simp] theorem lo8_be16 (a b : Byte) : lo8 (be16 a b) = b :=
  BitVec.eq_of_toNat_eq (by have := b.isLt; simp only [toNat_be16, toNat_lo8]; omega)

@[simp] theorem beBytes_be16 (a b : Byte) : beBytes (be16 a b) = [a, b] := by simp [beBytes]

@[simp] theorem length_beBytes (v : U16) : (beBytes v).length = 2 := rfl

@[simp] theorem length_checksum (p : Params) (s : List Byte) : (checksum p s).length = 2 := rfl

@[simp] theorem length_withChecksum (p : Params) (s : List Byte) : (withChecksum p s).length = s.length + 2 := by
  simp [withChecksum]

/-- A sequence with its checksum appended passes the checksum check (R214). -/
@[simp] theorem checksumOk_withChecksum (p : Params) (s : List Byte) : checksumOk p (withChecksum p s) = true := by
  simp [checksumOk, withChecksum]

/-- A frame that passes the check is its own body with the checksum appended. -/
theorem withChecksum_of_checksumOk {p : Params} {F : List Byte} (h : checksumOk p F = true) :
    withChecksum p (F.take (F.length - 2)) = F := by
  rw [checksumOk, beq_iff_eq] at h
  rw [withChecksum, ← h, List.take_append_drop]

/-- The six fixed bytes of a frame. -/
theorem header_eq (p : Params) (i : Instr) :
    ∃ b2 b3 b4 b5, i.header p = [i.unit, i.fc p, b2, b3, b4, b5] := by
  cases i <;> exact ⟨_, _, _, _, rfl⟩

@[simp] theorem length_header (p : Params) (i : Instr) : (i.header p).length = 6 := by
  cases i <;> rfl

theorem length_encode (p : Params) (i : Instr) : (encode p i).length = 8 + i.tail.length := by
  simp [encode]; omega

/-- Byte 0 of a frame is the unit address, byte 1 the function code (R70). -/
theorem encode_getElem?_zero (p : Params) (i : Instr) : (encode p i)[0]? = some i.unit := by
  obtain ⟨_, _, _, _, h⟩ := header_eq p i
  simp [encode, withChecksum, h]

theorem encode_getElem?_one (p : Params) (i : Instr) : (encode p i)[1]? = some (i.fc p) := by
  obtain ⟨_, _, _, _, h⟩ := header_eq p i
  simp [encode, withChecksum, h]

/-- What the decoder's success means, with the frame taken apart (R71, R72, R121, R124). -/
theorem decode_ok_cases {p : Params} {F : List Byte} {i : Instr} (h : decode p F = .ok i) :
    ∃ u fc b2 b3 b4 b5 rest, F = u :: fc :: b2 :: b3 :: b4 :: b5 :: rest ∧ 2 ≤ rest.length ∧
      F.length ≤ p.rxCap ∧ checksumOk p F = true ∧
      i = decodeFields p u fc b2 b3 b4 b5 (rest.take (rest.length - 2)) := by
  unfold decode at h
  split at h
  next u fc b2 b3 b4 b5 rest =>
    split at h
    · cases h
    · split at h
      · cases h
      · split at h
        · cases h
          exact ⟨u, fc, b2, b3, b4, b5, rest, rfl, by omega, by omega, ‹_›, rfl⟩
        · cases h
  next => cases h

/-- The decoder succeeds on every frame that meets its three conditions. -/
theorem decode_of_valid {p : Params} {F : List Byte} (h8 : 8 ≤ F.length) (hc : F.length ≤ p.rxCap)
    (hs : checksumOk p F = true) : ∃ i, decode p F = .ok i := by
  match F, h8 with
  | u :: fc :: b2 :: b3 :: b4 :: b5 :: rest, h8 =>
    refine ⟨decodeFields p u fc b2 b3 b4 b5 (rest.take (rest.length - 2)), ?_⟩
    have h2 : ¬ rest.length < 2 := by simp only [List.length_cons] at h8; omega
    have hcap : ¬ p.rxCap < (u :: fc :: b2 :: b3 :: b4 :: b5 :: rest).length := by omega
    simp only [decode, if_neg h2, if_neg hcap, if_pos hs]

/-- The unit address of a decoded instruction is the frame's byte 0. -/
theorem unit_decodeFields (p : Params) (u fc b2 b3 b4 b5 : Byte) (x : List Byte) :
    (decodeFields p u fc b2 b3 b4 b5 x).unit = u := by
  unfold decodeFields; repeat' split
  all_goals rfl

theorem tail_decodeFields (p : Params) (u fc b2 b3 b4 b5 : Byte) (x : List Byte) :
    (decodeFields p u fc b2 b3 b4 b5 x).tail = x := by
  unfold decodeFields; repeat' split
  all_goals rfl

theorem fc_decodeFields (p : Params) (u fc b2 b3 b4 b5 : Byte) (x : List Byte) :
    (decodeFields p u fc b2 b3 b4 b5 x).fc p = fc := by
  unfold decodeFields; repeat' split
  all_goals simp_all [Instr.fc]

/-- The raw-transfer code is none of the eight standard codes (R74). -/
theorem fcRaw_not_standard (p : Params) : standardCodes.contains p.fcRaw = false := by
  have := p.legal
  simp only [paramsLegal, Bool.and_eq_true, Bool.not_eq_true'] at this
  exact this.2

end Sys2Proof
end

