-- ==== Sys2Proof/Laws/Memory.lean ====
section
/-! SUPPORT. Laws of the byte memories: a read after a write, the canonical form, the bounds, and runs of bytes. -/

namespace Sys2Proof.Machine

/-! ### One byte -/

/-- An entry at an address below all others decides the read there. -/
theorem Memory.read_of_lt {lo : Nat} {m : Memory} (h : m.wfFrom lo = true) {a : Nat} (ha : a < lo) :
    m.read a = unwrittenByte := by
  induction m generalizing lo with
  | nil => rfl
  | cons c m ih =>
    obtain ⟨k, b⟩ := c
    simp only [Memory.wfFrom, Bool.and_eq_true, decide_eq_true_eq] at h
    rw [Memory.read, if_neg (by omega)]
    exact ih h.2 (by omega)

theorem Memory.read_cons_self (m : Memory) (a : Nat) (v : Byte) (h : m.wfFrom (a + 1) = true) :
    (Memory.cons a v m).read a = v := by
  unfold Memory.cons
  split
  · rw [Memory.read_of_lt h (Nat.lt_succ_self a)]; exact Eq.symm ‹_›
  · simp [Memory.read]

theorem Memory.read_cons_other (m : Memory) {a x : Nat} (v : Byte) (h : x ≠ a) :
    (Memory.cons a v m).read x = m.read x := by
  unfold Memory.cons
  split
  · rfl
  · rw [Memory.read, if_neg (Ne.symm h)]

/-- A write leaves every other byte alone. -/
theorem Memory.read_write_other (m : Memory) {a x : Nat} (v : Byte) (h : x ≠ a) :
    (m.write a v).read x = m.read x := by
  induction m with
  | nil => exact Memory.read_cons_other [] v h
  | cons c m ih =>
    obtain ⟨k, b⟩ := c
    simp only [Memory.write]
    split
    · simp only [Memory.read]; split <;> simp_all
    · split
      · subst k; rw [Memory.read_cons_other _ _ h, Memory.read, if_neg (Ne.symm h)]
      · exact Memory.read_cons_other _ v h

theorem Memory.wfFrom_mono {lo lo' : Nat} {m : Memory} (h : m.wfFrom lo' = true) (hl : lo ≤ lo') :
    m.wfFrom lo = true := by
  cases m with
  | nil => rfl
  | cons c m =>
    simp only [Memory.wfFrom, Bool.and_eq_true, decide_eq_true_eq] at h ⊢
    exact ⟨⟨by omega, h.1.2⟩, h.2⟩

theorem Memory.wfFrom_cons {lo a : Nat} {v : Byte} {m : Memory} (h : m.wfFrom (a + 1) = true) (hl : lo ≤ a) :
    (Memory.cons a v m).wfFrom lo = true := by
  unfold Memory.cons
  split
  · exact Memory.wfFrom_mono h (by omega)
  · simp [Memory.wfFrom, h, hl, ‹¬ v = unwrittenByte›]

theorem Memory.wfFrom_write {lo : Nat} {m : Memory} (h : m.wfFrom lo = true) {a : Nat} (v : Byte) (hl : lo ≤ a) :
    (m.write a v).wfFrom lo = true := by
  induction m generalizing lo with
  | nil => exact Memory.wfFrom_cons rfl hl
  | cons c m ih =>
    obtain ⟨k, b⟩ := c
    have hc := h
    simp only [Memory.wfFrom, Bool.and_eq_true, decide_eq_true_eq] at h
    simp only [Memory.write]
    split
    · simp only [Memory.wfFrom, Bool.and_eq_true, decide_eq_true_eq]
      exact ⟨h.1, ih h.2 (by omega)⟩
    · split
      · subst k; exact Memory.wfFrom_cons h.2 hl
      · refine Memory.wfFrom_cons ?_ hl
        simp only [Memory.wfFrom, Bool.and_eq_true, decide_eq_true_eq]
        exact ⟨⟨by omega, h.1.2⟩, h.2⟩

/-- A write keeps the canonical form. -/
theorem Memory.wf_write {m : Memory} (h : m.wf = true) (a : Nat) (v : Byte) : (m.write a v).wf = true :=
  Memory.wfFrom_write h v (Nat.zero_le a)

theorem Memory.read_write_self_from {lo : Nat} {m : Memory} (h : m.wfFrom lo = true) (a : Nat) (v : Byte) :
    (m.write a v).read a = v := by
  induction m generalizing lo with
  | nil => exact Memory.read_cons_self [] a v rfl
  | cons c m ih =>
    obtain ⟨k, b⟩ := c
    simp only [Memory.wfFrom, Bool.and_eq_true, decide_eq_true_eq] at h
    simp only [Memory.write]
    split
    · rw [Memory.read, if_neg (by omega)]; exact ih h.2
    · split
      · subst k; exact Memory.read_cons_self _ _ _ h.2
      · refine Memory.read_cons_self _ _ _ ?_
        simp only [Memory.wfFrom, Bool.and_eq_true, decide_eq_true_eq]
        exact ⟨⟨by omega, h.1.2⟩, h.2⟩

/-- A read after a write to the same place gives the value written. -/
theorem Memory.read_write_self {m : Memory} (h : m.wf = true) (a : Nat) (v : Byte) : (m.write a v).read a = v :=
  Memory.read_write_self_from h a v

/-- A read after a write, in one equation. -/
theorem Memory.read_write {m : Memory} (h : m.wf = true) (a x : Nat) (v : Byte) :
    (m.write a v).read x = if x = a then v else m.read x := by
  split
  · subst x; exact Memory.read_write_self h a v
  · exact Memory.read_write_other m v ‹_›

theorem Memory.within_cons {cap a : Nat} {v : Byte} {m : Memory} (h : m.within cap = true) (ha : a < cap) :
    (Memory.cons a v m).within cap = true := by
  unfold Memory.cons
  split
  · exact h
  · simp [Memory.within, h, ha]

/-- A write inside the buffer keeps the memory inside it. -/
theorem Memory.within_write {cap : Nat} {m : Memory} (h : m.within cap = true) {a : Nat} (v : Byte) (ha : a < cap) :
    (m.write a v).within cap = true := by
  induction m with
  | nil => exact Memory.within_cons rfl ha
  | cons c m ih =>
    obtain ⟨k, b⟩ := c
    have hc := h
    simp only [Memory.within, Bool.and_eq_true, decide_eq_true_eq] at h
    simp only [Memory.write]
    split
    · simp only [Memory.within, Bool.and_eq_true, decide_eq_true_eq]; exact ⟨h.1, ih h.2⟩
    · split
      · exact Memory.within_cons h.2 ha
      · exact Memory.within_cons hc ha

/-! ### Runs of bytes -/

@[simp] theorem Memory.length_readRun (m : Memory) (a n : Nat) : (m.readRun a n).length = n := by
  induction n generalizing a with
  | zero => rfl
  | succ n ih => simp [Memory.readRun, ih]

theorem Memory.getElem?_readRun (m : Memory) (a n k : Nat) :
    (m.readRun a n)[k]? = if k < n then some (m.read (a + k)) else none := by
  induction n generalizing a k with
  | zero => simp [Memory.readRun]
  | succ n ih =>
    cases k with
    | zero => simp [Memory.readRun]
    | succ k => simp [Memory.readRun, ih, Nat.add_assoc, Nat.add_comm 1 k]

/-- Two runs are equal when their bytes are. -/
theorem Memory.readRun_congr {m m' : Memory} {a a' n : Nat} (h : ∀ k < n, m.read (a + k) = m'.read (a' + k)) :
    m.readRun a n = m'.readRun a' n := by
  apply List.ext_getElem?
  intro k
  simp only [Memory.getElem?_readRun]
  split
  · rw [h k ‹_›]
  · rfl

/-- A run is the list its bytes spell. -/
theorem Memory.readRun_eq_of_getElem? {m : Memory} {a : Nat} {l : List Byte}
    (h : ∀ k < l.length, l[k]? = some (m.read (a + k))) : m.readRun a l.length = l := by
  apply List.ext_getElem?
  intro k
  rw [Memory.getElem?_readRun]
  split
  · exact (h k ‹_›).symm
  · exact (List.getElem?_eq_none (by omega)).symm

theorem Memory.readRun_append (m : Memory) (a n k : Nat) :
    m.readRun a (n + k) = m.readRun a n ++ m.readRun (a + n) k := by
  induction n generalizing a with
  | zero => simp [Memory.readRun]
  | succ n ih =>
    have : n + 1 + k = (n + k) + 1 := by omega
    rw [this, Memory.readRun, Memory.readRun, ih, List.cons_append, Nat.add_assoc, Nat.add_comm 1 n]

theorem Memory.wf_writeRun {m : Memory} (h : m.wf = true) (a : Nat) (l : List Byte) : (m.writeRun a l).wf = true := by
  induction l generalizing m a with
  | nil => exact h
  | cons b l ih => exact ih (Memory.wf_write h a b) (a + 1)

theorem Memory.within_writeRun {cap : Nat} {m : Memory} (h : m.within cap = true) {a : Nat} {l : List Byte}
    (ha : a + l.length ≤ cap) : (m.writeRun a l).within cap = true := by
  induction l generalizing m a with
  | nil => exact h
  | cons b l ih =>
    rw [List.length_cons] at ha
    exact ih (Memory.within_write h b (by omega)) (by omega)

/-- A run written leaves every byte outside it alone. -/
theorem Memory.read_writeRun_outside (m : Memory) {a x : Nat} {l : List Byte} (h : x < a ∨ a + l.length ≤ x) :
    (m.writeRun a l).read x = m.read x := by
  induction l generalizing m a with
  | nil => rfl
  | cons b l ih =>
    rw [List.length_cons] at h
    rw [Memory.writeRun, ih _ (by omega), Memory.read_write_other _ _ (by omega)]

/-- A byte inside a run written reads as the run spells it. -/
theorem Memory.read_writeRun_inside {m : Memory} (hm : m.wf = true) {a k : Nat} {l : List Byte} (h : k < l.length) :
    (m.writeRun a l).read (a + k) = l[k] := by
  induction l generalizing m a k with
  | nil => simp at h
  | cons b l ih =>
    rw [Memory.writeRun]
    cases k with
    | zero =>
      rw [Memory.read_writeRun_outside _ (by omega), Nat.add_zero, Memory.read_write_self hm]; rfl
    | succ k =>
      have := ih (Memory.wf_write hm a b) (a := a + 1) (k := k) (by simpa using h)
      rw [show a + (k + 1) = a + 1 + k by omega, this]; rfl

/-- A run read back is the run written. -/
theorem Memory.readRun_writeRun {m : Memory} (hm : m.wf = true) (a : Nat) (l : List Byte) :
    (m.writeRun a l).readRun a l.length = l :=
  Memory.readRun_eq_of_getElem? fun k hk => by
    rw [Memory.read_writeRun_inside hm hk, List.getElem?_eq_getElem hk]

/-! ### Bits of a byte -/

theorem getLsbD_setBit (x : Byte) {k j : Nat} (hk : k < 8) (b : Bool) :
    (setBit x k b).getLsbD j = if j = k then b else x.getLsbD j := by
  by_cases hj : j < 8
  · cases b
    · simp only [setBit, Bool.false_eq_true, if_false, BitVec.getLsbD_and, BitVec.getLsbD_not, hj, decide_true,
        Bool.true_and, BitVec.getLsbD_shiftLeft, BitVec.getLsbD_one]
      split <;> simp_all <;> omega
    · simp only [setBit, if_true, BitVec.getLsbD_or, hj, decide_true, Bool.true_and, BitVec.getLsbD_shiftLeft,
        BitVec.getLsbD_one]
      split <;> simp_all <;> omega
  · simp [BitVec.getLsbD_of_ge _ _ (by omega : 8 ≤ j)]
    omega

end Sys2Proof.Machine
end

