-- ==== Sys2Proof/Laws/State.lean ====
section
/-! SUPPORT. What each basic update of the state does to each field, one lemma per field per update. -/

namespace Sys2Proof.Machine

-- one theorem at a time: hundreds of small ones at once can exceed the thread memory a check allows
set_option Elab.async false

variable (s : State)

/-! ### emit -/

@[simp] theorem emit_configured (e : PortEvent) : (emit e s).configured = s.configured := rfl
@[simp] theorem emit_cfgUnit (e : PortEvent) : (emit e s).cfgUnit = s.cfgUnit := rfl
@[simp] theorem emit_cfgThresh (e : PortEvent) : (emit e s).cfgThresh = s.cfgThresh := rfl
@[simp] theorem emit_cfgDir (e : PortEvent) : (emit e s).cfgDir = s.cfgDir := rfl
@[simp] theorem emit_cfgCb (e : PortEvent) : (emit e s).cfgCb = s.cfgCb := rfl
@[simp] theorem emit_obsCount (e : PortEvent) : (emit e s).obsCount = s.obsCount := rfl
@[simp] theorem emit_obsTime (e : PortEvent) : (emit e s).obsTime = s.obsTime := rfl
@[simp] theorem emit_rxBuf (e : PortEvent) : (emit e s).rxBuf = s.rxBuf := rfl
@[simp] theorem emit_rxLen (e : PortEvent) : (emit e s).rxLen = s.rxLen := rfl
@[simp] theorem emit_txBuf (e : PortEvent) : (emit e s).txBuf = s.txBuf := rfl
@[simp] theorem emit_plen (e : PortEvent) : (emit e s).plen = s.plen := rfl
@[simp] theorem emit_bkind (e : PortEvent) : (emit e s).bkind = s.bkind := rfl
@[simp] theorem emit_bcap (e : PortEvent) : (emit e s).bcap = s.bcap := rfl
@[simp] theorem emit_dofs (e : PortEvent) : (emit e s).dofs = s.dofs := rfl
@[simp] theorem emit_dlen (e : PortEvent) : (emit e s).dlen = s.dlen := rfl
@[simp] theorem emit_wofs (e : PortEvent) : (emit e s).wofs = s.wofs := rfl
@[simp] theorem emit_dirLine (e : PortEvent) : (emit e s).dirLine = s.dirLine := rfl
@[simp] theorem emit_req (e : PortEvent) : (emit e s).req = s.req := rfl
@[simp] theorem emit_status (e : PortEvent) : (emit e s).status = s.status := rfl
@[simp] theorem emit_phase (e : PortEvent) : (emit e s).phase = s.phase := rfl
@[simp] theorem emit_inProcess (e : PortEvent) : (emit e s).inProcess = s.inProcess := rfl
@[simp] theorem emit_phasePath (e : PortEvent) : (emit e s).phasePath = s.phasePath := rfl
@[simp] theorem emit_marks (e : PortEvent) : (emit e s).marks = s.marks := rfl
@[simp] theorem emit_trace (e : PortEvent) : (emit e s).trace = s.trace ++ [e] := rfl
@[simp] theorem emit_params (e : PortEvent) : (emit e s).params = s.params := rfl
@[simp] theorem emit_rxQueue (e : PortEvent) : (emit e s).rxQueue = s.rxQueue := rfl
@[simp] theorem emit_env (e : PortEvent) : (emit e s).env = s.env := rfl
@[simp] theorem emit_host (e : PortEvent) : (emit e s).host = s.host := rfl

/-! ### enter -/

@[simp] theorem enter_configured (p : Phase) : (enter p s).configured = s.configured := rfl
@[simp] theorem enter_cfgUnit (p : Phase) : (enter p s).cfgUnit = s.cfgUnit := rfl
@[simp] theorem enter_cfgThresh (p : Phase) : (enter p s).cfgThresh = s.cfgThresh := rfl
@[simp] theorem enter_cfgDir (p : Phase) : (enter p s).cfgDir = s.cfgDir := rfl
@[simp] theorem enter_cfgCb (p : Phase) : (enter p s).cfgCb = s.cfgCb := rfl
@[simp] theorem enter_obsCount (p : Phase) : (enter p s).obsCount = s.obsCount := rfl
@[simp] theorem enter_obsTime (p : Phase) : (enter p s).obsTime = s.obsTime := rfl
@[simp] theorem enter_rxBuf (p : Phase) : (enter p s).rxBuf = s.rxBuf := rfl
@[simp] theorem enter_rxLen (p : Phase) : (enter p s).rxLen = s.rxLen := rfl
@[simp] theorem enter_txBuf (p : Phase) : (enter p s).txBuf = s.txBuf := rfl
@[simp] theorem enter_plen (p : Phase) : (enter p s).plen = s.plen := rfl
@[simp] theorem enter_bkind (p : Phase) : (enter p s).bkind = s.bkind := rfl
@[simp] theorem enter_bcap (p : Phase) : (enter p s).bcap = s.bcap := rfl
@[simp] theorem enter_dofs (p : Phase) : (enter p s).dofs = s.dofs := rfl
@[simp] theorem enter_dlen (p : Phase) : (enter p s).dlen = s.dlen := rfl
@[simp] theorem enter_wofs (p : Phase) : (enter p s).wofs = s.wofs := rfl
@[simp] theorem enter_dirLine (p : Phase) : (enter p s).dirLine = s.dirLine := rfl
@[simp] theorem enter_req (p : Phase) : (enter p s).req = s.req := rfl
@[simp] theorem enter_status (p : Phase) : (enter p s).status = s.status := rfl
@[simp] theorem enter_phase (p : Phase) : (enter p s).phase = p := rfl
@[simp] theorem enter_inProcess (p : Phase) : (enter p s).inProcess = s.inProcess := rfl
@[simp] theorem enter_phasePath (p : Phase) : (enter p s).phasePath = s.phasePath ++ [p] := rfl
@[simp] theorem enter_marks (p : Phase) : (enter p s).marks = s.marks := rfl
@[simp] theorem enter_trace (p : Phase) : (enter p s).trace = s.trace := rfl
@[simp] theorem enter_params (p : Phase) : (enter p s).params = s.params := rfl
@[simp] theorem enter_rxQueue (p : Phase) : (enter p s).rxQueue = s.rxQueue := rfl
@[simp] theorem enter_env (p : Phase) : (enter p s).env = s.env := rfl
@[simp] theorem enter_host (p : Phase) : (enter p s).host = s.host := rfl

/-! ### setStatus -/

@[simp] theorem setStatus_configured (st : Status) : (setStatus st s).configured = s.configured := rfl
@[simp] theorem setStatus_cfgUnit (st : Status) : (setStatus st s).cfgUnit = s.cfgUnit := rfl
@[simp] theorem setStatus_cfgThresh (st : Status) : (setStatus st s).cfgThresh = s.cfgThresh := rfl
@[simp] theorem setStatus_cfgDir (st : Status) : (setStatus st s).cfgDir = s.cfgDir := rfl
@[simp] theorem setStatus_cfgCb (st : Status) : (setStatus st s).cfgCb = s.cfgCb := rfl
@[simp] theorem setStatus_obsCount (st : Status) : (setStatus st s).obsCount = s.obsCount := rfl
@[simp] theorem setStatus_obsTime (st : Status) : (setStatus st s).obsTime = s.obsTime := rfl
@[simp] theorem setStatus_rxBuf (st : Status) : (setStatus st s).rxBuf = s.rxBuf := rfl
@[simp] theorem setStatus_rxLen (st : Status) : (setStatus st s).rxLen = s.rxLen := rfl
@[simp] theorem setStatus_txBuf (st : Status) : (setStatus st s).txBuf = s.txBuf := rfl
@[simp] theorem setStatus_plen (st : Status) : (setStatus st s).plen = s.plen := rfl
@[simp] theorem setStatus_bkind (st : Status) : (setStatus st s).bkind = s.bkind := rfl
@[simp] theorem setStatus_bcap (st : Status) : (setStatus st s).bcap = s.bcap := rfl
@[simp] theorem setStatus_dofs (st : Status) : (setStatus st s).dofs = s.dofs := rfl
@[simp] theorem setStatus_dlen (st : Status) : (setStatus st s).dlen = s.dlen := rfl
@[simp] theorem setStatus_wofs (st : Status) : (setStatus st s).wofs = s.wofs := rfl
@[simp] theorem setStatus_dirLine (st : Status) : (setStatus st s).dirLine = s.dirLine := rfl
@[simp] theorem setStatus_req (st : Status) : (setStatus st s).req = s.req := rfl
@[simp] theorem setStatus_status (st : Status) : (setStatus st s).status = some st := rfl
@[simp] theorem setStatus_phase (st : Status) : (setStatus st s).phase = s.phase := rfl
@[simp] theorem setStatus_inProcess (st : Status) : (setStatus st s).inProcess = s.inProcess := rfl
@[simp] theorem setStatus_phasePath (st : Status) : (setStatus st s).phasePath = s.phasePath := rfl
@[simp] theorem setStatus_marks (st : Status) : (setStatus st s).marks = s.marks := rfl
@[simp] theorem setStatus_trace (st : Status) : (setStatus st s).trace = s.trace := rfl
@[simp] theorem setStatus_params (st : Status) : (setStatus st s).params = s.params := rfl
@[simp] theorem setStatus_rxQueue (st : Status) : (setStatus st s).rxQueue = s.rxQueue := rfl
@[simp] theorem setStatus_env (st : Status) : (setStatus st s).env = s.env := rfl
@[simp] theorem setStatus_host (st : Status) : (setStatus st s).host = s.host := rfl

/-! ### markFault -/

@[simp] theorem markFault_configured (m : Mark) : (markFault m s).configured = s.configured := rfl
@[simp] theorem markFault_cfgUnit (m : Mark) : (markFault m s).cfgUnit = s.cfgUnit := rfl
@[simp] theorem markFault_cfgThresh (m : Mark) : (markFault m s).cfgThresh = s.cfgThresh := rfl
@[simp] theorem markFault_cfgDir (m : Mark) : (markFault m s).cfgDir = s.cfgDir := rfl
@[simp] theorem markFault_cfgCb (m : Mark) : (markFault m s).cfgCb = s.cfgCb := rfl
@[simp] theorem markFault_obsCount (m : Mark) : (markFault m s).obsCount = s.obsCount := rfl
@[simp] theorem markFault_obsTime (m : Mark) : (markFault m s).obsTime = s.obsTime := rfl
@[simp] theorem markFault_rxBuf (m : Mark) : (markFault m s).rxBuf = s.rxBuf := rfl
@[simp] theorem markFault_rxLen (m : Mark) : (markFault m s).rxLen = s.rxLen := rfl
@[simp] theorem markFault_txBuf (m : Mark) : (markFault m s).txBuf = s.txBuf := rfl
@[simp] theorem markFault_plen (m : Mark) : (markFault m s).plen = s.plen := rfl
@[simp] theorem markFault_bkind (m : Mark) : (markFault m s).bkind = s.bkind := rfl
@[simp] theorem markFault_bcap (m : Mark) : (markFault m s).bcap = s.bcap := rfl
@[simp] theorem markFault_dofs (m : Mark) : (markFault m s).dofs = s.dofs := rfl
@[simp] theorem markFault_dlen (m : Mark) : (markFault m s).dlen = s.dlen := rfl
@[simp] theorem markFault_wofs (m : Mark) : (markFault m s).wofs = s.wofs := rfl
@[simp] theorem markFault_dirLine (m : Mark) : (markFault m s).dirLine = s.dirLine := rfl
@[simp] theorem markFault_req (m : Mark) : (markFault m s).req = s.req := rfl
@[simp] theorem markFault_status (m : Mark) : (markFault m s).status = s.status := rfl
@[simp] theorem markFault_phase (m : Mark) : (markFault m s).phase = s.phase := rfl
@[simp] theorem markFault_inProcess (m : Mark) : (markFault m s).inProcess = s.inProcess := rfl
@[simp] theorem markFault_phasePath (m : Mark) : (markFault m s).phasePath = s.phasePath := rfl
@[simp] theorem markFault_marks (m : Mark) : (markFault m s).marks = Marks.add m s.marks := rfl
@[simp] theorem markFault_trace (m : Mark) : (markFault m s).trace = s.trace := rfl
@[simp] theorem markFault_params (m : Mark) : (markFault m s).params = s.params := rfl
@[simp] theorem markFault_rxQueue (m : Mark) : (markFault m s).rxQueue = s.rxQueue := rfl
@[simp] theorem markFault_env (m : Mark) : (markFault m s).env = s.env := rfl
@[simp] theorem markFault_host (m : Mark) : (markFault m s).host = s.host := rfl

/-! ### writeTx -/

@[simp] theorem writeTx_configured (a : Nat) (b : Byte) : (writeTx a b s).configured = s.configured := rfl
@[simp] theorem writeTx_cfgUnit (a : Nat) (b : Byte) : (writeTx a b s).cfgUnit = s.cfgUnit := rfl
@[simp] theorem writeTx_cfgThresh (a : Nat) (b : Byte) : (writeTx a b s).cfgThresh = s.cfgThresh := rfl
@[simp] theorem writeTx_cfgDir (a : Nat) (b : Byte) : (writeTx a b s).cfgDir = s.cfgDir := rfl
@[simp] theorem writeTx_cfgCb (a : Nat) (b : Byte) : (writeTx a b s).cfgCb = s.cfgCb := rfl
@[simp] theorem writeTx_obsCount (a : Nat) (b : Byte) : (writeTx a b s).obsCount = s.obsCount := rfl
@[simp] theorem writeTx_obsTime (a : Nat) (b : Byte) : (writeTx a b s).obsTime = s.obsTime := rfl
@[simp] theorem writeTx_rxBuf (a : Nat) (b : Byte) : (writeTx a b s).rxBuf = s.rxBuf := rfl
@[simp] theorem writeTx_rxLen (a : Nat) (b : Byte) : (writeTx a b s).rxLen = s.rxLen := rfl
@[simp] theorem writeTx_txBuf (a : Nat) (b : Byte) : (writeTx a b s).txBuf = s.txBuf.write a b := rfl
@[simp] theorem writeTx_plen (a : Nat) (b : Byte) : (writeTx a b s).plen = s.plen := rfl
@[simp] theorem writeTx_bkind (a : Nat) (b : Byte) : (writeTx a b s).bkind = s.bkind := rfl
@[simp] theorem writeTx_bcap (a : Nat) (b : Byte) : (writeTx a b s).bcap = s.bcap := rfl
@[simp] theorem writeTx_dofs (a : Nat) (b : Byte) : (writeTx a b s).dofs = s.dofs := rfl
@[simp] theorem writeTx_dlen (a : Nat) (b : Byte) : (writeTx a b s).dlen = s.dlen := rfl
@[simp] theorem writeTx_wofs (a : Nat) (b : Byte) : (writeTx a b s).wofs = s.wofs := rfl
@[simp] theorem writeTx_dirLine (a : Nat) (b : Byte) : (writeTx a b s).dirLine = s.dirLine := rfl
@[simp] theorem writeTx_req (a : Nat) (b : Byte) : (writeTx a b s).req = s.req := rfl
@[simp] theorem writeTx_status (a : Nat) (b : Byte) : (writeTx a b s).status = s.status := rfl
@[simp] theorem writeTx_phase (a : Nat) (b : Byte) : (writeTx a b s).phase = s.phase := rfl
@[simp] theorem writeTx_inProcess (a : Nat) (b : Byte) : (writeTx a b s).inProcess = s.inProcess := rfl
@[simp] theorem writeTx_phasePath (a : Nat) (b : Byte) : (writeTx a b s).phasePath = s.phasePath := rfl
@[simp] theorem writeTx_marks (a : Nat) (b : Byte) : (writeTx a b s).marks = s.marks := rfl
@[simp] theorem writeTx_trace (a : Nat) (b : Byte) : (writeTx a b s).trace = s.trace := rfl
@[simp] theorem writeTx_params (a : Nat) (b : Byte) : (writeTx a b s).params = s.params := rfl
@[simp] theorem writeTx_rxQueue (a : Nat) (b : Byte) : (writeTx a b s).rxQueue = s.rxQueue := rfl
@[simp] theorem writeTx_env (a : Nat) (b : Byte) : (writeTx a b s).env = s.env := rfl
@[simp] theorem writeTx_host (a : Nat) (b : Byte) : (writeTx a b s).host = s.host := rfl

/-! ### writeTxRun -/

@[simp] theorem writeTxRun_configured (a : Nat) (bs : List Byte) : (writeTxRun a bs s).configured = s.configured := rfl
@[simp] theorem writeTxRun_cfgUnit (a : Nat) (bs : List Byte) : (writeTxRun a bs s).cfgUnit = s.cfgUnit := rfl
@[simp] theorem writeTxRun_cfgThresh (a : Nat) (bs : List Byte) : (writeTxRun a bs s).cfgThresh = s.cfgThresh := rfl
@[simp] theorem writeTxRun_cfgDir (a : Nat) (bs : List Byte) : (writeTxRun a bs s).cfgDir = s.cfgDir := rfl
@[simp] theorem writeTxRun_cfgCb (a : Nat) (bs : List Byte) : (writeTxRun a bs s).cfgCb = s.cfgCb := rfl
@[simp] theorem writeTxRun_obsCount (a : Nat) (bs : List Byte) : (writeTxRun a bs s).obsCount = s.obsCount := rfl
@[simp] theorem writeTxRun_obsTime (a : Nat) (bs : List Byte) : (writeTxRun a bs s).obsTime = s.obsTime := rfl
@[simp] theorem writeTxRun_rxBuf (a : Nat) (bs : List Byte) : (writeTxRun a bs s).rxBuf = s.rxBuf := rfl
@[simp] theorem writeTxRun_rxLen (a : Nat) (bs : List Byte) : (writeTxRun a bs s).rxLen = s.rxLen := rfl
@[simp] theorem writeTxRun_txBuf (a : Nat) (bs : List Byte) : (writeTxRun a bs s).txBuf = s.txBuf.writeRun a bs := rfl
@[simp] theorem writeTxRun_plen (a : Nat) (bs : List Byte) : (writeTxRun a bs s).plen = s.plen := rfl
@[simp] theorem writeTxRun_bkind (a : Nat) (bs : List Byte) : (writeTxRun a bs s).bkind = s.bkind := rfl
@[simp] theorem writeTxRun_bcap (a : Nat) (bs : List Byte) : (writeTxRun a bs s).bcap = s.bcap := rfl
@[simp] theorem writeTxRun_dofs (a : Nat) (bs : List Byte) : (writeTxRun a bs s).dofs = s.dofs := rfl
@[simp] theorem writeTxRun_dlen (a : Nat) (bs : List Byte) : (writeTxRun a bs s).dlen = s.dlen := rfl
@[simp] theorem writeTxRun_wofs (a : Nat) (bs : List Byte) : (writeTxRun a bs s).wofs = s.wofs := rfl
@[simp] theorem writeTxRun_dirLine (a : Nat) (bs : List Byte) : (writeTxRun a bs s).dirLine = s.dirLine := rfl
@[simp] theorem writeTxRun_req (a : Nat) (bs : List Byte) : (writeTxRun a bs s).req = s.req := rfl
@[simp] theorem writeTxRun_status (a : Nat) (bs : List Byte) : (writeTxRun a bs s).status = s.status := rfl
@[simp] theorem writeTxRun_phase (a : Nat) (bs : List Byte) : (writeTxRun a bs s).phase = s.phase := rfl
@[simp] theorem writeTxRun_inProcess (a : Nat) (bs : List Byte) : (writeTxRun a bs s).inProcess = s.inProcess := rfl
@[simp] theorem writeTxRun_phasePath (a : Nat) (bs : List Byte) : (writeTxRun a bs s).phasePath = s.phasePath := rfl
@[simp] theorem writeTxRun_marks (a : Nat) (bs : List Byte) : (writeTxRun a bs s).marks = s.marks := rfl
@[simp] theorem writeTxRun_trace (a : Nat) (bs : List Byte) : (writeTxRun a bs s).trace = s.trace := rfl
@[simp] theorem writeTxRun_params (a : Nat) (bs : List Byte) : (writeTxRun a bs s).params = s.params := rfl
@[simp] theorem writeTxRun_rxQueue (a : Nat) (bs : List Byte) : (writeTxRun a bs s).rxQueue = s.rxQueue := rfl
@[simp] theorem writeTxRun_env (a : Nat) (bs : List Byte) : (writeTxRun a bs s).env = s.env := rfl
@[simp] theorem writeTxRun_host (a : Nat) (bs : List Byte) : (writeTxRun a bs s).host = s.host := rfl

/-! ### beginDecode -/

@[simp] theorem beginDecode_configured (u fc : Byte) (r : U16) : (beginDecode u fc r s).configured = s.configured := rfl
@[simp] theorem beginDecode_cfgUnit (u fc : Byte) (r : U16) : (beginDecode u fc r s).cfgUnit = s.cfgUnit := rfl
@[simp] theorem beginDecode_cfgThresh (u fc : Byte) (r : U16) : (beginDecode u fc r s).cfgThresh = s.cfgThresh := rfl
@[simp] theorem beginDecode_cfgDir (u fc : Byte) (r : U16) : (beginDecode u fc r s).cfgDir = s.cfgDir := rfl
@[simp] theorem beginDecode_cfgCb (u fc : Byte) (r : U16) : (beginDecode u fc r s).cfgCb = s.cfgCb := rfl
@[simp] theorem beginDecode_obsCount (u fc : Byte) (r : U16) : (beginDecode u fc r s).obsCount = s.obsCount := rfl
@[simp] theorem beginDecode_obsTime (u fc : Byte) (r : U16) : (beginDecode u fc r s).obsTime = s.obsTime := rfl
@[simp] theorem beginDecode_rxBuf (u fc : Byte) (r : U16) : (beginDecode u fc r s).rxBuf = s.rxBuf := rfl
@[simp] theorem beginDecode_rxLen (u fc : Byte) (r : U16) : (beginDecode u fc r s).rxLen = s.rxLen := rfl
@[simp] theorem beginDecode_txBuf (u fc : Byte) (r : U16) : (beginDecode u fc r s).txBuf = s.txBuf := rfl
@[simp] theorem beginDecode_plen (u fc : Byte) (r : U16) : (beginDecode u fc r s).plen = 0 := rfl
@[simp] theorem beginDecode_bkind (u fc : Byte) (r : U16) : (beginDecode u fc r s).bkind = .none := rfl
@[simp] theorem beginDecode_bcap (u fc : Byte) (r : U16) : (beginDecode u fc r s).bcap = 0 := rfl
@[simp] theorem beginDecode_dofs (u fc : Byte) (r : U16) : (beginDecode u fc r s).dofs = 2 := rfl
@[simp] theorem beginDecode_dlen (u fc : Byte) (r : U16) : (beginDecode u fc r s).dlen = 0 := rfl
@[simp] theorem beginDecode_wofs (u fc : Byte) (r : U16) : (beginDecode u fc r s).wofs = 0 := rfl
@[simp] theorem beginDecode_dirLine (u fc : Byte) (r : U16) : (beginDecode u fc r s).dirLine = s.dirLine := rfl
@[simp] theorem beginDecode_req (u fc : Byte) (r : U16) : (beginDecode u fc r s).req = some ⟨u, fc, r, 0, 0, 0⟩ := rfl
@[simp] theorem beginDecode_status (u fc : Byte) (r : U16) : (beginDecode u fc r s).status = s.status := rfl
@[simp] theorem beginDecode_phase (u fc : Byte) (r : U16) : (beginDecode u fc r s).phase = s.phase := rfl
@[simp] theorem beginDecode_inProcess (u fc : Byte) (r : U16) : (beginDecode u fc r s).inProcess = s.inProcess := rfl
@[simp] theorem beginDecode_phasePath (u fc : Byte) (r : U16) : (beginDecode u fc r s).phasePath = s.phasePath := rfl
@[simp] theorem beginDecode_marks (u fc : Byte) (r : U16) : (beginDecode u fc r s).marks = s.marks := rfl
@[simp] theorem beginDecode_trace (u fc : Byte) (r : U16) : (beginDecode u fc r s).trace = s.trace := rfl
@[simp] theorem beginDecode_params (u fc : Byte) (r : U16) : (beginDecode u fc r s).params = s.params := rfl
@[simp] theorem beginDecode_rxQueue (u fc : Byte) (r : U16) : (beginDecode u fc r s).rxQueue = s.rxQueue := rfl
@[simp] theorem beginDecode_env (u fc : Byte) (r : U16) : (beginDecode u fc r s).env = s.env := rfl
@[simp] theorem beginDecode_host (u fc : Byte) (r : U16) : (beginDecode u fc r s).host = s.host := rfl

/-! ### setRequest -/

@[simp] theorem setRequest_configured (q o l : Nat) : (setRequest q o l s).configured = s.configured := rfl
@[simp] theorem setRequest_cfgUnit (q o l : Nat) : (setRequest q o l s).cfgUnit = s.cfgUnit := rfl
@[simp] theorem setRequest_cfgThresh (q o l : Nat) : (setRequest q o l s).cfgThresh = s.cfgThresh := rfl
@[simp] theorem setRequest_cfgDir (q o l : Nat) : (setRequest q o l s).cfgDir = s.cfgDir := rfl
@[simp] theorem setRequest_cfgCb (q o l : Nat) : (setRequest q o l s).cfgCb = s.cfgCb := rfl
@[simp] theorem setRequest_obsCount (q o l : Nat) : (setRequest q o l s).obsCount = s.obsCount := rfl
@[simp] theorem setRequest_obsTime (q o l : Nat) : (setRequest q o l s).obsTime = s.obsTime := rfl
@[simp] theorem setRequest_rxBuf (q o l : Nat) : (setRequest q o l s).rxBuf = s.rxBuf := rfl
@[simp] theorem setRequest_rxLen (q o l : Nat) : (setRequest q o l s).rxLen = s.rxLen := rfl
@[simp] theorem setRequest_txBuf (q o l : Nat) : (setRequest q o l s).txBuf = s.txBuf := rfl
@[simp] theorem setRequest_plen (q o l : Nat) : (setRequest q o l s).plen = s.plen := rfl
@[simp] theorem setRequest_bkind (q o l : Nat) : (setRequest q o l s).bkind = s.bkind := rfl
@[simp] theorem setRequest_bcap (q o l : Nat) : (setRequest q o l s).bcap = s.bcap := rfl
@[simp] theorem setRequest_dofs (q o l : Nat) : (setRequest q o l s).dofs = s.dofs := rfl
@[simp] theorem setRequest_dlen (q o l : Nat) : (setRequest q o l s).dlen = s.dlen := rfl
@[simp] theorem setRequest_wofs (q o l : Nat) : (setRequest q o l s).wofs = s.wofs := rfl
@[simp] theorem setRequest_dirLine (q o l : Nat) : (setRequest q o l s).dirLine = s.dirLine := rfl
@[simp] theorem setRequest_req (q o l : Nat) : (setRequest q o l s).req = some { curReq s with qty := q, viewOff := o, viewLen := l } := rfl
@[simp] theorem setRequest_status (q o l : Nat) : (setRequest q o l s).status = s.status := rfl
@[simp] theorem setRequest_phase (q o l : Nat) : (setRequest q o l s).phase = s.phase := rfl
@[simp] theorem setRequest_inProcess (q o l : Nat) : (setRequest q o l s).inProcess = s.inProcess := rfl
@[simp] theorem setRequest_phasePath (q o l : Nat) : (setRequest q o l s).phasePath = s.phasePath := rfl
@[simp] theorem setRequest_marks (q o l : Nat) : (setRequest q o l s).marks = s.marks := rfl
@[simp] theorem setRequest_trace (q o l : Nat) : (setRequest q o l s).trace = s.trace := rfl
@[simp] theorem setRequest_params (q o l : Nat) : (setRequest q o l s).params = s.params := rfl
@[simp] theorem setRequest_rxQueue (q o l : Nat) : (setRequest q o l s).rxQueue = s.rxQueue := rfl
@[simp] theorem setRequest_env (q o l : Nat) : (setRequest q o l s).env = s.env := rfl
@[simp] theorem setRequest_host (q o l : Nat) : (setRequest q o l s).host = s.host := rfl

/-! ### setBuilder -/

@[simp] theorem setBuilder_configured (p : Nat) (k : BuilderKind) (c o l : Nat) : (setBuilder p k c o l s).configured = s.configured := rfl
@[simp] theorem setBuilder_cfgUnit (p : Nat) (k : BuilderKind) (c o l : Nat) : (setBuilder p k c o l s).cfgUnit = s.cfgUnit := rfl
@[simp] theorem setBuilder_cfgThresh (p : Nat) (k : BuilderKind) (c o l : Nat) : (setBuilder p k c o l s).cfgThresh = s.cfgThresh := rfl
@[simp] theorem setBuilder_cfgDir (p : Nat) (k : BuilderKind) (c o l : Nat) : (setBuilder p k c o l s).cfgDir = s.cfgDir := rfl
@[simp] theorem setBuilder_cfgCb (p : Nat) (k : BuilderKind) (c o l : Nat) : (setBuilder p k c o l s).cfgCb = s.cfgCb := rfl
@[simp] theorem setBuilder_obsCount (p : Nat) (k : BuilderKind) (c o l : Nat) : (setBuilder p k c o l s).obsCount = s.obsCount := rfl
@[simp] theorem setBuilder_obsTime (p : Nat) (k : BuilderKind) (c o l : Nat) : (setBuilder p k c o l s).obsTime = s.obsTime := rfl
@[simp] theorem setBuilder_rxBuf (p : Nat) (k : BuilderKind) (c o l : Nat) : (setBuilder p k c o l s).rxBuf = s.rxBuf := rfl
@[simp] theorem setBuilder_rxLen (p : Nat) (k : BuilderKind) (c o l : Nat) : (setBuilder p k c o l s).rxLen = s.rxLen := rfl
@[simp] theorem setBuilder_txBuf (p : Nat) (k : BuilderKind) (c o l : Nat) : (setBuilder p k c o l s).txBuf = s.txBuf := rfl
@[simp] theorem setBuilder_plen (p : Nat) (k : BuilderKind) (c o l : Nat) : (setBuilder p k c o l s).plen = p := rfl
@[simp] theorem setBuilder_bkind (p : Nat) (k : BuilderKind) (c o l : Nat) : (setBuilder p k c o l s).bkind = k := rfl
@[simp] theorem setBuilder_bcap (p : Nat) (k : BuilderKind) (c o l : Nat) : (setBuilder p k c o l s).bcap = c := rfl
@[simp] theorem setBuilder_dofs (p : Nat) (k : BuilderKind) (c o l : Nat) : (setBuilder p k c o l s).dofs = o := rfl
@[simp] theorem setBuilder_dlen (p : Nat) (k : BuilderKind) (c o l : Nat) : (setBuilder p k c o l s).dlen = l := rfl
@[simp] theorem setBuilder_wofs (p : Nat) (k : BuilderKind) (c o l : Nat) : (setBuilder p k c o l s).wofs = s.wofs := rfl
@[simp] theorem setBuilder_dirLine (p : Nat) (k : BuilderKind) (c o l : Nat) : (setBuilder p k c o l s).dirLine = s.dirLine := rfl
@[simp] theorem setBuilder_req (p : Nat) (k : BuilderKind) (c o l : Nat) : (setBuilder p k c o l s).req = s.req := rfl
@[simp] theorem setBuilder_status (p : Nat) (k : BuilderKind) (c o l : Nat) : (setBuilder p k c o l s).status = s.status := rfl
@[simp] theorem setBuilder_phase (p : Nat) (k : BuilderKind) (c o l : Nat) : (setBuilder p k c o l s).phase = s.phase := rfl
@[simp] theorem setBuilder_inProcess (p : Nat) (k : BuilderKind) (c o l : Nat) : (setBuilder p k c o l s).inProcess = s.inProcess := rfl
@[simp] theorem setBuilder_phasePath (p : Nat) (k : BuilderKind) (c o l : Nat) : (setBuilder p k c o l s).phasePath = s.phasePath := rfl
@[simp] theorem setBuilder_marks (p : Nat) (k : BuilderKind) (c o l : Nat) : (setBuilder p k c o l s).marks = s.marks := rfl
@[simp] theorem setBuilder_trace (p : Nat) (k : BuilderKind) (c o l : Nat) : (setBuilder p k c o l s).trace = s.trace := rfl
@[simp] theorem setBuilder_params (p : Nat) (k : BuilderKind) (c o l : Nat) : (setBuilder p k c o l s).params = s.params := rfl
@[simp] theorem setBuilder_rxQueue (p : Nat) (k : BuilderKind) (c o l : Nat) : (setBuilder p k c o l s).rxQueue = s.rxQueue := rfl
@[simp] theorem setBuilder_env (p : Nat) (k : BuilderKind) (c o l : Nat) : (setBuilder p k c o l s).env = s.env := rfl
@[simp] theorem setBuilder_host (p : Nat) (k : BuilderKind) (c o l : Nat) : (setBuilder p k c o l s).host = s.host := rfl

/-! ### endCycle -/

@[simp] theorem endCycle_configured : (endCycle s).configured = s.configured := rfl
@[simp] theorem endCycle_cfgUnit : (endCycle s).cfgUnit = s.cfgUnit := rfl
@[simp] theorem endCycle_cfgThresh : (endCycle s).cfgThresh = s.cfgThresh := rfl
@[simp] theorem endCycle_cfgDir : (endCycle s).cfgDir = s.cfgDir := rfl
@[simp] theorem endCycle_cfgCb : (endCycle s).cfgCb = s.cfgCb := rfl
@[simp] theorem endCycle_obsCount : (endCycle s).obsCount = s.obsCount := rfl
@[simp] theorem endCycle_obsTime : (endCycle s).obsTime = s.obsTime := rfl
@[simp] theorem endCycle_rxBuf : (endCycle s).rxBuf = s.rxBuf := rfl
@[simp] theorem endCycle_rxLen : (endCycle s).rxLen = s.rxLen := rfl
@[simp] theorem endCycle_txBuf : (endCycle s).txBuf = s.txBuf := rfl
@[simp] theorem endCycle_plen : (endCycle s).plen = s.plen := rfl
@[simp] theorem endCycle_bkind : (endCycle s).bkind = s.bkind := rfl
@[simp] theorem endCycle_bcap : (endCycle s).bcap = s.bcap := rfl
@[simp] theorem endCycle_dofs : (endCycle s).dofs = s.dofs := rfl
@[simp] theorem endCycle_dlen : (endCycle s).dlen = s.dlen := rfl
@[simp] theorem endCycle_wofs : (endCycle s).wofs = s.wofs := rfl
@[simp] theorem endCycle_dirLine : (endCycle s).dirLine = s.dirLine := rfl
@[simp] theorem endCycle_req : (endCycle s).req = none := rfl
@[simp] theorem endCycle_status : (endCycle s).status = none := rfl
@[simp] theorem endCycle_phase : (endCycle s).phase = .idle := rfl
@[simp] theorem endCycle_inProcess : (endCycle s).inProcess = false := rfl
@[simp] theorem endCycle_phasePath : (endCycle s).phasePath = s.phasePath ++ [.idle] := rfl
@[simp] theorem endCycle_marks : (endCycle s).marks = s.marks := rfl
@[simp] theorem endCycle_trace : (endCycle s).trace = s.trace := rfl
@[simp] theorem endCycle_params : (endCycle s).params = s.params := rfl
@[simp] theorem endCycle_rxQueue : (endCycle s).rxQueue = s.rxQueue := rfl
@[simp] theorem endCycle_env : (endCycle s).env = s.env := rfl
@[simp] theorem endCycle_host : (endCycle s).host = s.host := rfl

end Sys2Proof.Machine
end

