-- ==== Sys2Proof/Laws/Ops.lean ====
section
/-! SUPPORT. What the shared operations of Machine/Ops.lean and Machine/Operands.lean can do, each said once: the end of a
cycle, a transmission, a response, taking an exception. -/

namespace Sys2Proof.Machine

@[simp] theorem andThen_next (s : State) (f : State → Outcome) : andThen (.next s) f = f s := rfl
@[simp] theorem andThen_fault (r : Fault) (f : State → Outcome) : andThen (.fault r) f = .fault r := rfl
@[simp] theorem andThen_refused (r : Refusal) (f : State → Outcome) : andThen (.refused r) f = .refused r := rfl

/-- `andThen` ends in a next state only through one. -/
theorem andThen_eq_next {o : Outcome} {f : State → Outcome} {t : State} (h : andThen o f = .next t) :
    ∃ s, o = .next s ∧ f s = .next t := by
  cases o with
  | next s => exact ⟨s, rfl, h⟩
  | fault r => cases h
  | refused r => cases h

/-- A transmission of `m` bytes: a hang, or the direction bracket round one `TxSend` (R215 to R217). -/
theorem transmit_eq (m : Nat) (s : State) :
    transmit m s = if s.env.txCompletes then
        .next { s with
          dirLine := if s.cfgDir then false else s.dirLine
          trace := s.trace ++ sendEvents s.cfgDir (s.txBuf.readRun 0 m) }
      else .fault .txNeverCompletes := by
  unfold transmit
  split
  · split <;> rename_i h <;> simp [h, transmitDir, transmitPlain, emit, sendEvents]
  · rfl

/-- The state a completed response of `n` bytes and a checksum leaves (R214 to R216, R236). -/
def responded (n : Nat) (s : State) : State :=
  { s with
    txBuf := s.txBuf.writeRun n (checksum s.params (s.txBuf.readRun 0 n))
    dirLine := if s.cfgDir then false else s.dirLine
    trace := s.trace ++ sendEvents s.cfgDir
      ((s.txBuf.writeRun n (checksum s.params (s.txBuf.readRun 0 n))).readRun 0 (n + 2))
    req := none
    status := none
    inProcess := false
    phase := .idle
    phasePath := s.phasePath ++ [.idle] }

/-- A response: a hang, or the state `responded` spells out. -/
theorem respond_eq (n : Nat) (s : State) :
    respond n s = if s.env.txCompletes then .next (responded n s) else .fault .txNeverCompletes := by
  rw [respond, transmit_eq]
  by_cases h : s.env.txCompletes = true
  · have h' : (appendChecksum n s).env.txCompletes = true := h
    rw [if_pos h', if_pos h]; rfl
  · have h' : ¬ (appendChecksum n s).env.txCompletes = true := h
    rw [if_neg h', if_neg h]; rfl

/-! ### Field by field -/

@[simp] theorem buildNormal_configured (s : State) : (buildNormal s).configured = s.configured := rfl
@[simp] theorem buildNormal_cfgUnit (s : State) : (buildNormal s).cfgUnit = s.cfgUnit := rfl
@[simp] theorem buildNormal_cfgThresh (s : State) : (buildNormal s).cfgThresh = s.cfgThresh := rfl
@[simp] theorem buildNormal_cfgDir (s : State) : (buildNormal s).cfgDir = s.cfgDir := rfl
@[simp] theorem buildNormal_cfgCb (s : State) : (buildNormal s).cfgCb = s.cfgCb := rfl
@[simp] theorem buildNormal_obsCount (s : State) : (buildNormal s).obsCount = s.obsCount := rfl
@[simp] theorem buildNormal_obsTime (s : State) : (buildNormal s).obsTime = s.obsTime := rfl
@[simp] theorem buildNormal_rxBuf (s : State) : (buildNormal s).rxBuf = s.rxBuf := rfl
@[simp] theorem buildNormal_rxLen (s : State) : (buildNormal s).rxLen = s.rxLen := rfl
@[simp] theorem buildNormal_txBuf (s : State) : (buildNormal s).txBuf = s.txBuf.writeRun 0 [(curReq s).unit, (curReq s).fc] :=
  rfl
@[simp] theorem buildNormal_plen (s : State) : (buildNormal s).plen = s.plen := rfl
@[simp] theorem buildNormal_bkind (s : State) : (buildNormal s).bkind = s.bkind := rfl
@[simp] theorem buildNormal_bcap (s : State) : (buildNormal s).bcap = s.bcap := rfl
@[simp] theorem buildNormal_dofs (s : State) : (buildNormal s).dofs = s.dofs := rfl
@[simp] theorem buildNormal_dlen (s : State) : (buildNormal s).dlen = s.dlen := rfl
@[simp] theorem buildNormal_wofs (s : State) : (buildNormal s).wofs = s.wofs := rfl
@[simp] theorem buildNormal_dirLine (s : State) : (buildNormal s).dirLine = s.dirLine := rfl
@[simp] theorem buildNormal_req (s : State) : (buildNormal s).req = s.req := rfl
@[simp] theorem buildNormal_status (s : State) : (buildNormal s).status = s.status := rfl
@[simp] theorem buildNormal_phase (s : State) : (buildNormal s).phase = s.phase := rfl
@[simp] theorem buildNormal_inProcess (s : State) : (buildNormal s).inProcess = s.inProcess := rfl
@[simp] theorem buildNormal_phasePath (s : State) : (buildNormal s).phasePath = s.phasePath := rfl
@[simp] theorem buildNormal_marks (s : State) : (buildNormal s).marks = s.marks := rfl
@[simp] theorem buildNormal_trace (s : State) : (buildNormal s).trace = s.trace := rfl
@[simp] theorem buildNormal_params (s : State) : (buildNormal s).params = s.params := rfl
@[simp] theorem buildNormal_rxQueue (s : State) : (buildNormal s).rxQueue = s.rxQueue := rfl
@[simp] theorem buildNormal_env (s : State) : (buildNormal s).env = s.env := rfl
@[simp] theorem buildNormal_host (s : State) : (buildNormal s).host = s.host := rfl

@[simp] theorem buildException_configured (e : Byte) (s : State) : (buildException e s).configured = s.configured := rfl
@[simp] theorem buildException_cfgUnit (e : Byte) (s : State) : (buildException e s).cfgUnit = s.cfgUnit := rfl
@[simp] theorem buildException_cfgThresh (e : Byte) (s : State) : (buildException e s).cfgThresh = s.cfgThresh := rfl
@[simp] theorem buildException_cfgDir (e : Byte) (s : State) : (buildException e s).cfgDir = s.cfgDir := rfl
@[simp] theorem buildException_cfgCb (e : Byte) (s : State) : (buildException e s).cfgCb = s.cfgCb := rfl
@[simp] theorem buildException_obsCount (e : Byte) (s : State) : (buildException e s).obsCount = s.obsCount := rfl
@[simp] theorem buildException_obsTime (e : Byte) (s : State) : (buildException e s).obsTime = s.obsTime := rfl
@[simp] theorem buildException_rxBuf (e : Byte) (s : State) : (buildException e s).rxBuf = s.rxBuf := rfl
@[simp] theorem buildException_rxLen (e : Byte) (s : State) : (buildException e s).rxLen = s.rxLen := rfl
@[simp] theorem buildException_txBuf (e : Byte) (s : State) : (buildException e s).txBuf = s.txBuf.writeRun 0 [(curReq s).unit, (curReq s).fc ||| 0x80, e] :=
  rfl
@[simp] theorem buildException_plen (e : Byte) (s : State) : (buildException e s).plen = 1 := rfl
@[simp] theorem buildException_bkind (e : Byte) (s : State) : (buildException e s).bkind = s.bkind := rfl
@[simp] theorem buildException_bcap (e : Byte) (s : State) : (buildException e s).bcap = s.bcap := rfl
@[simp] theorem buildException_dofs (e : Byte) (s : State) : (buildException e s).dofs = s.dofs := rfl
@[simp] theorem buildException_dlen (e : Byte) (s : State) : (buildException e s).dlen = s.dlen := rfl
@[simp] theorem buildException_wofs (e : Byte) (s : State) : (buildException e s).wofs = s.wofs := rfl
@[simp] theorem buildException_dirLine (e : Byte) (s : State) : (buildException e s).dirLine = s.dirLine := rfl
@[simp] theorem buildException_req (e : Byte) (s : State) : (buildException e s).req = s.req := rfl
@[simp] theorem buildException_status (e : Byte) (s : State) : (buildException e s).status = s.status := rfl
@[simp] theorem buildException_phase (e : Byte) (s : State) : (buildException e s).phase = s.phase := rfl
@[simp] theorem buildException_inProcess (e : Byte) (s : State) : (buildException e s).inProcess = s.inProcess := rfl
@[simp] theorem buildException_phasePath (e : Byte) (s : State) : (buildException e s).phasePath = s.phasePath := rfl
@[simp] theorem buildException_marks (e : Byte) (s : State) : (buildException e s).marks = s.marks := rfl
@[simp] theorem buildException_trace (e : Byte) (s : State) : (buildException e s).trace = s.trace := rfl
@[simp] theorem buildException_params (e : Byte) (s : State) : (buildException e s).params = s.params := rfl
@[simp] theorem buildException_rxQueue (e : Byte) (s : State) : (buildException e s).rxQueue = s.rxQueue := rfl
@[simp] theorem buildException_env (e : Byte) (s : State) : (buildException e s).env = s.env := rfl
@[simp] theorem buildException_host (e : Byte) (s : State) : (buildException e s).host = s.host := rfl

@[simp] theorem responded_configured (n : Nat) (s : State) : (responded n s).configured = s.configured := rfl
@[simp] theorem responded_cfgUnit (n : Nat) (s : State) : (responded n s).cfgUnit = s.cfgUnit := rfl
@[simp] theorem responded_cfgThresh (n : Nat) (s : State) : (responded n s).cfgThresh = s.cfgThresh := rfl
@[simp] theorem responded_cfgDir (n : Nat) (s : State) : (responded n s).cfgDir = s.cfgDir := rfl
@[simp] theorem responded_cfgCb (n : Nat) (s : State) : (responded n s).cfgCb = s.cfgCb := rfl
@[simp] theorem responded_obsCount (n : Nat) (s : State) : (responded n s).obsCount = s.obsCount := rfl
@[simp] theorem responded_obsTime (n : Nat) (s : State) : (responded n s).obsTime = s.obsTime := rfl
@[simp] theorem responded_rxBuf (n : Nat) (s : State) : (responded n s).rxBuf = s.rxBuf := rfl
@[simp] theorem responded_rxLen (n : Nat) (s : State) : (responded n s).rxLen = s.rxLen := rfl
@[simp] theorem responded_txBuf (n : Nat) (s : State) : (responded n s).txBuf = s.txBuf.writeRun n (checksum s.params (s.txBuf.readRun 0 n)) :=
  rfl
@[simp] theorem responded_plen (n : Nat) (s : State) : (responded n s).plen = s.plen := rfl
@[simp] theorem responded_bkind (n : Nat) (s : State) : (responded n s).bkind = s.bkind := rfl
@[simp] theorem responded_bcap (n : Nat) (s : State) : (responded n s).bcap = s.bcap := rfl
@[simp] theorem responded_dofs (n : Nat) (s : State) : (responded n s).dofs = s.dofs := rfl
@[simp] theorem responded_dlen (n : Nat) (s : State) : (responded n s).dlen = s.dlen := rfl
@[simp] theorem responded_wofs (n : Nat) (s : State) : (responded n s).wofs = s.wofs := rfl
@[simp] theorem responded_dirLine (n : Nat) (s : State) : (responded n s).dirLine = if s.cfgDir then false else s.dirLine :=
  rfl
@[simp] theorem responded_req (n : Nat) (s : State) : (responded n s).req = none := rfl
@[simp] theorem responded_status (n : Nat) (s : State) : (responded n s).status = none := rfl
@[simp] theorem responded_phase (n : Nat) (s : State) : (responded n s).phase = .idle := rfl
@[simp] theorem responded_inProcess (n : Nat) (s : State) : (responded n s).inProcess = false := rfl
@[simp] theorem responded_phasePath (n : Nat) (s : State) : (responded n s).phasePath = s.phasePath ++ [.idle] := rfl
@[simp] theorem responded_marks (n : Nat) (s : State) : (responded n s).marks = s.marks := rfl
@[simp] theorem responded_params (n : Nat) (s : State) : (responded n s).params = s.params := rfl
@[simp] theorem responded_rxQueue (n : Nat) (s : State) : (responded n s).rxQueue = s.rxQueue := rfl
@[simp] theorem responded_env (n : Nat) (s : State) : (responded n s).env = s.env := rfl
@[simp] theorem responded_host (n : Nat) (s : State) : (responded n s).host = s.host := rfl

/-- A response changes the transmit side and ends the cycle; the rest stays. -/
theorem responded_keeps (n : Nat) (s : State) : KeepsRest s (responded n s) ∧ CycleOver (responded n s) :=
  ⟨⟨rfl, rfl, rfl, rfl, rfl, rfl, rfl, rfl, rfl, rfl, rfl, rfl, rfl⟩, ⟨rfl, rfl, rfl, rfl⟩⟩

theorem KeepsRest.trans {s t u : State} (h : KeepsRest s t) (k : KeepsRest t u) : KeepsRest s u where
  configured := k.configured.trans h.configured
  cfgUnit := k.cfgUnit.trans h.cfgUnit
  cfgThresh := k.cfgThresh.trans h.cfgThresh
  cfgDir := k.cfgDir.trans h.cfgDir
  cfgCb := k.cfgCb.trans h.cfgCb
  obsCount := k.obsCount.trans h.obsCount
  obsTime := k.obsTime.trans h.obsTime
  rxBuf := k.rxBuf.trans h.rxBuf
  rxLen := k.rxLen.trans h.rxLen
  params := k.params.trans h.params
  rxQueue := k.rxQueue.trans h.rxQueue
  env := k.env.trans h.env
  host := k.host.trans h.host

/-- The bytes below and at the checksum, read back: the response with its checksum (R214). -/
theorem readRun_checksummed (p : Params) {m : Memory} (hm : m.wf = true) (n : Nat) :
    (m.writeRun n (checksum p (m.readRun 0 n))).readRun 0 (n + 2) = withChecksum p (m.readRun 0 n) := by
  have h2 := Memory.readRun_writeRun hm n (checksum p (m.readRun 0 n))
  rw [length_checksum] at h2
  rw [Memory.readRun_append, Nat.zero_add, h2, withChecksum]
  congr 1
  exact Memory.readRun_congr fun k hk => Memory.read_writeRun_outside _ (by omega)

/-- The bytes the encoder puts into `TX_BUF` before an exception response's checksum (R212). -/
theorem readRun_buildException {s : State} (hm : s.txBuf.wf = true) (e : Byte) :
    (buildException e s).txBuf.readRun 0 3 = [(curReq s).unit, (curReq s).fc ||| 0x80, e] :=
  Memory.readRun_writeRun hm 0 [(curReq s).unit, (curReq s).fc ||| 0x80, e]

/-- The bytes the encoder puts into `TX_BUF` before a normal response's payload (R211). -/
theorem readRun_buildNormal {s : State} (hm : s.txBuf.wf = true) (n : Nat) :
    (buildNormal s).txBuf.readRun 0 (2 + n) = [(curReq s).unit, (curReq s).fc] ++ s.txBuf.readRun 2 n := by
  have h2 : (buildNormal s).txBuf.readRun 0 2 = _ :=
    Memory.readRun_writeRun hm 0 [(curReq s).unit, (curReq s).fc]
  rw [Memory.readRun_append, h2]
  congr 1
  exact Memory.readRun_congr fun k hk =>
    Memory.read_writeRun_outside s.txBuf (a := 0) (l := [(curReq s).unit, (curReq s).fc])
      (Or.inr (by simp only [List.length_cons, List.length_nil]; omega))

/-- Everything the encoder can do (R210): a suppressed end, a response, or a hang. -/
theorem encodeResponse_eq (st : Status) (s : State) :
    encodeResponse st s = match st with
      | .suppress => .next (endCycle (enter .suppressed s))
      | .ok => if s.env.txCompletes then .next (responded (2 + s.plen) (buildNormal (enter .responding s)))
          else .fault .txNeverCompletes
      | .exc e => if s.env.txCompletes then .next (responded 3 (buildException e (enter .responding s)))
          else .fault .txNeverCompletes := by
  cases st with
  | suppress => rfl
  | ok => rw [encodeResponse, respond_eq]; rfl
  | exc e => rw [encodeResponse, respond_eq]; rfl

/-- Taking an exception, in full (R155, R257, R212): a hang, or the exception response. -/
theorem takeException_eq (code : Byte) (s : State) :
    takeException code s = if s.env.txCompletes then
        .next (responded 3 (buildException code (enter .responding (setStatus (.exc code) (enter .exceptionReady s)))))
      else .fault .txNeverCompletes := by
  rw [takeException, encodeResponse_eq]; rfl

/-- An exception response as an observer sees it: what is sent, what `TX_BUF` holds then, and what stays. -/
theorem responded_buildException {s : State} (hm : s.txBuf.wf = true) (e : Byte) :
    (responded 3 (buildException e s)).trace =
        s.trace ++ sendEvents s.cfgDir (exceptionFrame s.params (curReq s).unit (curReq s).fc e) ∧
      (responded 3 (buildException e s)).txBuf.readRun 0 5 =
        exceptionFrame s.params (curReq s).unit (curReq s).fc e ∧
      ∀ a, 5 ≤ a → (responded 3 (buildException e s)).txBuf.read a = s.txBuf.read a := by
  have hb : (buildException e s).txBuf.wf = true :=
    Memory.wf_writeRun hm 0 [(curReq s).unit, (curReq s).fc ||| 0x80, e]
  have hr : (responded 3 (buildException e s)).txBuf.readRun 0 5 =
      exceptionFrame s.params (curReq s).unit (curReq s).fc e := by
    refine (readRun_checksummed s.params hb 3).trans ?_
    rw [readRun_buildException hm e]; rfl
  refine ⟨?_, hr, fun a ha => ?_⟩
  · rw [← hr]; rfl
  · refine (Memory.read_writeRun_outside _ (Or.inr ?_)).trans ?_
    · rw [length_checksum]; exact ha
    · exact Memory.read_writeRun_outside s.txBuf (a := 0) (l := [(curReq s).unit, (curReq s).fc ||| 0x80, e])
        (Or.inr (by simp only [List.length_cons, List.length_nil]; omega))

/-- A normal response as an observer sees it. -/
theorem responded_buildNormal {s : State} (hm : s.txBuf.wf = true) (n : Nat) :
    (responded (2 + n) (buildNormal s)).trace = s.trace ++ sendEvents s.cfgDir
        (withChecksum s.params ([(curReq s).unit, (curReq s).fc] ++ s.txBuf.readRun 2 n)) ∧
      (responded (2 + n) (buildNormal s)).txBuf.readRun 0 (4 + n) =
        withChecksum s.params ([(curReq s).unit, (curReq s).fc] ++ s.txBuf.readRun 2 n) ∧
      ∀ a, 4 + n ≤ a → (responded (2 + n) (buildNormal s)).txBuf.read a = s.txBuf.read a := by
  have hb : (buildNormal s).txBuf.wf = true := Memory.wf_writeRun hm 0 [(curReq s).unit, (curReq s).fc]
  have hr : (responded (2 + n) (buildNormal s)).txBuf.readRun 0 (4 + n) =
      withChecksum s.params ([(curReq s).unit, (curReq s).fc] ++ s.txBuf.readRun 2 n) := by
    rw [show 4 + n = 2 + n + 2 by omega]
    refine (readRun_checksummed s.params hb (2 + n)).trans ?_
    rw [readRun_buildNormal hm n]
  refine ⟨?_, hr, fun a ha => ?_⟩
  · rw [← hr, show 4 + n = 2 + n + 2 by omega]; rfl
  · refine (Memory.read_writeRun_outside _ (Or.inr ?_)).trans ?_
    · rw [length_checksum]; omega
    · exact Memory.read_writeRun_outside s.txBuf (a := 0) (l := [(curReq s).unit, (curReq s).fc])
        (Or.inr (by simp only [List.length_cons, List.length_nil]; omega))

end Sys2Proof.Machine
end

