-- ==== Sys2Proof/Laws/Callback.lean ====
section
/-! SUPPORT. What the callback port can do, said once: one port call, a run of them, and the dispatcher around it
(43_dispatch_builder.md R180 to R192). -/

namespace Sys2Proof.Machine

/-- The builder fields agree on the data area, as every decoder rule leaves them (R32, R141 to R149). -/
def BuilderFits (s : State) : Prop :=
  s.dlen = match s.bkind with
    | .none => 0
    | .bit => ceil8 s.bcap
    | .reg => 2 * s.bcap
    | .rawByte => s.bcap

/-- What one port call, or a run of them, can change: `TX_BUF`, the write offset, the marks and the observation. -/
structure CallStep (s t : State) : Prop where
  eq : t = { s with txBuf := t.txBuf, wofs := t.wofs, marks := t.marks, trace := t.trace }
  wf : s.txBuf.wf = true → t.txBuf.wf = true
  /-- bytes outside the data area stay (R153, R186) -/
  outside : BuilderFits s → ∀ a, a < s.dofs ∨ s.dofs + s.dlen ≤ a → t.txBuf.read a = s.txBuf.read a
  within : BuilderFits s → ∀ cap, s.dofs + s.dlen ≤ cap → s.txBuf.within cap = true → t.txBuf.within cap = true
  /-- the write offset only grows and never passes the capacity (R32) -/
  wofs_le : s.wofs ≤ s.bcap → t.wofs ≤ s.bcap
  marks : ∀ m, s.marks.has m = true → t.marks.has m = true

theorem Marks.has_add (m x : Mark) (ms : Marks) : (Marks.add m ms).has x = (decide (x = m) || ms.has x) := by
  cases m <;> cases x <;> simp [Marks.add, Marks.has]

theorem CallStep.refl (s : State) : CallStep s s :=
  ⟨rfl, id, fun _ _ _ => rfl, fun _ _ _ h => h, id, fun _ h => h⟩

theorem CallStep.fits {s t : State} (h : CallStep s t) (hf : BuilderFits s) : BuilderFits t := by
  rw [h.eq]; exact hf

theorem CallStep.trans {s t u : State} (h : CallStep s t) (h' : CallStep t u) : CallStep s u where
  eq := by rw [h'.eq, h.eq]
  wf := h'.wf ∘ h.wf
  outside hf a ha := by
    rw [h'.outside (h.fits hf) a (by rw [h.eq]; exact ha), h.outside hf a ha]
  within hf cap hc hw := h'.within (h.fits hf) cap (by rw [h.eq]; exact hc) (h.within hf cap hc hw)
  wofs_le hw := by
    have := h'.wofs_le (by rw [h.eq]; exact h.wofs_le hw)
    rw [h.eq] at this; exact this
  marks m hm := h'.marks m (h.marks m hm)

theorem CallStep.emit (e : PortEvent) (s : State) : CallStep s (emit e s) :=
  ⟨rfl, id, fun _ _ _ => rfl, fun _ _ _ h => h, id, fun _ h => h⟩

theorem CallStep.markFault (m : Mark) (s : State) : CallStep s (markFault m s) :=
  ⟨rfl, id, fun _ _ _ => rfl, fun _ _ _ h => h, id, fun x h => by
    rw [markFault_marks, Marks.has_add, h, Bool.or_true]⟩

/-- A builder write of a run of bytes inside the data area, with the offset advanced. -/
theorem CallStep.builderWrite {s : State} {a : Nat} {l : List Byte} (hw : s.wofs < s.bcap)
    (hin : BuilderFits s → s.dofs ≤ a ∧ a + l.length ≤ s.dofs + s.dlen) :
    CallStep s { writeTxRun a l s with wofs := s.wofs + 1 } where
  eq := rfl
  wf h := Memory.wf_writeRun h a l
  outside hf x hx := by
    have := hin hf
    exact Memory.read_writeRun_outside _ (by omega)
  within hf cap hc hw := by
    have := hin hf
    exact Memory.within_writeRun hw (by omega)
  wofs_le _ := hw
  marks _ h := h

/-- `WriteBit`: accepted, or ignored with a mark (R183, R185, R186). -/
theorem callStep_writeBit (b : Bool) (s : State) : CallStep s (writeBit b s) := by
  unfold writeBit
  split
  · exact CallStep.markFault _ _
  · split
    · exact CallStep.markFault _ _
    · rename_i hk hc
      have hk : s.bkind = .bit := by simpa using hk
      refine CallStep.builderWrite (l := [_]) (by omega) fun hf => ?_
      rw [BuilderFits, hk] at hf
      simp only [ceil8] at hf
      simp only [List.length_cons, List.length_nil]
      omega

/-- `WriteRegister`: accepted, or ignored with a mark (R184 to R186). -/
theorem callStep_writeRegister (v : U16) (s : State) : CallStep s (writeRegister v s) := by
  unfold writeRegister
  split
  · split
    · exact CallStep.markFault _ _
    · rename_i hk hc
      refine CallStep.builderWrite (l := beBytes v) (by omega) fun hf => ?_
      rw [BuilderFits, hk] at hf
      simp only [length_beBytes] at *
      omega
  · split
    · exact CallStep.markFault _ _
    · rename_i hk hc
      refine CallStep.builderWrite (l := [lo8 v]) (by omega) fun hf => ?_
      rw [BuilderFits, hk] at hf
      simp only [List.length_cons, List.length_nil] at *
      omega
  · exact CallStep.markFault _ _
  · exact CallStep.markFault _ _

theorem callStep_marked {α : Type} (a : Access α) (s : State) : CallStep s (a.marked s) := by
  cases a with
  | value v => exact CallStep.refl s
  | err m => exact CallStep.markFault m s

@[simp] theorem writeBit_trace (b : Bool) (s : State) : (writeBit b s).trace = s.trace := by
  unfold writeBit; repeat' split
  all_goals rfl

@[simp] theorem writeRegister_trace (v : U16) (s : State) : (writeRegister v s).trace = s.trace := by
  unfold writeRegister; repeat' split
  all_goals rfl

@[simp] theorem marked_trace {α : Type} (a : Access α) (s : State) : (a.marked s).trace = s.trace := by
  cases a <;> rfl

/-- One port call: a `Process()` call is refused; any other is one call event and a `CallStep`. -/
theorem runAct_cases (a : CbAct) (s : State) :
    (a = .process ∧ runAct a s = .refused .reentrant) ∨
    (a ≠ .process ∧ ∃ t e, runAct a s = .next t ∧ CallStep s t ∧ isCallEvent e = true ∧ t.trace = s.trace ++ [e]) := by
  cases a with
  | process => exact .inl ⟨rfl, rfl⟩
  | writeBit b =>
    exact .inr ⟨nofun, _, .writeBit b, rfl, (CallStep.emit _ _).trans (callStep_writeBit _ _), rfl, by simp⟩
  | writeRegister v =>
    exact .inr ⟨nofun, _, .writeRegister v, rfl, (CallStep.emit _ _).trans (callStep_writeRegister _ _), rfl, by simp⟩
  | readCoilValue i =>
    exact .inr ⟨nofun, _, .readCoilValue i _, rfl, (CallStep.emit _ _).trans (callStep_marked _ _), rfl, marked_trace _ _⟩
  | readRegisterValue i =>
    exact .inr ⟨nofun, _, .readRegisterValue i _, rfl, (CallStep.emit _ _).trans (callStep_marked _ _), rfl, marked_trace _ _⟩

/-- A run of port calls with a `Process()` call among them is refused (R264). -/
theorem runActs_refused {acts : List CbAct} (h : CbAct.process ∈ acts) (s : State) :
    runActs acts s = .refused .reentrant := by
  induction acts generalizing s with
  | nil => simp at h
  | cons a as ih =>
    rcases runAct_cases a s with ⟨_, hr⟩ | ⟨hn, t, _, hr, _⟩
    · rw [runActs, hr]; rfl
    · rw [runActs, hr, andThen_next]
      exact ih (by simpa [Ne.symm hn] using h) t

/-- A run of port calls without one ends in a state: as many call events, and a `CallStep`. -/
theorem runActs_next {acts : List CbAct} (h : CbAct.process ∉ acts) (s : State) :
    ∃ t calls, runActs acts s = .next t ∧ CallStep s t ∧ calls.length = acts.length ∧
      (∀ c ∈ calls, isCallEvent c = true) ∧ t.trace = s.trace ++ calls := by
  induction acts generalizing s with
  | nil => exact ⟨s, [], rfl, CallStep.refl s, rfl, nofun, by simp⟩
  | cons a as ih =>
    simp only [List.mem_cons, not_or] at h
    rcases runAct_cases a s with ⟨ha, _⟩ | ⟨_, t, e, hr, hs, he, ht⟩
    · exact absurd ha.symm h.1
    · obtain ⟨u, calls, hu, hsu, hl, hc, htr⟩ := ih h.2 t
      refine ⟨u, e :: calls, ?_, hs.trans hsu, by simp [hl], ?_, ?_⟩
      · rw [runActs, hr, andThen_next, hu]
      · simpa [he] using hc
      · rw [htr, ht, List.append_assoc]; rfl

/-- The same for any run that ends in a state. -/
theorem runActs_of_next {acts : List CbAct} {s t : State} (h : runActs acts s = .next t) :
    CbAct.process ∉ acts ∧ CallStep s t ∧
      ∃ calls, calls.length = acts.length ∧ (∀ c ∈ calls, isCallEvent c = true) ∧ t.trace = s.trace ++ calls := by
  by_cases hp : CbAct.process ∈ acts
  · rw [runActs_refused hp] at h; cases h
  · obtain ⟨u, calls, hu, hs, hl, hc, ht⟩ := runActs_next hp s
    rw [hu] at h
    cases h
    exact ⟨hp, hs, calls, hl, hc, ht⟩

/-! ### Field by field -/

@[simp] theorem clearData_configured (s : State) : (clearData s).configured = s.configured := rfl
@[simp] theorem clearData_cfgUnit (s : State) : (clearData s).cfgUnit = s.cfgUnit := rfl
@[simp] theorem clearData_cfgThresh (s : State) : (clearData s).cfgThresh = s.cfgThresh := rfl
@[simp] theorem clearData_cfgDir (s : State) : (clearData s).cfgDir = s.cfgDir := rfl
@[simp] theorem clearData_cfgCb (s : State) : (clearData s).cfgCb = s.cfgCb := rfl
@[simp] theorem clearData_obsCount (s : State) : (clearData s).obsCount = s.obsCount := rfl
@[simp] theorem clearData_obsTime (s : State) : (clearData s).obsTime = s.obsTime := rfl
@[simp] theorem clearData_rxBuf (s : State) : (clearData s).rxBuf = s.rxBuf := rfl
@[simp] theorem clearData_rxLen (s : State) : (clearData s).rxLen = s.rxLen := rfl
@[simp] theorem clearData_txBuf (s : State) : (clearData s).txBuf = s.txBuf.writeRun s.dofs (List.replicate s.dlen 0x00) :=
  rfl
@[simp] theorem clearData_plen (s : State) : (clearData s).plen = s.plen := rfl
@[simp] theorem clearData_bkind (s : State) : (clearData s).bkind = s.bkind := rfl
@[simp] theorem clearData_bcap (s : State) : (clearData s).bcap = s.bcap := rfl
@[simp] theorem clearData_dofs (s : State) : (clearData s).dofs = s.dofs := rfl
@[simp] theorem clearData_dlen (s : State) : (clearData s).dlen = s.dlen := rfl
@[simp] theorem clearData_wofs (s : State) : (clearData s).wofs = 0 := rfl
@[simp] theorem clearData_dirLine (s : State) : (clearData s).dirLine = s.dirLine := rfl
@[simp] theorem clearData_req (s : State) : (clearData s).req = s.req := rfl
@[simp] theorem clearData_status (s : State) : (clearData s).status = s.status := rfl
@[simp] theorem clearData_phase (s : State) : (clearData s).phase = s.phase := rfl
@[simp] theorem clearData_inProcess (s : State) : (clearData s).inProcess = s.inProcess := rfl
@[simp] theorem clearData_phasePath (s : State) : (clearData s).phasePath = s.phasePath := rfl
@[simp] theorem clearData_marks (s : State) : (clearData s).marks = s.marks := rfl
@[simp] theorem clearData_trace (s : State) : (clearData s).trace = s.trace := rfl
@[simp] theorem clearData_params (s : State) : (clearData s).params = s.params := rfl
@[simp] theorem clearData_rxQueue (s : State) : (clearData s).rxQueue = s.rxQueue := rfl
@[simp] theorem clearData_env (s : State) : (clearData s).env = s.env := rfl
@[simp] theorem clearData_host (s : State) : (clearData s).host = s.host := rfl

@[simp] theorem checkFill_configured (st : Status) (s : State) : (checkFill st s).configured = s.configured :=
  by
  unfold checkFill; split <;> rfl
@[simp] theorem checkFill_cfgUnit (st : Status) (s : State) : (checkFill st s).cfgUnit = s.cfgUnit :=
  by
  unfold checkFill; split <;> rfl
@[simp] theorem checkFill_cfgThresh (st : Status) (s : State) : (checkFill st s).cfgThresh = s.cfgThresh :=
  by
  unfold checkFill; split <;> rfl
@[simp] theorem checkFill_cfgDir (st : Status) (s : State) : (checkFill st s).cfgDir = s.cfgDir :=
  by
  unfold checkFill; split <;> rfl
@[simp] theorem checkFill_cfgCb (st : Status) (s : State) : (checkFill st s).cfgCb = s.cfgCb :=
  by
  unfold checkFill; split <;> rfl
@[simp] theorem checkFill_obsCount (st : Status) (s : State) : (checkFill st s).obsCount = s.obsCount :=
  by
  unfold checkFill; split <;> rfl
@[simp] theorem checkFill_obsTime (st : Status) (s : State) : (checkFill st s).obsTime = s.obsTime :=
  by
  unfold checkFill; split <;> rfl
@[simp] theorem checkFill_rxBuf (st : Status) (s : State) : (checkFill st s).rxBuf = s.rxBuf :=
  by
  unfold checkFill; split <;> rfl
@[simp] theorem checkFill_rxLen (st : Status) (s : State) : (checkFill st s).rxLen = s.rxLen :=
  by
  unfold checkFill; split <;> rfl
@[simp] theorem checkFill_txBuf (st : Status) (s : State) : (checkFill st s).txBuf = s.txBuf :=
  by
  unfold checkFill; split <;> rfl
@[simp] theorem checkFill_plen (st : Status) (s : State) : (checkFill st s).plen = s.plen :=
  by
  unfold checkFill; split <;> rfl
@[simp] theorem checkFill_bkind (st : Status) (s : State) : (checkFill st s).bkind = s.bkind :=
  by
  unfold checkFill; split <;> rfl
@[simp] theorem checkFill_bcap (st : Status) (s : State) : (checkFill st s).bcap = s.bcap :=
  by
  unfold checkFill; split <;> rfl
@[simp] theorem checkFill_dofs (st : Status) (s : State) : (checkFill st s).dofs = s.dofs :=
  by
  unfold checkFill; split <;> rfl
@[simp] theorem checkFill_dlen (st : Status) (s : State) : (checkFill st s).dlen = s.dlen :=
  by
  unfold checkFill; split <;> rfl
@[simp] theorem checkFill_wofs (st : Status) (s : State) : (checkFill st s).wofs = s.wofs :=
  by
  unfold checkFill; split <;> rfl
@[simp] theorem checkFill_dirLine (st : Status) (s : State) : (checkFill st s).dirLine = s.dirLine :=
  by
  unfold checkFill; split <;> rfl
@[simp] theorem checkFill_req (st : Status) (s : State) : (checkFill st s).req = s.req :=
  by
  unfold checkFill; split <;> rfl
@[simp] theorem checkFill_status (st : Status) (s : State) : (checkFill st s).status = s.status :=
  by
  unfold checkFill; split <;> rfl
@[simp] theorem checkFill_phase (st : Status) (s : State) : (checkFill st s).phase = s.phase :=
  by
  unfold checkFill; split <;> rfl
@[simp] theorem checkFill_inProcess (st : Status) (s : State) : (checkFill st s).inProcess = s.inProcess :=
  by
  unfold checkFill; split <;> rfl
@[simp] theorem checkFill_phasePath (st : Status) (s : State) : (checkFill st s).phasePath = s.phasePath :=
  by
  unfold checkFill; split <;> rfl
@[simp] theorem checkFill_trace (st : Status) (s : State) : (checkFill st s).trace = s.trace :=
  by
  unfold checkFill; split <;> rfl
@[simp] theorem checkFill_params (st : Status) (s : State) : (checkFill st s).params = s.params :=
  by
  unfold checkFill; split <;> rfl
@[simp] theorem checkFill_rxQueue (st : Status) (s : State) : (checkFill st s).rxQueue = s.rxQueue :=
  by
  unfold checkFill; split <;> rfl
@[simp] theorem checkFill_env (st : Status) (s : State) : (checkFill st s).env = s.env :=
  by
  unfold checkFill; split <;> rfl
@[simp] theorem checkFill_host (st : Status) (s : State) : (checkFill st s).host = s.host :=
  by
  unfold checkFill; split <;> rfl

/-- What a run of port calls leaves. -/
theorem CallStep.keeps {s t : State} (h : CallStep s t) : KeepsRest s t := by
  rw [h.eq]; exact ⟨rfl, rfl, rfl, rfl, rfl, rfl, rfl, rfl, rfl, rfl, rfl, rfl, rfl⟩

theorem CallStep.plen_eq {s t : State} (h : CallStep s t) : t.plen = s.plen := by rw [h.eq]
theorem CallStep.bkind_eq {s t : State} (h : CallStep s t) : t.bkind = s.bkind := by rw [h.eq]
theorem CallStep.bcap_eq {s t : State} (h : CallStep s t) : t.bcap = s.bcap := by rw [h.eq]
theorem CallStep.dofs_eq {s t : State} (h : CallStep s t) : t.dofs = s.dofs := by rw [h.eq]
theorem CallStep.dlen_eq {s t : State} (h : CallStep s t) : t.dlen = s.dlen := by rw [h.eq]
theorem CallStep.dirLine_eq {s t : State} (h : CallStep s t) : t.dirLine = s.dirLine := by rw [h.eq]
theorem CallStep.req_eq {s t : State} (h : CallStep s t) : t.req = s.req := by rw [h.eq]
theorem CallStep.phasePath_eq {s t : State} (h : CallStep s t) : t.phasePath = s.phasePath := by rw [h.eq]

/-! ### The dispatcher -/

/-- The state in which the callback runs: the data area cleared, the invocation on the port (R180, R181). -/
def invoked (s : State) : State :=
  let c := clearData (enter .dispatching s)
  emit (.callback (curReq c).unit (curReq c).fc (curReq c).reg (curReq c).qty (payloadView c)) c

/-- The state after the callback returned `st`: `STATUS` set, the fill checked (R187, R191). -/
def returned (st : Status) (t : State) : State := checkFill st (setStatus st (emit (.callbackReturned st) t))

/-- Dispatch without a callback: server device failure (R182). -/
theorem dispatch_no_callback {s : State} (h : s.cfgCb = false) :
    dispatch s = encodeResponse (.exc 0x04) (setStatus (.exc 0x04) (clearData (enter .dispatching s))) := by
  have h' : ¬ (clearData (enter .dispatching s)).cfgCb = true := by
    have : (clearData (enter .dispatching s)).cfgCb = s.cfgCb := rfl
    rw [this, h]; nofun
  rw [dispatch, if_neg h']; rfl

/-- Dispatch with a callback that calls `Process()`: refused (R264). -/
theorem dispatch_reentrant {s : State} (h : s.cfgCb = true) (hp : CbAct.process ∈ s.env.cb.acts) :
    dispatch s = .refused .reentrant := by
  have h' : (clearData (enter .dispatching s)).cfgCb = true := h
  rw [dispatch, if_pos h', invokeCallback]
  exact (congrArg (andThen · _) (runActs_refused hp _)).trans rfl

/-- Dispatch with a callback: its port calls, then its end (R181, R191, R192). -/
theorem dispatch_callback {s t : State} (h : s.cfgCb = true) (hr : runActs s.env.cb.acts (invoked s) = .next t) :
    dispatch s = match s.env.cb.ends with
      | .never => .fault .callbackNeverReturns
      | .returns st => if st = .exc 0x00 then .refused .statusZero else encodeResponse st (returned st t) := by
  have h' : (clearData (enter .dispatching s)).cfgCb = true := h
  rw [dispatch, if_pos h', invokeCallback]
  refine (congrArg (andThen · _) hr).trans ?_
  rw [andThen_next]
  change (match s.env.cb.ends with
    | .returns st => callbackReturns st t
    | .never => .fault .callbackNeverReturns) = _
  cases s.env.cb.ends <;> rfl

/-- A callback that never returns: a hang (R192). -/
theorem dispatch_never {s t : State} (h : s.cfgCb = true) (hr : runActs s.env.cb.acts (invoked s) = .next t)
    (he : s.env.cb.ends = .never) : dispatch s = .fault .callbackNeverReturns := by
  rw [dispatch_callback h hr, he]

/-- A callback that returns `EXC(0x00)`: refused (U24). -/
theorem dispatch_statusZero {s t : State} (h : s.cfgCb = true) (hr : runActs s.env.cb.acts (invoked s) = .next t)
    (he : s.env.cb.ends = .returns (.exc 0x00)) : dispatch s = .refused .statusZero := by
  rw [dispatch_callback h hr, he]; exact if_pos rfl

/-- A callback that returns a status: the encoder (R191, R210). -/
theorem dispatch_returns {s t : State} (h : s.cfgCb = true) (hr : runActs s.env.cb.acts (invoked s) = .next t)
    {st : Status} (he : s.env.cb.ends = .returns st) (hst : st ≠ .exc 0x00) :
    dispatch s = encodeResponse st (returned st t) := by
  rw [dispatch_callback h hr, he]; exact if_neg hst

end Sys2Proof.Machine
end

