-- ==== Sys2Proof/Laws/Exec.lean ====
section
/-! SUPPORT. The two ways every instruction goes (42_request_decoder.md R140 to R150): a request that fails its row's
checks takes the exception of its row; one that passes is dispatched from the state `readyState` spells out. -/

namespace Sys2Proof.Machine

/-- `DLEN` for a READY request. -/
def dlenOf (i : Instr) : Nat :=
  match kindOf i with
  | .none => 0
  | .bit => ceil8 i.requestQty
  | .reg => 2 * i.requestQty
  | .rawByte => i.requestQty

/-- `DOFS` for a READY request. -/
def dofsOf (i : Instr) : Nat := if kindOf i = .bit ∨ kindOf i = .reg then 3 else 2

/-- The bytes the decoder writes from `TX_BUF[2]` on: the length byte, or the echo (R141 to R148). -/
def decoderBytes : Instr → List Byte
  | .readCoils _ _ q _ => [BitVec.ofNat 8 (ceil8 q.toNat)]
  | .readDiscreteInputs _ _ q _ => [BitVec.ofNat 8 (ceil8 q.toNat)]
  | .readHoldingRegisters _ _ q _ => [BitVec.ofNat 8 (2 * q.toNat)]
  | .readInputRegisters _ _ q _ => [BitVec.ofNat 8 (2 * q.toNat)]
  | .writeSingleCoil _ r v _ => beBytes r ++ beBytes v
  | .writeSingleRegister _ r v _ => beBytes r ++ beBytes v
  | .writeMultipleCoils _ r q _ => beBytes r ++ beBytes q
  | .writeMultipleRegisters _ r q _ => beBytes r ++ beBytes q
  | .rawTransfer _ _ _ _ _ => []
  | .illegalFunction _ _ _ _ _ _ => []

/-- The state the decoder hands to the dispatcher (READY). -/
def readyState (i : Instr) (s : State) : State :=
  { s with
    req := some ⟨i.unit, i.fc s.params, i.reg, i.requestQty, i.viewOff, i.view.length⟩
    txBuf := s.txBuf.writeRun 2 (decoderBytes i)
    plen := i.okPlen
    bkind := kindOf i
    bcap := capOf i
    dofs := dofsOf i
    dlen := dlenOf i
    wofs := 0 }

@[simp] theorem readyState_configured (i : Instr) (s : State) : (readyState i s).configured = s.configured := rfl
@[simp] theorem readyState_cfgUnit (i : Instr) (s : State) : (readyState i s).cfgUnit = s.cfgUnit := rfl
@[simp] theorem readyState_cfgThresh (i : Instr) (s : State) : (readyState i s).cfgThresh = s.cfgThresh := rfl
@[simp] theorem readyState_cfgDir (i : Instr) (s : State) : (readyState i s).cfgDir = s.cfgDir := rfl
@[simp] theorem readyState_cfgCb (i : Instr) (s : State) : (readyState i s).cfgCb = s.cfgCb := rfl
@[simp] theorem readyState_obsCount (i : Instr) (s : State) : (readyState i s).obsCount = s.obsCount := rfl
@[simp] theorem readyState_obsTime (i : Instr) (s : State) : (readyState i s).obsTime = s.obsTime := rfl
@[simp] theorem readyState_rxBuf (i : Instr) (s : State) : (readyState i s).rxBuf = s.rxBuf := rfl
@[simp] theorem readyState_rxLen (i : Instr) (s : State) : (readyState i s).rxLen = s.rxLen := rfl
@[simp] theorem readyState_txBuf (i : Instr) (s : State) : (readyState i s).txBuf = s.txBuf.writeRun 2 (decoderBytes i) :=
  rfl
@[simp] theorem readyState_plen (i : Instr) (s : State) : (readyState i s).plen = i.okPlen := rfl
@[simp] theorem readyState_bkind (i : Instr) (s : State) : (readyState i s).bkind = kindOf i := rfl
@[simp] theorem readyState_bcap (i : Instr) (s : State) : (readyState i s).bcap = capOf i := rfl
@[simp] theorem readyState_dofs (i : Instr) (s : State) : (readyState i s).dofs = dofsOf i := rfl
@[simp] theorem readyState_dlen (i : Instr) (s : State) : (readyState i s).dlen = dlenOf i := rfl
@[simp] theorem readyState_wofs (i : Instr) (s : State) : (readyState i s).wofs = 0 := rfl
@[simp] theorem readyState_dirLine (i : Instr) (s : State) : (readyState i s).dirLine = s.dirLine := rfl
@[simp] theorem readyState_req (i : Instr) (s : State) : (readyState i s).req = some ⟨i.unit, i.fc s.params, i.reg, i.requestQty, i.viewOff, i.view.length⟩ :=
  rfl
@[simp] theorem readyState_status (i : Instr) (s : State) : (readyState i s).status = s.status := rfl
@[simp] theorem readyState_phase (i : Instr) (s : State) : (readyState i s).phase = s.phase := rfl
@[simp] theorem readyState_inProcess (i : Instr) (s : State) : (readyState i s).inProcess = s.inProcess := rfl
@[simp] theorem readyState_phasePath (i : Instr) (s : State) : (readyState i s).phasePath = s.phasePath := rfl
@[simp] theorem readyState_marks (i : Instr) (s : State) : (readyState i s).marks = s.marks := rfl
@[simp] theorem readyState_trace (i : Instr) (s : State) : (readyState i s).trace = s.trace := rfl
@[simp] theorem readyState_params (i : Instr) (s : State) : (readyState i s).params = s.params := rfl
@[simp] theorem readyState_rxQueue (i : Instr) (s : State) : (readyState i s).rxQueue = s.rxQueue := rfl
@[simp] theorem readyState_env (i : Instr) (s : State) : (readyState i s).env = s.env := rfl
@[simp] theorem readyState_host (i : Instr) (s : State) : (readyState i s).host = s.host := rfl

/-- The write-multiple form, decided by `multiValid` (R147, R148). -/
theorem decodeMultiWrite_eq (p : Params) (unit fc : Byte) (reg qty : U16) (limit want : Nat) (body : List Byte)
    (s : State) :
    decodeMultiWrite reg qty limit want (byteCount p unit fc reg qty body) (8 + body.length) s =
      if multiValid qty limit want body then
        .ready (setEcho reg qty (setRequest qty.toNat 7 (bodyData body).length s))
      else .exception 0x03 s := by
  cases body with
  | nil =>
    simp only [decodeMultiWrite, multiValid, Bool.false_eq_true, if_false]
    split
    · rfl
    · split
      · rfl
      · split
        · rfl
        · simp only [List.length_nil] at *; omega
  | cons bc rest =>
    have hlen : 8 + (bc :: rest).length = 9 + rest.length := by rw [List.length_cons]; omega
    simp only [decodeMultiWrite, byteCount, multiValid, bodyData, List.length_take, hlen]
    by_cases hq : qtyInRange qty.toNat limit = true
    · have hq' : (decide (1 ≤ qty.toNat) && decide (qty.toNat ≤ limit)) = true := hq
      rw [hq, hq']
      by_cases hw : bc.toNat = want
      · by_cases hf : bc.toNat ≤ rest.length
        · have hf' : ¬ 9 + rest.length < 9 + bc.toNat := by omega
          rw [Nat.min_eq_left hf, if_neg (by nofun), if_neg (by simpa using hw), if_neg hf',
            if_pos (by rw [decide_eq_true hw, decide_eq_true hf]; rfl)]
        · have hf' : 9 + rest.length < 9 + bc.toNat := by omega
          rw [if_neg (by nofun), if_neg (by simpa using hw), if_pos hf', if_neg (by simp [hf])]
          rfl
      · rw [if_neg (by nofun), if_pos hw, if_neg (by simp [hw])]
        rfl
    · have hq' : (decide (1 ≤ qty.toNat) && decide (qty.toNat ≤ limit)) = false := by
        simpa [qtyInRange] using hq
      rw [if_pos (by simp [hq]), hq', if_neg (by simp)]
      rfl

/-- A request that passes its row's checks is dispatched (READY, R140). -/
theorem exec_of_valid {i : Instr} (h : i.structurallyValid = true) (s : State) :
    exec i s = dispatch (readyState i s) := by
  cases i with
  | readCoils unit reg qty extra => exact congrArg finishDecode (if_pos h)
  | readDiscreteInputs unit reg qty extra => exact congrArg finishDecode (if_pos h)
  | readHoldingRegisters unit reg qty extra => exact congrArg finishDecode (if_pos h)
  | readInputRegisters unit reg qty extra => exact congrArg finishDecode (if_pos h)
  | writeSingleCoil unit reg value extra =>
    exact congrArg finishDecode (if_pos (by simpa [Instr.structurallyValid] using h))
  | writeSingleRegister unit reg value extra => rfl
  | writeMultipleCoils unit reg qty body =>
    exact congrArg finishDecode ((decodeMultiWrite_eq ..).trans (if_pos h))
  | writeMultipleRegisters unit reg qty body =>
    exact congrArg finishDecode ((decodeMultiWrite_eq ..).trans (if_pos h))
  | rawTransfer unit reg ignored qty extra => exact congrArg finishDecode (if_pos h)
  | illegalFunction unit fc reg b4 b5 extra => exact absurd h nofun

/-- A request that fails a check of its row takes the exception of that row (R155, R251). -/
theorem exec_of_invalid {i : Instr} (h : i.structurallyValid = false) (s : State) :
    exec i s = takeException i.decoderCode (beginDecode i.unit (i.fc s.params) i.reg s) := by
  have h' : ¬ i.structurallyValid = true := by rw [h]; nofun
  cases i with
  | readCoils unit reg qty extra => exact congrArg finishDecode (if_neg h')
  | readDiscreteInputs unit reg qty extra => exact congrArg finishDecode (if_neg h')
  | readHoldingRegisters unit reg qty extra => exact congrArg finishDecode (if_neg h')
  | readInputRegisters unit reg qty extra => exact congrArg finishDecode (if_neg h')
  | writeSingleCoil unit reg value extra =>
    exact congrArg finishDecode (if_neg (by simpa [Instr.structurallyValid] using h'))
  | writeSingleRegister unit reg value extra => exact absurd rfl h'
  | writeMultipleCoils unit reg qty body =>
    exact congrArg finishDecode ((decodeMultiWrite_eq ..).trans (if_neg h'))
  | writeMultipleRegisters unit reg qty body =>
    exact congrArg finishDecode ((decodeMultiWrite_eq ..).trans (if_neg h'))
  | rawTransfer unit reg ignored qty extra => exact congrArg finishDecode (if_neg h')
  | illegalFunction unit fc reg b4 b5 extra => rfl

/-! ### What the READY state is -/

/-- The builder fields fit the data area (R32). -/
theorem readyState_fits (i : Instr) (s : State) : BuilderFits (readyState i s) := by
  cases i <;> rfl

/-- The data area ends where the payload ends (R77). -/
theorem dofs_add_dlen {i : Instr} (h : i.structurallyValid = true) :
    dofsOf i + dlenOf i ≤ 2 + i.okPlen := by
  cases i <;>
    simp [Instr.structurallyValid, dofsOf, dlenOf, kindOf, Instr.okPlen, Instr.requestQty] at h ⊢ <;> omega

/-- What the decoder writes lies in the payload. -/
theorem length_decoderBytes {i : Instr} (h : i.structurallyValid = true) :
    (decoderBytes i).length ≤ i.okPlen := by
  cases i <;> simp [Instr.structurallyValid, decoderBytes, Instr.okPlen] at h ⊢

/-- R154: the payload of a READY request is 1 to 251 bytes long. -/
theorem okPlen_le {i : Instr} (h : i.structurallyValid = true) : 1 ≤ i.okPlen ∧ i.okPlen ≤ 251 := by
  cases i <;> simp [Instr.structurallyValid, Instr.okPlen, ceil8] at h ⊢ <;> omega

theorem capOf_le {i : Instr} (h : i.structurallyValid = true) : capOf i ≤ 2000 := by
  cases i <;> simp [Instr.structurallyValid, capOf, kindOf, Instr.requestQty] at h ⊢ <;> omega

theorem dlenOf_le {i : Instr} (h : i.structurallyValid = true) : dlenOf i ≤ 250 := by
  cases i <;> simp [Instr.structurallyValid, dlenOf, kindOf, Instr.requestQty, ceil8] at h ⊢ <;> omega

/-- The state in which the callback of a READY request runs. -/
theorem invoked_readyState (i : Instr) (s : State) :
    invoked (readyState i s) =
      emit (.callback i.unit (i.fc s.params) i.reg i.requestQty (s.rxBuf.readRun i.viewOff i.view.length))
        (clearData (enter .dispatching (readyState i s))) := rfl

/-- The request the callback's accessors read (R35, R188, R189). -/
theorem curReq_invoked (i : Instr) (s : State) :
    curReq (invoked (readyState i s)) =
      ⟨i.unit, i.fc s.params, i.reg, i.requestQty, i.viewOff, i.view.length⟩ := rfl

theorem rxBuf_invoked (i : Instr) (s : State) : (invoked (readyState i s)).rxBuf = s.rxBuf := rfl

/-- `TX_BUF` when the callback starts: the decoder's bytes, then the cleared data area (R180). -/
theorem dispatching_txBuf (i : Instr) (s : State) :
    (clearData (enter .dispatching (readyState i s))).txBuf =
      (s.txBuf.writeRun 2 (decoderBytes i)).writeRun (dofsOf i) (List.replicate (dlenOf i) 0x00) := rfl

/-- Outside the payload nothing has been written when the callback starts. -/
theorem clearData_outside {i : Instr} (h : i.structurallyValid = true) (s : State) (a : Nat)
    (ha : a < 2 ∨ 2 + i.okPlen ≤ a) :
    (clearData (enter .dispatching (readyState i s))).txBuf.read a = s.txBuf.read a := by
  have h1 := dofs_add_dlen h
  have h2 := length_decoderBytes h
  have h3 : 2 ≤ dofsOf i := by unfold dofsOf; split <;> omega
  rw [dispatching_txBuf, Memory.read_writeRun_outside _ (by rw [List.length_replicate]; omega),
    Memory.read_writeRun_outside _ (by omega)]

/-! ### What an instruction can do -/

/-- The state from which a decoder exception's response is built (R155). -/
def exceptionStart (i : Instr) (s : State) : State :=
  enter .responding (setStatus (.exc i.decoderCode) (enter .exceptionReady
    (beginDecode i.unit (i.fc s.params) i.reg s)))

/-- The state from which the no-callback response is built (R182). -/
def noCallbackStart (i : Instr) (s : State) : State :=
  enter .responding (setStatus (.exc 0x04) (clearData (enter .dispatching (readyState i s))))

/-- Everything an instruction that ends in a state can do: the exception of its row, server device failure, or a
callback with its calls and what the encoder makes of the status it returned. -/
inductive ExecCase (i : Instr) (s t : State) : Prop where
  | failed (hv : i.structurallyValid = false) (htx : s.env.txCompletes = true)
      (ht : t = responded 3 (buildException i.decoderCode (exceptionStart i s)))
  | noCallback (hv : i.structurallyValid = true) (hcb : s.cfgCb = false) (htx : s.env.txCompletes = true)
      (ht : t = responded 3 (buildException 0x04 (noCallbackStart i s)))
  | called (hv : i.structurallyValid = true) (hcb : s.cfgCb = true) (u : State) (calls : List PortEvent) (st : Status)
      (hr : runActs s.env.cb.acts (invoked (readyState i s)) = .next u)
      (hu : CallStep (invoked (readyState i s)) u)
      (hcalls : ∀ c ∈ calls, isCallEvent c = true)
      (htr : u.trace = (invoked (readyState i s)).trace ++ calls)
      (he : s.env.cb.ends = .returns st) (hst : st ≠ .exc 0x00)
      (ht : encodeResponse st (returned st u) = .next t)

/-- The inversion of `exec`. -/
theorem exec_cases {i : Instr} {s t : State} (h : exec i s = .next t) : ExecCase i s t := by
  cases hv : i.structurallyValid with
  | false =>
    rw [exec_of_invalid hv, takeException_eq] at h
    by_cases htx : s.env.txCompletes = true
    · exact .failed hv htx (by have h' := (if_pos htx).symm.trans h; cases h'; rfl)
    · have h' := (if_neg htx).symm.trans h; cases h'
  | true =>
    rw [exec_of_valid hv] at h
    cases hcb : s.cfgCb with
    | false =>
      rw [dispatch_no_callback (s := readyState i s) hcb, encodeResponse_eq] at h
      by_cases htx : s.env.txCompletes = true
      · exact .noCallback hv hcb htx (by have h' := (if_pos htx).symm.trans h; cases h'; rfl)
      · have h' := (if_neg htx).symm.trans h; cases h'
    | true =>
      by_cases hp : CbAct.process ∈ s.env.cb.acts
      · rw [dispatch_reentrant (s := readyState i s) hcb hp] at h; cases h
      · obtain ⟨u, calls, hr, hu, _, hcalls, htr⟩ := runActs_next hp (invoked (readyState i s))
        cases he : s.env.cb.ends with
        | never => rw [dispatch_never (s := readyState i s) hcb hr he] at h; cases h
        | returns st =>
          by_cases hst : st = .exc 0x00
          · subst hst; rw [dispatch_statusZero (s := readyState i s) hcb hr he] at h; cases h
          · rw [dispatch_returns (s := readyState i s) hcb hr he hst] at h
            exact .called hv hcb u calls st hr hu hcalls htr he hst h

end Sys2Proof.Machine
end

