-- ==== Sys2Proof/Laws/Runs.lean ====
section
/-! SUPPORT. What a callback does during a function, whatever calls it makes, said once (43_dispatch_builder.md R183 to
R190), and the whole of an instruction whose callback returns a status. -/

namespace Sys2Proof.Machine

/-! ### Marks as sets -/

theorem Marks.has_marksAfter (m : Mark) (l : List Mark) (ms : Marks) :
    (marksAfter ms l).has m = (ms.has m || l.contains m) := by
  induction l generalizing ms with
  | nil => simp [marksAfter]
  | cons a l ih =>
    rw [marksAfter, ih, Marks.has_add, List.contains_cons]
    by_cases h : m = a
    · subst h; simp
    · have h' : (m == a) = false := by simpa using h
      simp [h, h']

theorem Marks.ext_has {a b : Marks} (h : ∀ m, a.has m = b.has m) : a = b := by
  obtain ⟨a1, a2, a3, a4, a5⟩ := a
  obtain ⟨b1, b2, b3, b4, b5⟩ := b
  have h1 := h .builderOverflow
  have h2 := h .builderKind
  have h3 := h .builderShort
  have h4 := h .accessorRange
  have h5 := h .accessorFunction
  simp only [Marks.has] at h1 h2 h3 h4 h5
  subst h1 h2 h3 h4 h5
  rfl

theorem marksAfter_append (ms : Marks) (l l' : List Mark) :
    marksAfter ms (l ++ l') = marksAfter (marksAfter ms l) l' := by
  induction l generalizing ms with
  | nil => rfl
  | cons a l ih => exact ih _

/-! ### One call -/

/-- The bytes one `WriteRegister` writes (R184). -/
def itemBytes (k : BuilderKind) (v : U16) : List Byte := if k = .rawByte then [lo8 v] else beBytes v

/-- How many bytes that is. -/
def itemSize (k : BuilderKind) : Nat := if k = .rawByte then 1 else 2

@[simp] theorem length_itemBytes (k : BuilderKind) (v : U16) : (itemBytes k v).length = itemSize k := by
  unfold itemBytes itemSize; split <;> rfl

theorem writeBit_accepted {s : State} (hk : s.bkind = .bit) (hw : s.wofs < s.bcap) (b : Bool) :
    writeBit b s = { s with
      txBuf := s.txBuf.write (s.dofs + s.wofs / 8)
        (setBit (s.txBuf.read (s.dofs + s.wofs / 8)) (s.wofs % 8) b)
      wofs := s.wofs + 1 } := by
  simp [writeBit, hk, Nat.not_le.2 hw, writeTx]

theorem writeBit_full {s : State} (hk : s.bkind = .bit) (hw : s.bcap ≤ s.wofs) (b : Bool) :
    writeBit b s = markFault .builderOverflow s := by
  simp [writeBit, hk, hw]

theorem writeRegister_accepted {s : State} (hk : s.bkind = .reg ∨ s.bkind = .rawByte) (hw : s.wofs < s.bcap)
    (v : U16) :
    writeRegister v s = { s with
      txBuf := s.txBuf.writeRun (s.dofs + itemSize s.bkind * s.wofs) (itemBytes s.bkind v)
      wofs := s.wofs + 1 } := by
  rcases hk with hk | hk <;>
    simp [writeRegister, hk, Nat.not_le.2 hw, itemSize, itemBytes, writeTxRun, writeTx, Memory.writeRun]

theorem writeRegister_full {s : State} (hk : s.bkind = .reg ∨ s.bkind = .rawByte) (hw : s.bcap ≤ s.wofs)
    (v : U16) : writeRegister v s = markFault .builderOverflow s := by
  rcases hk with hk | hk <;> simp [writeRegister, hk, hw]

/-- What an accessor answers for a request, from its value there and whether it serves the function (R188 to R190). -/
def answer {α : Type} (v : Option α) (serves : Bool) : Access α :=
  match v with
  | some v => .value v
  | none => .err (if serves then .accessorRange else .accessorFunction)

/-- In this state the accessors answer what the request `i` carries. -/
def AccessorsAnswer (i : Instr) (s : State) : Prop :=
  (∀ k, coilAccess k s = answer (coilOf i k) (servesCoil i)) ∧
    ∀ k, registerAccess k s = answer (registerOf i k) (servesRegister i)

theorem coilOf_unserved {i : Instr} (h : servesCoil i = false) (k : Nat) : coilOf i k = none := by
  cases i <;> first | rfl | cases h

theorem registerOf_unserved {i : Instr} (h : servesRegister i = false) (k : Nat) : registerOf i k = none := by
  cases i <;> first | rfl | cases h

/-- `TX_BUF` after an accepted builder write (R183, R184). -/
def itemWritten (s : State) (a : CbAct) : Memory :=
  match a with
  | .writeBit b =>
    s.txBuf.write (s.dofs + s.wofs / 8) (setBit (s.txBuf.read (s.dofs + s.wofs / 8)) (s.wofs % 8) b)
  | .writeRegister v => s.txBuf.writeRun (s.dofs + itemSize s.bkind * s.wofs) (itemBytes s.bkind v)
  | .readCoilValue _ => s.txBuf
  | .readRegisterValue _ => s.txBuf
  | .process => s.txBuf

/-- One port call other than `Process()`, in full: its event, and a write of the admitted kind that is accepted, one that
is ignored for want of capacity, or at most a mark (R183 to R190). -/
theorem runAct_eq {i : Instr} {s : State} (hk : s.bkind = kindOf i) (ha : AccessorsAnswer i s) {a : CbAct}
    (hp : a ≠ .process) :
    runAct a s = .next (
      if admits s.bkind a then
        if s.bcap ≤ s.wofs then
          { s with trace := s.trace ++ (eventOf i a).toList, marks := Marks.add .builderOverflow s.marks }
        else
          { s with
            trace := s.trace ++ (eventOf i a).toList
            txBuf := itemWritten s a
            wofs := s.wofs + 1 }
      else
        { s with
          trace := s.trace ++ (eventOf i a).toList
          marks := marksAfter s.marks (markOf i a).toList }) := by
  cases a with
  | process => exact absurd rfl hp
  | writeBit b =>
    by_cases hb : s.bkind = .bit
    · by_cases hc : s.bcap ≤ s.wofs <;>
        simp [runAct, writeBit, hb, hc, admits, emit, markFault, eventOf, itemWritten, writeTx]
    · have hb' : ¬ kindOf i = .bit := by rw [← hk]; exact hb
      simp [runAct, writeBit, hb, hb', admits, emit, markFault, eventOf, markOf, marksAfter]
  | writeRegister v =>
    cases hb : s.bkind with
    | bit => simp [runAct, writeRegister, hb, ← hk, admits, emit, markFault, eventOf, markOf, marksAfter]
    | none => simp [runAct, writeRegister, hb, ← hk, admits, emit, markFault, eventOf, markOf, marksAfter]
    | reg =>
      by_cases hc : s.bcap ≤ s.wofs <;>
        simp [runAct, writeRegister, hb, hc, admits, emit, markFault, eventOf, itemWritten, writeTxRun, itemSize,
          itemBytes]
    | rawByte =>
      by_cases hc : s.bcap ≤ s.wofs <;>
        simp [runAct, writeRegister, hb, hc, admits, emit, markFault, eventOf, itemWritten, writeTx, itemSize,
          itemBytes, Memory.writeRun]
  | readCoilValue k =>
    have hnone : servesCoil i = false → coilOf i k = none := fun h => coilOf_unserved h k
    simp only [runAct, ha.1 k, eventOf, markOf, admits]
    cases hv : coilOf i k <;> cases hs : servesCoil i <;>
      simp_all [answer, Access.marked, Access.result, emit, markFault, marksAfter]
  | readRegisterValue k =>
    have hnone : servesRegister i = false → registerOf i k = none := fun h => registerOf_unserved h k
    simp only [runAct, ha.2 k, eventOf, markOf, admits]
    cases hv : registerOf i k <;> cases hs : servesRegister i <;>
      simp_all [answer, Access.marked, Access.result, emit, markFault, marksAfter]

/-! ### A run of calls -/

/-- `TX_BUF` after a run of calls: the accepted writes one after the other. -/
def itemsWritten : List CbAct → State → Memory
  | [], s => s.txBuf
  | a :: as, s =>
    if admits s.bkind a then
      if s.bcap ≤ s.wofs then s.txBuf
      else itemsWritten as { s with txBuf := itemWritten s a, wofs := s.wofs + 1 }
    else itemsWritten as s

theorem itemsWritten_full {s : State} (h : s.bcap ≤ s.wofs) (acts : List CbAct) : itemsWritten acts s = s.txBuf := by
  induction acts with
  | nil => rfl
  | cons a as ih => rw [itemsWritten, if_pos h, ih]; split <;> rfl

/-- The writes depend on the buffer and the builder fields alone. -/
theorem itemsWritten_congr {s t : State} (h : t = { s with trace := t.trace, marks := t.marks }) (acts : List CbAct) :
    itemsWritten acts t = itemsWritten acts s := by
  induction acts generalizing s t with
  | nil => rw [h]; rfl
  | cons a as ih =>
    rw [h]
    simp only [itemsWritten]
    have hi : itemWritten { s with trace := t.trace, marks := t.marks } a = itemWritten s a := by cases a <;> rfl
    split
    · split
      · rfl
      · exact ih (by rw [hi])
    · exact ih rfl

/-- A run of calls without `Process()`, in full: what is seen, what is written, how far, and what is marked. -/
theorem runActs_eq {i : Instr} {s : State} {acts : List CbAct} (hk : s.bkind = kindOf i) (ha : AccessorsAnswer i s)
    (hp : CbAct.process ∉ acts) (hw : s.wofs ≤ s.bcap) :
    runActs acts s = .next { s with
      txBuf := itemsWritten acts s
      wofs := min (s.wofs + builderWrites s.bkind acts) s.bcap
      trace := s.trace ++ acts.filterMap (eventOf i)
      marks := marksAfter s.marks
        (overflowMarks (s.wofs + builderWrites s.bkind acts) s.bcap ++ acts.filterMap (markOf i)) } := by
  induction acts generalizing s with
  | nil =>
    have h1 : min s.wofs s.bcap = s.wofs := by omega
    have h2 : ¬ s.bcap < s.wofs := by omega
    simp [runActs, itemsWritten, builderWrites, overflowMarks, h1, h2, marksAfter]
  | cons a as ih =>
    simp only [List.mem_cons, not_or] at hp
    rw [runActs, runAct_eq hk ha (Ne.symm hp.1), andThen_next]
    have hev : ∀ l : List PortEvent, l ++ (eventOf i a).toList ++ as.filterMap (eventOf i) =
        l ++ (a :: as).filterMap (eventOf i) := fun l => by
      cases he : eventOf i a <;> simp [he]
    by_cases hadm : admits s.bkind a = true
    · have hcount : builderWrites s.bkind (a :: as) = builderWrites s.bkind as + 1 := by
        simp [builderWrites, hadm]
      have hmark : markOf i a = none := by
        cases a <;> simp [markOf, ← hk, hadm] <;> simp [admits] at hadm
      rw [if_pos hadm]
      by_cases hc : s.bcap ≤ s.wofs
      · rw [if_pos hc]
        refine (ih (s := { s with
          trace := s.trace ++ (eventOf i a).toList, marks := Marks.add .builderOverflow s.marks }) hk ha hp.2 hw).trans ?_
        have h1 : min (s.wofs + builderWrites s.bkind as) s.bcap = min (s.wofs + builderWrites s.bkind (a :: as)) s.bcap := by
          omega
        have h2 : s.bcap < s.wofs + builderWrites s.bkind (a :: as) := by omega
        have h3 : itemsWritten as { s with
            trace := s.trace ++ (eventOf i a).toList, marks := Marks.add .builderOverflow s.marks } =
            itemsWritten (a :: as) s := by
          rw [itemsWritten_full hc]; exact (itemsWritten_congr rfl as).trans (itemsWritten_full hc as)
        rw [h3]
        simp only [h1, hev]
        congr 2
        refine Marks.ext_has fun m => ?_
        simp only [Marks.has_marksAfter, Marks.has_add, overflowMarks, if_pos h2, List.filterMap_cons, hmark,
          List.contains_eq_mem, List.mem_append, List.mem_singleton]
        cases s.marks.has m <;> split <;> simp [eq_comm]
      · rw [if_neg hc]
        refine (ih (s := { s with
          trace := s.trace ++ (eventOf i a).toList, txBuf := itemWritten s a, wofs := s.wofs + 1 })
          hk ha hp.2 (by show s.wofs + 1 ≤ s.bcap; omega)).trans ?_
        have h1 : s.wofs + 1 + builderWrites s.bkind as = s.wofs + builderWrites s.bkind (a :: as) := by omega
        have h3 : itemsWritten (a :: as) s =
            itemsWritten as { s with txBuf := itemWritten s a, wofs := s.wofs + 1 } := by
          rw [itemsWritten, if_pos hadm, if_neg hc]
        rw [h3]
        simp only [h1, hev, List.filterMap_cons, hmark]
        congr 2
        exact itemsWritten_congr rfl as
    · have hcount : builderWrites s.bkind (a :: as) = builderWrites s.bkind as := by
        simp [builderWrites, hadm]
      rw [if_neg hadm]
      refine (ih (s := { s with
        trace := s.trace ++ (eventOf i a).toList, marks := marksAfter s.marks (markOf i a).toList }) hk ha hp.2 hw).trans ?_
      have h3 : itemsWritten (a :: as) s = itemsWritten as s := by rw [itemsWritten, if_neg hadm]
      rw [h3, hcount]
      simp only [hev]
      congr 2
      · exact itemsWritten_congr rfl as
      · refine Marks.ext_has fun m => ?_
        simp only [Marks.has_marksAfter, List.filterMap_cons, List.contains_eq_mem, List.mem_append]
        cases hm : markOf i a <;> cases s.marks.has m <;> simp [or_left_comm]

/-! ### What the writes leave in `TX_BUF` -/

/-- A run written and then another right after it is one run. -/
theorem Memory.writeRun_append (m : Memory) (a : Nat) (l l' : List Byte) :
    m.writeRun a (l ++ l') = (m.writeRun a l).writeRun (a + l.length) l' := by
  induction l generalizing m a with
  | nil => rfl
  | cons b l ih =>
    rw [List.cons_append, Memory.writeRun, ih, Memory.writeRun, List.length_cons, Nat.add_assoc, Nat.add_comm 1]

/-- The bits a run writes during a bit read (R183, R185): item `w + k` becomes bit `(w + k) mod 8` of byte `(w + k) div 8`
of the data area, as long as it lies within the capacity; every other bit stays. -/
theorem itemsWritten_bits {s : State} (hk : s.bkind = .bit) (hw : s.wofs ≤ s.bcap) (hwf : s.txBuf.wf = true)
    (acts : List CbAct) :
    (itemsWritten acts s).wf = true ∧
      (∀ k, ((itemsWritten acts s).read (s.dofs + k / 8)).getLsbD (k % 8) =
        if s.wofs ≤ k ∧ k < s.bcap ∧ k < s.wofs + (bitWrites acts).length then (bitWrites acts).getD (k - s.wofs) false
        else (s.txBuf.read (s.dofs + k / 8)).getLsbD (k % 8)) ∧
      (∀ a, a < s.dofs ∨ s.dofs + ceil8 s.bcap ≤ a → (itemsWritten acts s).read a = s.txBuf.read a) := by
  induction acts generalizing s with
  | nil =>
    refine ⟨hwf, fun k => ?_, fun _ _ => rfl⟩
    rw [if_neg (by simp only [bitWrites, List.length_nil]; omega)]
    rfl
  | cons a as ih =>
    by_cases hfull : s.bcap ≤ s.wofs
    · rw [itemsWritten_full hfull]
      exact ⟨hwf, fun k => by rw [if_neg (by omega)], fun _ _ => rfl⟩
    · cases a with
      | writeRegister v =>
        have h : itemsWritten (.writeRegister v :: as) s = itemsWritten as s := by simp [itemsWritten, admits, hk]
        rw [h]; exact ih hk hw hwf
      | readCoilValue k => exact ih hk hw hwf
      | readRegisterValue k => exact ih hk hw hwf
      | process => exact ih hk hw hwf
      | writeBit b =>
        have h : itemsWritten (.writeBit b :: as) s =
            itemsWritten as { s with txBuf := itemWritten s (.writeBit b), wofs := s.wofs + 1 } := by
          rw [itemsWritten, if_pos (by simp [admits, hk]), if_neg hfull]
        obtain ⟨h1, h2, h3⟩ := ih (s := { s with txBuf := itemWritten s (.writeBit b), wofs := s.wofs + 1 }) hk
          (by show s.wofs + 1 ≤ s.bcap; omega) (Memory.wf_write hwf _ _)
        rw [h]
        refine ⟨h1, fun k => ?_, fun a ha => ?_⟩
        · refine (h2 k).trans ?_
          show (if s.wofs + 1 ≤ k ∧ k < s.bcap ∧ k < s.wofs + 1 + (bitWrites as).length then _
            else ((s.txBuf.write (s.dofs + s.wofs / 8)
              (setBit (s.txBuf.read (s.dofs + s.wofs / 8)) (s.wofs % 8) b)).read (s.dofs + k / 8)).getLsbD (k % 8)) = _
          rw [Memory.read_write hwf]
          have hl : (bitWrites (.writeBit b :: as)).length = (bitWrites as).length + 1 := rfl
          by_cases hk1 : s.wofs + 1 ≤ k ∧ k < s.bcap ∧ k < s.wofs + 1 + (bitWrites as).length
          · rw [if_pos hk1, if_pos (by rw [hl]; omega)]
            obtain ⟨d, hd⟩ : ∃ d, k - s.wofs = d + 1 := ⟨k - s.wofs - 1, by omega⟩
            have hd' : k - (s.wofs + 1) = d := by omega
            rw [hd, hd']; rfl
          · rw [if_neg hk1]
            by_cases hkw : k = s.wofs
            · have e1 : s.dofs + k / 8 = s.dofs + s.wofs / 8 := by rw [hkw]
              have e2 : k % 8 = s.wofs % 8 := by rw [hkw]
              have e3 : k - s.wofs = 0 := by omega
              have h2 : s.wofs ≤ k ∧ k < s.bcap ∧ k < s.wofs + (bitWrites (.writeBit b :: as)).length := by omega
              rw [if_pos h2, if_pos e1, getLsbD_setBit _ (Nat.mod_lt _ (by omega)), if_pos e2, e3]
              rfl
            · have h2 : ¬ (s.wofs ≤ k ∧ k < s.bcap ∧ k < s.wofs + (bitWrites (.writeBit b :: as)).length) := by omega
              rw [if_neg h2]
              split
              · rename_i he
                rw [getLsbD_setBit _ (Nat.mod_lt _ (by omega)), if_neg (by omega), he]
              · rfl
        · refine (h3 a ha).trans (Memory.read_write_other _ _ ?_)
          have hin : s.wofs / 8 < ceil8 s.bcap := by unfold ceil8; omega
          omega

/-- The bytes a run writes during a register read or a raw transfer (R184, R185): one item after the other from the write
offset on, as far as the capacity. -/
theorem itemsWritten_registers {s : State} (hk : s.bkind = .reg ∨ s.bkind = .rawByte) (hw : s.wofs ≤ s.bcap)
    (acts : List CbAct) :
    itemsWritten acts s = s.txBuf.writeRun (s.dofs + itemSize s.bkind * s.wofs)
      (((registerWrites acts).take (s.bcap - s.wofs)).flatMap (itemBytes s.bkind)) := by
  induction acts generalizing s with
  | nil => simp [itemsWritten, registerWrites, Memory.writeRun]
  | cons a as ih =>
    by_cases hfull : s.bcap ≤ s.wofs
    · rw [itemsWritten_full hfull, show s.bcap - s.wofs = 0 by omega]; rfl
    · cases a with
      | writeBit b =>
        have h : itemsWritten (.writeBit b :: as) s = itemsWritten as s := by
          rcases hk with hk | hk <;> simp [itemsWritten, admits, hk]
        rw [h]; exact ih hk hw
      | readCoilValue k => exact ih hk hw
      | readRegisterValue k => exact ih hk hw
      | process => exact ih hk hw
      | writeRegister v =>
        have h : itemsWritten (.writeRegister v :: as) s =
            itemsWritten as { s with txBuf := itemWritten s (.writeRegister v), wofs := s.wofs + 1 } := by
          rw [itemsWritten, if_pos (by rcases hk with hk | hk <;> simp [admits, hk]), if_neg hfull]
        obtain ⟨d, hd⟩ : ∃ d, s.bcap - s.wofs = d + 1 := ⟨s.bcap - s.wofs - 1, by omega⟩
        have hd' : s.bcap - (s.wofs + 1) = d := by omega
        rw [h]
        refine (ih (s := { s with txBuf := itemWritten s (.writeRegister v), wofs := s.wofs + 1 }) hk
          (by show s.wofs + 1 ≤ s.bcap; omega)).trans ?_
        simp only [hd, hd', registerWrites, List.take_succ_cons, List.flatMap_cons, Memory.writeRun_append,
          length_itemBytes, itemWritten, Nat.mul_add, Nat.mul_one, Nat.add_assoc]

/-- During a write function nothing is written (R186). -/
theorem itemsWritten_none {s : State} (hk : s.bkind = .none) (acts : List CbAct) : itemsWritten acts s = s.txBuf := by
  induction acts generalizing s with
  | nil => rfl
  | cons a as ih =>
    rw [itemsWritten, if_neg (by cases a <;> simp [admits, hk])]; exact ih hk

/-! ### The accessors inside a callback -/

theorem coilAccess_eq {s : State} {r : Req} (h : curReq s = r) (k : Nat) :
    coilAccess k s =
      if r.fc = 0x05 then
        if k ≠ 0 then .err .accessorRange else .value (s.rxBuf.read r.viewOff == 0xFF#8)
      else if r.fc = 0x0F then
        if r.qty ≤ k then .err .accessorRange
        else .value ((s.rxBuf.read (r.viewOff + k / 8)).getLsbD (k % 8))
      else .err .accessorFunction := by
  subst h; rfl

theorem registerAccess_eq {s : State} {r : Req} (h : curReq s = r) (k : Nat) :
    registerAccess k s =
      if r.fc = 0x06 then
        if k ≠ 0 then .err .accessorRange
        else .value (be16 (s.rxBuf.read r.viewOff) (s.rxBuf.read (r.viewOff + 1)))
      else if r.fc = 0x10 then
        if r.qty ≤ k then .err .accessorRange
        else .value (be16 (s.rxBuf.read (r.viewOff + 2 * k)) (s.rxBuf.read (r.viewOff + 2 * k + 1)))
      else .err .accessorFunction := by
  subst h; rfl

/-- A byte of a run, from what the run spells. -/
theorem Memory.read_of_readRun {m : Memory} {a n : Nat} {l : List Byte} (h : m.readRun a n = l) {k : Nat}
    (hk : k < n) : m.read (a + k) = l.getD k 0 := by
  rw [List.getD_eq_getElem?_getD, ← h, Memory.getElem?_readRun, if_pos hk]; rfl

/-- During the callback of a READY request whose payload view stands in `RX_BUF`, the accessors answer what the request
carries (R188 to R190). -/
theorem accessorsAnswer_invoked {i : Instr} {s : State} (hv : i.structurallyValid = true) (hview : rxHoldsView i s) :
    AccessorsAnswer i (invoked (readyState i s)) := by
  have hraw : ∀ fc : Byte, standardCodes.contains fc = true → s.params.fcRaw ≠ fc := fun fc h he => by
    have := fcRaw_not_standard s.params
    rw [he, h] at this; cases this
  refine ⟨fun k => ?_, fun k => ?_⟩
  · cases i with
    | writeSingleCoil unit reg value extra =>
      have hb : s.rxBuf.read 4 = hi8 value := Memory.read_of_readRun (k := 0) hview (by simp [Instr.view])
      have hval : value = 0x0000#16 ∨ value = 0xFF00#16 := by simpa [Instr.structurallyValid] using hv
      rw [coilAccess_eq (r := ⟨unit, 0x05, reg, 1, 4, 2⟩) rfl, rxBuf_invoked]
      simp only [if_pos, coilOf, hb, servesCoil]
      by_cases hk : k = 0
      · subst hk; rcases hval with rfl | rfl <;> rfl
      · simp [hk, answer]
    | writeMultipleCoils unit reg qty body =>
      cases body with
      | nil => cases hv
      | cons bc data =>
        simp only [Instr.structurallyValid, multiValid, Bool.and_eq_true, decide_eq_true_eq] at hv
        have hlen : (data.take bc.toNat).length = bc.toNat := by rw [List.length_take]; omega
        have hview' : s.rxBuf.readRun 7 bc.toNat = data.take bc.toNat := by
          simpa only [rxHoldsView, Instr.viewOff, Instr.view, bodyData, hlen] using hview
        rw [coilAccess_eq (r := ⟨unit, 0x0F, reg, qty.toNat, 7, (data.take bc.toNat).length⟩) rfl, rxBuf_invoked]
        dsimp only
        rw [if_neg (by decide), if_pos (by decide)]
        simp only [coilOf, servesCoil, bodyData]
        by_cases hk : k < qty.toNat
        · rw [if_neg (by omega), if_pos hk, Memory.read_of_readRun hview' (by rw [hv.1.2]; unfold ceil8; omega)]
          rfl
        · rw [if_pos (by omega), if_neg hk]; rfl
    | rawTransfer unit reg ignored qty extra =>
      rw [coilAccess_eq (curReq_invoked _ s)]
      exact (if_neg (hraw _ rfl)).trans (if_neg (hraw _ rfl))
    | illegalFunction unit fc reg b4 b5 extra => cases hv
    | _ => rfl
  · cases i with
    | writeSingleRegister unit reg value extra =>
      have hb : s.rxBuf.read 4 = hi8 value := Memory.read_of_readRun (k := 0) hview (by simp [Instr.view])
      have hb1 : s.rxBuf.read 5 = lo8 value := Memory.read_of_readRun (k := 1) hview (by simp [Instr.view])
      rw [registerAccess_eq (r := ⟨unit, 0x06, reg, 1, 4, 2⟩) rfl, rxBuf_invoked]
      simp only [if_pos, registerOf, hb, hb1, be16_hi8_lo8, servesRegister]
      by_cases hk : k = 0 <;> simp [hk, answer]
    | writeMultipleRegisters unit reg qty body =>
      cases body with
      | nil => cases hv
      | cons bc data =>
        simp only [Instr.structurallyValid, multiValid, Bool.and_eq_true, decide_eq_true_eq] at hv
        have hlen : (data.take bc.toNat).length = bc.toNat := by rw [List.length_take]; omega
        have hview' : s.rxBuf.readRun 7 bc.toNat = data.take bc.toNat := by
          simpa only [rxHoldsView, Instr.viewOff, Instr.view, bodyData, hlen] using hview
        rw [registerAccess_eq (r := ⟨unit, 0x10, reg, qty.toNat, 7, (data.take bc.toNat).length⟩) rfl, rxBuf_invoked]
        dsimp only
        rw [if_neg (by decide), if_pos (by decide)]
        simp only [registerOf, servesRegister, bodyData]
        by_cases hk : k < qty.toNat
        · rw [if_neg (by omega), if_pos hk, Nat.add_assoc, Memory.read_of_readRun hview' (k := 2 * k) (by omega),
            Memory.read_of_readRun hview' (k := 2 * k + 1) (by omega)]
          rfl
        · rw [if_pos (by omega), if_neg hk]; rfl
    | rawTransfer unit reg ignored qty extra =>
      rw [registerAccess_eq (curReq_invoked _ s)]
      exact (if_neg (hraw _ rfl)).trans (if_neg (hraw _ rfl))
    | illegalFunction unit fc reg b4 b5 extra => cases hv
    | _ => rfl

/-! ### An instruction whose callback returns -/

/-- A READY request whose callback makes its port calls and returns a status (R181, R191, R210). -/
theorem exec_returns {i : Instr} {s u : State} {st : Status} (hv : i.structurallyValid = true)
    (hcb : s.cfgCb = true) (hr : runActs s.env.cb.acts (invoked (readyState i s)) = .next u)
    (he : s.env.cb.ends = .returns st) (hst : st ≠ .exc 0x00) :
    exec i s = encodeResponse st (returned st u) := by
  rw [exec_of_valid hv]
  exact dispatch_returns (s := readyState i s) hcb hr he hst

/-- The calls of a READY request's callback, in full (R181 to R190). -/
theorem runActs_invoked {i : Instr} {s : State} {acts : List CbAct} (hv : i.structurallyValid = true)
    (hview : rxHoldsView i s) (hp : CbAct.process ∉ acts) :
    runActs acts (invoked (readyState i s)) = .next { invoked (readyState i s) with
      txBuf := itemsWritten acts (invoked (readyState i s))
      wofs := min (builderWrites (kindOf i) acts) (capOf i)
      trace := s.trace ++ [.callback i.unit (i.fc s.params) i.reg i.requestQty i.view] ++ acts.filterMap (eventOf i)
      marks := marksAfter s.marks (callMarks i acts) } := by
  refine (runActs_eq rfl (accessorsAnswer_invoked hv hview) hp (Nat.zero_le _)).trans ?_
  have htr : (invoked (readyState i s)).trace =
      s.trace ++ [.callback i.unit (i.fc s.params) i.reg i.requestQty i.view] := by
    rw [invoked_readyState, show s.rxBuf.readRun i.viewOff i.view.length = i.view from hview]; rfl
  have hn : (invoked (readyState i s)).wofs + builderWrites (invoked (readyState i s)).bkind acts =
      builderWrites (kindOf i) acts := Nat.zero_add _
  rw [htr, hn]
  rfl

/-- A READY request whose callback makes any port calls but `Process()` and returns `OK`: the normal response of what the
calls left in the payload, the fill checked, everything else as `KeepsRest` and `CycleOver` say (R187, R191, R211,
R214). -/
theorem exec_ok {i : Instr} {s : State} {acts : List CbAct} (hv : i.structurallyValid = true) (hcb : s.cfgCb = true)
    (htx : s.env.txCompletes = true) (hwf : s.txBuf.wf = true) (hview : rxHoldsView i s)
    (he : s.env.cb = { acts := acts, ends := .returns .ok }) (hp : CbAct.process ∉ acts) {payload : List Byte}
    (hpay : (itemsWritten acts (invoked (readyState i s))).readRun 2 i.okPlen = payload) :
    ∃ t, exec i s = .next t ∧
      t.trace = s.trace ++ [.callback i.unit (i.fc s.params) i.reg i.requestQty i.view] ++
        acts.filterMap (eventOf i) ++ [.callbackReturned .ok] ++ sendEvents s.cfgDir
          (withChecksum s.params ([i.unit, i.fc s.params] ++ payload)) ∧
      t.txBuf.readRun 0 (4 + i.okPlen) = withChecksum s.params ([i.unit, i.fc s.params] ++ payload) ∧
      (∀ a, 4 + i.okPlen ≤ a → t.txBuf.read a = s.txBuf.read a) ∧
      t.plen = i.okPlen ∧ t.bkind = kindOf i ∧ t.bcap = capOf i ∧ t.dofs = dofsOf i ∧ t.dlen = dlenOf i ∧
      t.wofs = min (builderWrites (kindOf i) acts) (capOf i) ∧ t.marks = marksAfter s.marks (okMarks i acts) ∧
      t.dirLine = (if s.cfgDir then false else s.dirLine) ∧ KeepsRest s t ∧ CycleOver t := by
  have hr := runActs_invoked hv hview hp
  obtain ⟨_, hs, _⟩ := runActs_of_next hr
  generalize hu : ({ invoked (readyState i s) with
      txBuf := itemsWritten acts (invoked (readyState i s))
      wofs := min (builderWrites (kindOf i) acts) (capOf i)
      trace := s.trace ++ [.callback i.unit (i.fc s.params) i.reg i.requestQty i.view] ++ acts.filterMap (eventOf i)
      marks := marksAfter s.marks (callMarks i acts) } : State) = u at hr hs
  have hpu : u.txBuf.readRun 2 i.okPlen = payload := by rw [← hu]; exact hpay
  have hut : u.trace = s.trace ++ [.callback i.unit (i.fc s.params) i.reg i.requestQty i.view] ++
      acts.filterMap (eventOf i) := by rw [← hu]
  have huw : u.wofs = min (builderWrites (kindOf i) acts) (capOf i) := by rw [← hu]
  have hum : u.marks = marksAfter s.marks (callMarks i acts) := by rw [← hu]
  have hwu : u.txBuf.wf = true := hs.wf (Memory.wf_writeRun (Memory.wf_writeRun hwf _ _) _ _)
  have hb : u.bkind = kindOf i := by rw [← hu]; rfl
  have hc : u.bcap = capOf i := by rw [← hu]; rfl
  have hk : KeepsRest s u := by rw [← hu]; constructor <;> simp [invoked]
  clear hu
  have hend : s.env.cb.ends = .returns .ok := by rw [he]
  rw [exec_returns hv hcb (by rw [he]; exact hr) hend nofun, encodeResponse_eq]
  have henv : (returned .ok u).env.txCompletes = true := by simp [returned, hk.env, htx]
  have hpl : (returned .ok u).plen = i.okPlen := by simp [returned, hs.plen_eq, invoked]
  simp only [henv, if_true, hpl]
  generalize hw : enter .responding (returned .ok u) = w
  have hkw : KeepsRest s w := by rw [← hw]; refine hk.trans ?_; constructor <;> simp [returned]
  have hq : curReq w = ⟨i.unit, i.fc s.params, i.reg, i.requestQty, i.viewOff, i.view.length⟩ := by
    rw [← hw]; simp only [curReq, enter_req, returned, checkFill_req, setStatus_req, emit_req, hs.req_eq]; rfl
  have hwt : w.txBuf = u.txBuf := by rw [← hw]; simp [returned]
  have hres := responded_buildNormal (s := w) (by rw [hwt]; exact hwu) i.okPlen
  have hfin := responded_keeps (2 + i.okPlen) (buildNormal w)
  have htr : w.trace = u.trace ++ [.callbackReturned .ok] := by rw [← hw]; simp [returned]
  rw [hq, hkw.cfgDir, hkw.params, hwt, htr, hpu, hut] at hres
  refine ⟨_, rfl, hres.1, hres.2.1, fun a ha => ?_, ?_, ?_, ?_, ?_, ?_, ?_, ?_, ?_, ?_, hfin.2⟩
  · have h1 := dofs_add_dlen hv
    rw [hres.2.2 a ha, hs.outside (readyState_fits i s) a (by right; show dofsOf i + dlenOf i ≤ a; omega)]
    exact clearData_outside hv s a (by omega)
  · rw [← hw]; simp [hpl]
  · rw [← hw]; simp [returned, hb]
  · rw [← hw]; simp [returned, hc]
  · rw [← hw]; simp [returned, hs.dofs_eq]; rfl
  · rw [← hw]; simp [returned, hs.dlen_eq]; rfl
  · rw [← hw]; simp [returned, huw]
  · have hfill : (kindOf i ≠ .none ∧ min (builderWrites (kindOf i) acts) (capOf i) < capOf i) ↔
        builderWrites (kindOf i) acts < capOf i := by
      refine ⟨fun h => by omega, fun h => ⟨fun hn => ?_, by omega⟩⟩
      rw [capOf, if_pos hn] at h; omega
    rw [okMarks, marksAfter_append, ← hum, ← hw]
    simp only [responded_marks, buildNormal_marks, enter_marks, returned, checkFill, setStatus_bkind,
      emit_bkind, hb, setStatus_wofs, emit_wofs, huw, setStatus_bcap, emit_bcap, hc, true_and, hfill]
    split <;> rfl
  · rw [← hw]; simp [returned, hs.dirLine_eq, hk.cfgDir]; simp [invoked]
  · refine hkw.trans (KeepsRest.trans ?_ hfin.1)
    constructor <;> simp

end Sys2Proof.Machine
end

