-- ==== Sys2Proof/Laws/Observed.lean ====
section
/-! SUPPORT. What an instruction that ends in a state shows its environment, which phases it goes through and what it
leaves of `TX_BUF`, each said once (43_dispatch_builder.md, 44_response_encoder.md, 45_poll_cycle.md R231, R241). -/

namespace Sys2Proof.Machine

/-- What the encoder puts on the wire for the status `st`: nothing, or the bytes of one response with its checksum (R210
to R216). The payload length matters for a normal response only. -/
structure Sends (st : Status) (s t : State) (unit : Byte) : Prop where
  out : ∃ out, t.trace = s.trace ++ out ∧ (out = [] ∨ ∃ bytes, out = sendEvents s.cfgDir bytes ∧
    (s.txBuf.wf = true → (st = .ok → 1 ≤ s.plen ∧ s.plen ≤ 251) → ∃ body, bytes = withChecksum s.params body ∧
      3 ≤ body.length ∧ body.length ≤ 253 ∧ body[0]? = some unit))

theorem sends_responded_exception {s : State} (e : Byte) :
    Sends (.exc e) s (responded 3 (buildException e s)) (curReq s).unit where
  out := by
    refine ⟨sendEvents s.cfgDir ((responded 3 (buildException e s)).txBuf.readRun 0 5), rfl,
      .inr ⟨_, rfl, fun hwf _ => ⟨[(curReq s).unit, (curReq s).fc ||| 0x80, e],
        (responded_buildException hwf e).2.1, by simp, by simp, rfl⟩⟩⟩

theorem sends_responded_normal {s : State} :
    Sends .ok s (responded (2 + s.plen) (buildNormal s)) (curReq s).unit where
  out := by
    refine ⟨sendEvents s.cfgDir ((responded (2 + s.plen) (buildNormal s)).txBuf.readRun 0 (2 + s.plen + 2)), rfl,
      .inr ⟨_, rfl, fun hwf h => ⟨[(curReq s).unit, (curReq s).fc] ++ s.txBuf.readRun 2 s.plen, ?_, ?_, ?_, ?_⟩⟩⟩
    · rw [show 2 + s.plen + 2 = 4 + s.plen by omega]
      exact (responded_buildNormal hwf s.plen).2.1
    · have := h rfl; simp; omega
    · have := h rfl; simp; omega
    · simp

/-- Everything the encoder can do when it ends in a state (R210). -/
inductive EncodeCase (st : Status) (s t : State) : Prop where
  | silent (hst : st = .suppress) (ht : t = endCycle (enter .suppressed s))
  | normal (hst : st = .ok) (htx : s.env.txCompletes = true)
      (ht : t = responded (2 + s.plen) (buildNormal (enter .responding s)))
  | exception (e : Byte) (hst : st = .exc e) (htx : s.env.txCompletes = true)
      (ht : t = responded 3 (buildException e (enter .responding s)))

theorem encodeResponse_cases {st : Status} {s t : State} (h : encodeResponse st s = .next t) :
    EncodeCase st s t := by
  rw [encodeResponse_eq] at h
  by_cases htx : s.env.txCompletes = true
  · cases st with
    | suppress => exact .silent rfl (Host.Outcome.next.inj h).symm
    | ok => exact .normal rfl htx (Host.Outcome.next.inj ((if_pos htx).symm.trans h)).symm
    | exc e => exact .exception e rfl htx (Host.Outcome.next.inj ((if_pos htx).symm.trans h)).symm
  · cases st with
    | suppress => exact .silent rfl (Host.Outcome.next.inj h).symm
    | ok => exact absurd ((if_neg htx).symm.trans h) nofun
    | exc e => exact absurd ((if_neg htx).symm.trans h) nofun

/-- The encoder's transmission, phases and buffer, in every outcome that is a state. -/
theorem encodeResponse_shape {st : Status} {s t : State} (h : encodeResponse st s = .next t) :
    Sends st s t (curReq s).unit ∧
      (t.phasePath = s.phasePath ++ [.responding, .idle] ∨
        st = .suppress ∧ t.phasePath = s.phasePath ++ [.suppressed, .idle]) ∧
      (s.txBuf.wf = true → t.txBuf.wf = true) ∧
      (s.txBuf.within 255 = true → s.plen ≤ 251 → t.txBuf.within 255 = true) ∧
      (∀ a, 5 ≤ a → 4 + s.plen ≤ a → t.txBuf.read a = s.txBuf.read a) ∧
      (t.plen = s.plen ∨ t.plen = 1) ∧ (s.dirLine = false → t.dirLine = false) := by
  rcases encodeResponse_cases h with ⟨rfl, rfl⟩ | ⟨rfl, _, rfl⟩ | ⟨e, rfl, _, rfl⟩
  · exact ⟨⟨⟨[], by simp, .inl rfl⟩⟩, .inr ⟨rfl, by simp⟩, by simp, fun h _ => h, by simp, by simp, by simp⟩
  · obtain ⟨⟨o, h1, h2⟩⟩ := sends_responded_normal (s := enter .responding s)
    refine ⟨⟨⟨o, h1, h2⟩⟩, .inl (by simp), fun hwf => ?_, fun hw hp => ?_, fun a h5 ha => ?_, by simp, ?_⟩
    · exact Memory.wf_writeRun (Memory.wf_writeRun hwf 0 [(curReq s).unit, (curReq s).fc]) _ _
    · exact Memory.within_writeRun (Memory.within_writeRun (l := [(curReq s).unit, (curReq s).fc]) hw (by simp))
        (by simp; omega)
    · rw [responded_txBuf, Memory.read_writeRun_outside _ (by rw [length_checksum]; omega), buildNormal_txBuf,
        Memory.read_writeRun_outside _ (by simp; omega), enter_txBuf]
    · simp only [responded_dirLine, buildNormal_dirLine, enter_dirLine]
      intro hd; rw [hd]; split <;> rfl
  · obtain ⟨⟨o, h1, h2⟩⟩ := sends_responded_exception (s := enter .responding s) e
    refine ⟨⟨⟨o, h1, h2⟩⟩, .inl (by simp), fun hwf => ?_, fun hw hp => ?_, fun a h5 ha => ?_, by simp, ?_⟩
    · exact Memory.wf_writeRun (Memory.wf_writeRun hwf 0 [(curReq s).unit, (curReq s).fc ||| 0x80, e]) _ _
    · exact Memory.within_writeRun
        (Memory.within_writeRun (l := [(curReq s).unit, (curReq s).fc ||| 0x80, e]) hw (by simp)) (by simp)
    · rw [responded_txBuf, Memory.read_writeRun_outside _ (by rw [length_checksum]; omega), buildException_txBuf,
        Memory.read_writeRun_outside _ (by simp; omega), enter_txBuf]
    · simp only [responded_dirLine, buildException_dirLine, enter_dirLine]
      intro hd; rw [hd]; split <;> rfl

/-- What the encoder leaves alone: the builder fields and the marks too. -/
theorem encodeResponse_keeps {st : Status} {s t : State} (h : encodeResponse st s = .next t) :
    KeepsRest s t ∧ CycleOver t ∧ t.bkind = s.bkind ∧ t.bcap = s.bcap ∧ t.dofs = s.dofs ∧ t.dlen = s.dlen ∧
      t.wofs = s.wofs ∧ t.marks = s.marks := by
  rcases encodeResponse_cases h with ⟨_, rfl⟩ | ⟨_, _, rfl⟩ | ⟨e, _, _, rfl⟩
  · refine ⟨?_, ?_, rfl, rfl, rfl, rfl, rfl, rfl⟩ <;> constructor <;> simp
  · refine ⟨?_, ?_, by simp, by simp, by simp, by simp, by simp, by simp⟩ <;> constructor <;> simp
  · refine ⟨?_, ?_, by simp, by simp, by simp, by simp, by simp, by simp⟩ <;> constructor <;> simp

/-! ### A decoder exception as an encoder run -/

/-- An instruction that ends in a state ends in an encoder run: from the exception of its row, from server device failure,
or from what the callback left. `w` is the state the encoder starts from. -/
theorem exec_encodes {i : Instr} {s t : State} (h : exec i s = .next t) :
    ∃ st w, encodeResponse st w = .next t ∧ (curReq w).unit = i.unit ∧ w.params = s.params ∧ w.cfgDir = s.cfgDir ∧
      w.dirLine = s.dirLine ∧
      (i.structurallyValid = false ∧ st = .exc i.decoderCode ∧
          w = setStatus st (enter .exceptionReady (beginDecode i.unit (i.fc s.params) i.reg s)) ∨
        i.structurallyValid = true ∧ s.cfgCb = false ∧ st = .exc 0x04 ∧
          w = setStatus st (clearData (enter .dispatching (readyState i s))) ∨
        i.structurallyValid = true ∧ s.cfgCb = true ∧ ∃ u calls, w = returned st u ∧
          runActs s.env.cb.acts (invoked (readyState i s)) = .next u ∧ CallStep (invoked (readyState i s)) u ∧
          (∀ c ∈ calls, isCallEvent c = true) ∧ u.trace = (invoked (readyState i s)).trace ++ calls ∧
          s.env.cb.ends = .returns st ∧ st ≠ .exc 0x00) := by
  cases hv : i.structurallyValid with
  | false =>
    rw [exec_of_invalid hv, takeException] at h
    exact ⟨_, _, h, rfl, by simp, by simp, by simp, .inl ⟨rfl, rfl, rfl⟩⟩
  | true =>
    cases hcb : s.cfgCb with
    | false =>
      rw [exec_of_valid hv, dispatch_no_callback (s := readyState i s) hcb] at h
      exact ⟨_, _, h, rfl, by simp, by simp, by simp, .inr (.inl ⟨rfl, rfl, rfl, rfl⟩)⟩
    | true =>
      cases exec_cases h with
      | failed hv' _ _ => rw [hv] at hv'; cases hv'
      | noCallback _ hcb' _ _ => rw [hcb] at hcb'; cases hcb'
      | called _ _ u calls st hr hu hcalls htr he hst ht =>
        have hk := hu.keeps
        refine ⟨st, returned st u, ht, ?_, ?_, ?_, ?_, .inr (.inr ⟨rfl, rfl, u, calls, rfl, hr, hu, hcalls, htr, he, hst⟩)⟩
        · rw [curReq, returned, checkFill_req, setStatus_req, emit_req, hu.req_eq]; rfl
        · rw [returned, checkFill_params, setStatus_params, emit_params, hk.params]; rfl
        · rw [returned, checkFill_cfgDir, setStatus_cfgDir, emit_cfgDir, hk.cfgDir]; rfl
        · rw [returned, checkFill_dirLine, setStatus_dirLine, emit_dirLine, hu.dirLine_eq]; rfl

/-! ### What an instruction shows and leaves -/

/-- The observation of an instruction: at most one invocation of the callback with its calls and its status, then at most
one transmission, of a response with a good checksum whose first byte is the request's unit (R214, R219, R241). -/
theorem exec_events {i : Instr} {s t : State} (h : exec i s = .next t) :
    ∃ inv out, t.trace = s.trace ++ inv ++ out ∧
      (inv = [] ∨ ∃ v calls st, inv = .callback i.unit (i.fc s.params) i.reg i.requestQty v ::
        calls ++ [.callbackReturned st] ∧ ∀ c ∈ calls, isCallEvent c = true) ∧
      (out = [] ∨ ∃ bytes, out = sendEvents s.cfgDir bytes ∧
        (s.txBuf.wf = true → ∃ body, bytes = withChecksum s.params body ∧ 3 ≤ body.length ∧ body.length ≤ 253 ∧
          body[0]? = some i.unit)) := by
  obtain ⟨st, w, hw, hunit, hpar, hdir, _, hcase⟩ := exec_encodes h
  obtain ⟨⟨out, htr, hout⟩, _⟩ := encodeResponse_shape hw
  rw [hunit, hpar, hdir] at hout
  rcases hcase with ⟨hv, rfl, rfl⟩ | ⟨hv, hcb, rfl, rfl⟩ | ⟨hv, hcb, u, calls, rfl, hr, hu, hcalls, hut, he, hst⟩
  · refine ⟨[], out, by simpa using htr, .inl rfl, ?_⟩
    rcases hout with hout | ⟨bytes, hb, hbody⟩
    · exact .inl hout
    · exact .inr ⟨bytes, hb, fun hwf => hbody (by simpa using hwf) nofun⟩
  · refine ⟨[], out, by simpa using htr, .inl rfl, hout.imp id ?_⟩
    rintro ⟨bytes, hb, hbody⟩
    exact ⟨bytes, hb, fun hwf => hbody (by simpa using Memory.wf_writeRun (Memory.wf_writeRun hwf _ _) _ _) nofun⟩
  · refine ⟨.callback i.unit (i.fc s.params) i.reg i.requestQty (s.rxBuf.readRun i.viewOff i.view.length) ::
      calls ++ [.callbackReturned st], out, ?_, .inr ⟨_, calls, st, rfl, hcalls⟩, hout.imp id ?_⟩
    · rw [htr]
      simp [returned, hut, invoked_readyState]
    · rintro ⟨bytes, hb, hbody⟩
      have hp := okPlen_le hv
      have hpl : (returned st u).plen = i.okPlen := by
        rw [returned, checkFill_plen, setStatus_plen, emit_plen, hu.plen_eq]; rfl
      have hwu : s.txBuf.wf = true → (returned st u).txBuf.wf = true := fun hwf => by
        rw [returned, checkFill_txBuf, setStatus_txBuf, emit_txBuf]
        exact hu.wf (Memory.wf_writeRun (Memory.wf_writeRun hwf _ _) _ _)
      exact ⟨bytes, hb, fun hwf => hbody (hwu hwf) fun _ => by omega⟩

/-- The phases of an instruction (R231). -/
theorem exec_phases {i : Instr} {s t : State} (h : exec i s = .next t) :
    t.phasePath = s.phasePath ++ [.exceptionReady, .responding, .idle] ∨
      t.phasePath = s.phasePath ++ [.dispatching, .responding, .idle] ∨
      t.phasePath = s.phasePath ++ [.dispatching, .suppressed, .idle] := by
  obtain ⟨st, w, hw, _, _, _, _, hcase⟩ := exec_encodes h
  obtain ⟨_, hph, _⟩ := encodeResponse_shape hw
  rcases hcase with ⟨hv, rfl, rfl⟩ | ⟨hv, hcb, rfl, rfl⟩ | ⟨hv, hcb, u, calls, rfl, hr, hu, hcalls, hut, he, hst⟩
  · rcases hph with hph | ⟨hs, _⟩
    · exact .inl (by rw [hph]; simp)
    · cases hs
  · rcases hph with hph | ⟨hs, _⟩
    · exact .inr (.inl (by rw [hph]; simp))
    · cases hs
  · have hp : (returned st u).phasePath = s.phasePath ++ [.dispatching] := by
      rw [returned, checkFill_phasePath, setStatus_phasePath, emit_phasePath, hu.phasePath_eq]; rfl
    rw [hp] at hph
    rcases hph with hph | ⟨_, hph⟩
    · exact .inr (.inl (by rw [hph]; simp))
    · exact .inr (.inr (by rw [hph]; simp))

/-- What an instruction leaves of the transmit side: the canonical form, the bound of R58, the ranges of R31 and R32, the
marks (never cleared) and the line. -/
theorem exec_leaves {i : Instr} {s t : State} (h : exec i s = .next t) :
    (s.txBuf.wf = true → t.txBuf.wf = true) ∧
      (s.txBuf.within 255 = true → t.txBuf.within 255 = true) ∧
      (s.plen ≤ 251 → t.plen ≤ 251) ∧ t.bcap ≤ 2000 ∧ (t.dofs = 2 ∨ t.dofs = 3) ∧ t.dlen ≤ 250 ∧
      t.wofs ≤ t.bcap ∧ (∀ m, s.marks.has m = true → t.marks.has m = true) ∧
      (s.dirLine = false → t.dirLine = false) := by
  obtain ⟨st, w, hw, _, _, _, hdl, hcase⟩ := exec_encodes h
  obtain ⟨_, _, hwf, hin, _, hpl, hd⟩ := encodeResponse_shape hw
  obtain ⟨_, _, _, hbc, hdo, hdn, hwo, hma⟩ := encodeResponse_keeps hw
  rw [hbc, hdo, hdn, hwo, hma]
  rw [hdl] at hd
  rcases hcase with ⟨hv, rfl, rfl⟩ | ⟨hv, hcb, rfl, rfl⟩ | ⟨hv, hcb, u, calls, rfl, hr, hu, _, _, _, _⟩
  · cases encodeResponse_cases hw with
    | silent hst _ => cases hst
    | normal hst _ _ => cases hst
    | exception e _ _ ht =>
      refine ⟨by simpa using hwf, ?_, ?_, by simp, by simp, by simp, by simp, by simp, hd⟩
      · intro hw'
        rw [ht, responded_txBuf, buildException_txBuf]
        refine Memory.within_writeRun (Memory.within_writeRun ?_ (by simp)) (by simp)
        simpa using hw'
      · intro _; rw [ht]; simp
  · have hp := okPlen_le hv
    have hdd := dofs_add_dlen hv
    have hlb := length_decoderBytes hv
    refine ⟨fun h0 => hwf ?_, fun h0 => hin ?_ (by simpa using hp.2), fun _ => ?_, capOf_le hv, ?_, dlenOf_le hv,
      by simp, by simp, hd⟩
    · simpa using Memory.wf_writeRun (Memory.wf_writeRun h0 _ _) _ _
    · exact Memory.within_writeRun (Memory.within_writeRun h0 (by omega)) (by
        rw [List.length_replicate]
        show dofsOf i + dlenOf i ≤ 255
        omega)
    · have : (setStatus (.exc 0x04) (clearData (enter .dispatching (readyState i s)))).plen = i.okPlen := rfl
      rw [this] at hpl
      omega
    · show dofsOf i = 2 ∨ dofsOf i = 3
      unfold dofsOf; split
      · exact .inr rfl
      · exact .inl rfl
  · have hp := okPlen_le hv
    have hdd := dofs_add_dlen hv
    have hlb := length_decoderBytes hv
    have hup : (returned st u).plen = i.okPlen := by
      rw [returned, checkFill_plen, setStatus_plen, emit_plen, hu.plen_eq]; rfl
    have hub : (returned st u).bcap = capOf i := by
      rw [returned, checkFill_bcap, setStatus_bcap, emit_bcap, hu.bcap_eq]; rfl
    have hudo : (returned st u).dofs = dofsOf i := by
      rw [returned, checkFill_dofs, setStatus_dofs, emit_dofs, hu.dofs_eq]; rfl
    have hudl : (returned st u).dlen = dlenOf i := by
      rw [returned, checkFill_dlen, setStatus_dlen, emit_dlen, hu.dlen_eq]; rfl
    have hutx : (returned st u).txBuf = u.txBuf := by
      rw [returned, checkFill_txBuf, setStatus_txBuf, emit_txBuf]
    have hcap := capOf_le hv
    have humk : ∀ m, u.marks.has m = true → (returned st u).marks.has m = true := fun m hm => by
      unfold returned checkFill
      split
      · rw [markFault_marks, Marks.has_add]
        have : (setStatus st (emit (.callbackReturned st) u)).marks = u.marks := rfl
        rw [this, hm, Bool.or_true]
      · exact hm
    rw [hutx] at hwf hin
    rw [hup] at hin hpl
    have huw : (returned st u).wofs ≤ capOf i := by
      rw [returned, checkFill_wofs, setStatus_wofs, emit_wofs]
      exact hu.wofs_le (Nat.zero_le _)
    rw [hub, hudo, hudl]
    refine ⟨fun h0 => hwf (hu.wf (Memory.wf_writeRun (Memory.wf_writeRun h0 _ _) _ _)), fun h0 => hin ?_ hp.2,
      fun _ => by omega, hcap, ?_, dlenOf_le hv, huw, fun m hm => humk m (hu.marks m hm), hd⟩
    · refine hu.within (readyState_fits i s) 255 (show dofsOf i + dlenOf i ≤ 255 by omega) ?_
      exact Memory.within_writeRun (Memory.within_writeRun h0 (by omega)) (by
        rw [List.length_replicate]
        show dofsOf i + dlenOf i ≤ 255
        omega)
    · unfold dofsOf; split
      · exact .inr rfl
      · exact .inl rfl

end Sys2Proof.Machine
end

