-- ==== Sys2Proof/Laws/PerInstr.lean ====
section
/-! SUPPORT. Statements made per instruction: the shape of an instruction's frame (30_encoding.md R70, R71). -/

namespace Sys2Proof.Laws.EncodedFrame

/-- The frame of an instruction is its 6 fixed bytes, its tail and 2 checksum bytes; byte 0 is the unit address and byte 1
the function code; and it passes the checksum check (R70, R71, R124). -/
def Statement (i : Instr) : Prop :=
  ∀ p : Params, (encode p i).length = 8 + i.tail.length ∧ (encode p i)[0]? = some i.unit ∧
    (encode p i)[1]? = some (i.fc p) ∧ checksumOk p (encode p i) = true

theorem of_any (i : Instr) : Statement i := fun p =>
  ⟨length_encode p i, encode_getElem?_zero p i, encode_getElem?_one p i, checksumOk_withChecksum p _⟩

theorem readCoils (unit : Byte) (reg qty : U16) (extra : List Byte) :
    Statement (.readCoils unit reg qty extra) :=
  of_any _

theorem readDiscreteInputs (unit : Byte) (reg qty : U16) (extra : List Byte) :
    Statement (.readDiscreteInputs unit reg qty extra) :=
  of_any _

theorem readHoldingRegisters (unit : Byte) (reg qty : U16) (extra : List Byte) :
    Statement (.readHoldingRegisters unit reg qty extra) :=
  of_any _

theorem readInputRegisters (unit : Byte) (reg qty : U16) (extra : List Byte) :
    Statement (.readInputRegisters unit reg qty extra) :=
  of_any _

theorem writeSingleCoil (unit : Byte) (reg value : U16) (extra : List Byte) :
    Statement (.writeSingleCoil unit reg value extra) :=
  of_any _

theorem writeSingleRegister (unit : Byte) (reg value : U16) (extra : List Byte) :
    Statement (.writeSingleRegister unit reg value extra) :=
  of_any _

theorem writeMultipleCoils (unit : Byte) (reg qty : U16) (body : List Byte) :
    Statement (.writeMultipleCoils unit reg qty body) :=
  of_any _

theorem writeMultipleRegisters (unit : Byte) (reg qty : U16) (body : List Byte) :
    Statement (.writeMultipleRegisters unit reg qty body) :=
  of_any _

theorem rawTransfer (unit : Byte) (reg : U16) (ignored qty : Byte) (extra : List Byte) :
    Statement (.rawTransfer unit reg ignored qty extra) :=
  of_any _

theorem illegalFunction (unit fc : Byte) (reg : U16) (b4 b5 : Byte) (extra : List Byte) :
    Statement (.illegalFunction unit fc reg b4 b5 extra) :=
  of_any _

end Sys2Proof.Laws.EncodedFrame
end

