-- ==== Sys2Proof/Laws/Process.lean ====
section
/-! SUPPORT. What the frame assembler, the validator, a poll and a step can do, each said once
(40_frame_assembler.md, 41_frame_validator.md, 45_poll_cycle.md). -/

namespace Sys2Proof.Machine

-- one theorem at a time: hundreds of small ones at once can exceed the thread memory a check allows
set_option Elab.async false

/-! ### Field by field -/

@[simp] theorem dropFrame_configured (s : State) : (dropFrame s).configured = s.configured :=
  by
  simp [dropFrame, endCycle, enter]
@[simp] theorem dropFrame_cfgUnit (s : State) : (dropFrame s).cfgUnit = s.cfgUnit :=
  by
  simp [dropFrame, endCycle, enter]
@[simp] theorem dropFrame_cfgThresh (s : State) : (dropFrame s).cfgThresh = s.cfgThresh :=
  by
  simp [dropFrame, endCycle, enter]
@[simp] theorem dropFrame_cfgDir (s : State) : (dropFrame s).cfgDir = s.cfgDir := by
  simp [dropFrame, endCycle, enter]
@[simp] theorem dropFrame_cfgCb (s : State) : (dropFrame s).cfgCb = s.cfgCb := by
  simp [dropFrame, endCycle, enter]
@[simp] theorem dropFrame_obsCount (s : State) : (dropFrame s).obsCount = s.obsCount :=
  by
  simp [dropFrame, endCycle, enter]
@[simp] theorem dropFrame_obsTime (s : State) : (dropFrame s).obsTime = s.obsTime :=
  by
  simp [dropFrame, endCycle, enter]
@[simp] theorem dropFrame_rxBuf (s : State) : (dropFrame s).rxBuf = s.rxBuf := by
  simp [dropFrame, endCycle, enter]
@[simp] theorem dropFrame_rxLen (s : State) : (dropFrame s).rxLen = s.rxLen := by
  simp [dropFrame, endCycle, enter]
@[simp] theorem dropFrame_txBuf (s : State) : (dropFrame s).txBuf = s.txBuf := by
  simp [dropFrame, endCycle, enter]
@[simp] theorem dropFrame_plen (s : State) : (dropFrame s).plen = s.plen := by
  simp [dropFrame, endCycle, enter]
@[simp] theorem dropFrame_bkind (s : State) : (dropFrame s).bkind = s.bkind := by
  simp [dropFrame, endCycle, enter]
@[simp] theorem dropFrame_bcap (s : State) : (dropFrame s).bcap = s.bcap := by
  simp [dropFrame, endCycle, enter]
@[simp] theorem dropFrame_dofs (s : State) : (dropFrame s).dofs = s.dofs := by
  simp [dropFrame, endCycle, enter]
@[simp] theorem dropFrame_dlen (s : State) : (dropFrame s).dlen = s.dlen := by
  simp [dropFrame, endCycle, enter]
@[simp] theorem dropFrame_wofs (s : State) : (dropFrame s).wofs = s.wofs := by
  simp [dropFrame, endCycle, enter]
@[simp] theorem dropFrame_dirLine (s : State) : (dropFrame s).dirLine = s.dirLine :=
  by
  simp [dropFrame, endCycle, enter]
@[simp] theorem dropFrame_req (s : State) : (dropFrame s).req = none := by
  simp [dropFrame, endCycle, enter]
@[simp] theorem dropFrame_status (s : State) : (dropFrame s).status = none := by
  simp [dropFrame, endCycle, enter]
@[simp] theorem dropFrame_phase (s : State) : (dropFrame s).phase = .idle := by
  simp [dropFrame, endCycle, enter]
@[simp] theorem dropFrame_inProcess (s : State) : (dropFrame s).inProcess = false :=
  by
  simp [dropFrame, endCycle, enter]
@[simp] theorem dropFrame_phasePath (s : State) : (dropFrame s).phasePath = s.phasePath ++ [.dropped, .idle] :=
  by
  simp [dropFrame, endCycle, enter]
@[simp] theorem dropFrame_marks (s : State) : (dropFrame s).marks = s.marks := by
  simp [dropFrame, endCycle, enter]
@[simp] theorem dropFrame_trace (s : State) : (dropFrame s).trace = s.trace := by
  simp [dropFrame, endCycle, enter]
@[simp] theorem dropFrame_params (s : State) : (dropFrame s).params = s.params := by
  simp [dropFrame, endCycle, enter]
@[simp] theorem dropFrame_rxQueue (s : State) : (dropFrame s).rxQueue = s.rxQueue :=
  by
  simp [dropFrame, endCycle, enter]
@[simp] theorem dropFrame_env (s : State) : (dropFrame s).env = s.env := by
  simp [dropFrame, endCycle, enter]
@[simp] theorem dropFrame_host (s : State) : (dropFrame s).host = s.host := by
  simp [dropFrame, endCycle, enter]

/-! ### Reading a burst -/

/-- `n` reads of a queue that holds them: the state they leave (R104, R107, R57). -/
theorem readBurst_eq (n k : Nat) (s : State) (h : n ≤ s.rxQueue.length) :
    readBurst n k s = some { s with
      rxQueue := s.rxQueue.drop n
      rxBuf := s.rxBuf.writeRun k ((s.rxQueue.take n).take (s.params.rxCap - k))
      trace := s.trace ++ (s.rxQueue.take n).map .rxRead } := by
  induction n generalizing k s with
  | zero => simp [readBurst, Memory.writeRun]
  | succ n ih =>
    unfold readBurst
    split
    · rename_i hq; rw [hq] at h; simp at h
    · rename_i b q hq
      rw [hq] at h
      rw [ih _ _ (by simpa using h)]
      by_cases hk : k < s.params.rxCap
      · obtain ⟨d, hd⟩ : ∃ d, s.params.rxCap - k = d + 1 := ⟨s.params.rxCap - k - 1, by omega⟩
        have hd' : s.params.rxCap - (k + 1) = d := by omega
        simp [hq, hk, hd, hd', Memory.writeRun]
      · have h0 : s.params.rxCap - k = 0 := by omega
        have h1 : s.params.rxCap - (k + 1) = 0 := by omega
        simp [hq, hk, h0, h1, Memory.writeRun]

/-- `n` reads of a queue that holds fewer bytes: one of them finds none (D34). -/
theorem readBurst_none (n k : Nat) (s : State) (h : s.rxQueue.length < n) : readBurst n k s = none := by
  induction n generalizing k s with
  | zero => omega
  | succ n ih =>
    unfold readBurst
    split
    · rfl
    · rename_i b q hq
      rw [hq] at h
      exact ih _ _ (by simpa using h)

/-! ### The assembler in a poll -/

/-- The state right after a poll has taken a burst of `c` bytes (R104, R107). -/
def burstTaken (env : PollEnv) (c : Nat) (s : State) : State :=
  { s with
    env := env
    inProcess := true
    rxBuf := s.rxBuf.writeRun 0 ((s.rxQueue.take c).take s.params.rxCap)
    rxLen := if s.params.rxCap < c then 0 else c
    rxQueue := s.rxQueue.drop c
    obsCount := 0
    trace := s.trace ++ [.rxAvailable c, .now (env.clock % 2 ^ s.params.wt)] ++ (s.rxQueue.take c).map .rxRead
    phase := .silentDetected
    phasePath := [s.phase, .silentDetected] }

@[simp] theorem burstTaken_configured (env : PollEnv) (c : Nat) (s : State) : (burstTaken env c s).configured = s.configured :=
  rfl
@[simp] theorem burstTaken_cfgUnit (env : PollEnv) (c : Nat) (s : State) : (burstTaken env c s).cfgUnit = s.cfgUnit :=
  rfl
@[simp] theorem burstTaken_cfgThresh (env : PollEnv) (c : Nat) (s : State) : (burstTaken env c s).cfgThresh = s.cfgThresh :=
  rfl
@[simp] theorem burstTaken_cfgDir (env : PollEnv) (c : Nat) (s : State) : (burstTaken env c s).cfgDir = s.cfgDir := rfl
@[simp] theorem burstTaken_cfgCb (env : PollEnv) (c : Nat) (s : State) : (burstTaken env c s).cfgCb = s.cfgCb := rfl
@[simp] theorem burstTaken_obsCount (env : PollEnv) (c : Nat) (s : State) : (burstTaken env c s).obsCount = 0 := rfl
@[simp] theorem burstTaken_obsTime (env : PollEnv) (c : Nat) (s : State) : (burstTaken env c s).obsTime = s.obsTime :=
  rfl
@[simp] theorem burstTaken_rxBuf (env : PollEnv) (c : Nat) (s : State) : (burstTaken env c s).rxBuf = s.rxBuf.writeRun 0 ((s.rxQueue.take c).take s.params.rxCap) :=
  rfl
@[simp] theorem burstTaken_rxLen (env : PollEnv) (c : Nat) (s : State) : (burstTaken env c s).rxLen = if s.params.rxCap < c then 0 else c :=
  rfl
@[simp] theorem burstTaken_txBuf (env : PollEnv) (c : Nat) (s : State) : (burstTaken env c s).txBuf = s.txBuf := rfl
@[simp] theorem burstTaken_plen (env : PollEnv) (c : Nat) (s : State) : (burstTaken env c s).plen = s.plen := rfl
@[simp] theorem burstTaken_bkind (env : PollEnv) (c : Nat) (s : State) : (burstTaken env c s).bkind = s.bkind := rfl
@[simp] theorem burstTaken_bcap (env : PollEnv) (c : Nat) (s : State) : (burstTaken env c s).bcap = s.bcap := rfl
@[simp] theorem burstTaken_dofs (env : PollEnv) (c : Nat) (s : State) : (burstTaken env c s).dofs = s.dofs := rfl
@[simp] theorem burstTaken_dlen (env : PollEnv) (c : Nat) (s : State) : (burstTaken env c s).dlen = s.dlen := rfl
@[simp] theorem burstTaken_wofs (env : PollEnv) (c : Nat) (s : State) : (burstTaken env c s).wofs = s.wofs := rfl
@[simp] theorem burstTaken_dirLine (env : PollEnv) (c : Nat) (s : State) : (burstTaken env c s).dirLine = s.dirLine :=
  rfl
@[simp] theorem burstTaken_req (env : PollEnv) (c : Nat) (s : State) : (burstTaken env c s).req = s.req := rfl
@[simp] theorem burstTaken_status (env : PollEnv) (c : Nat) (s : State) : (burstTaken env c s).status = s.status := rfl
@[simp] theorem burstTaken_phase (env : PollEnv) (c : Nat) (s : State) : (burstTaken env c s).phase = .silentDetected :=
  rfl
@[simp] theorem burstTaken_inProcess (env : PollEnv) (c : Nat) (s : State) : (burstTaken env c s).inProcess = true :=
  rfl
@[simp] theorem burstTaken_phasePath (env : PollEnv) (c : Nat) (s : State) : (burstTaken env c s).phasePath = [s.phase, .silentDetected] :=
  rfl
@[simp] theorem burstTaken_marks (env : PollEnv) (c : Nat) (s : State) : (burstTaken env c s).marks = s.marks := rfl
@[simp] theorem burstTaken_trace (env : PollEnv) (c : Nat) (s : State) : (burstTaken env c s).trace = s.trace ++ [.rxAvailable c, .now (env.clock % 2 ^ s.params.wt)] ++ (s.rxQueue.take c).map .rxRead :=
  rfl
@[simp] theorem burstTaken_params (env : PollEnv) (c : Nat) (s : State) : (burstTaken env c s).params = s.params := rfl
@[simp] theorem burstTaken_rxQueue (env : PollEnv) (c : Nat) (s : State) : (burstTaken env c s).rxQueue = s.rxQueue.drop c :=
  rfl
@[simp] theorem burstTaken_env (env : PollEnv) (c : Nat) (s : State) : (burstTaken env c s).env = env := rfl
@[simp] theorem burstTaken_host (env : PollEnv) (c : Nat) (s : State) : (burstTaken env c s).host = s.host := rfl

@[simp] theorem reported_host (env : PollEnv) (rest : List HostEvent) (s : State) :
    reported env { s with host := rest } = reported env s := rfl

theorem rxAvailable_beginPoll (env : PollEnv) (s : State) : rxAvailable (beginPoll env s) = reported env s := by
  unfold rxAvailable reported beginPoll
  cases env.avail <;> rfl

/-- Taking a burst: a missing byte, an oversize burst, or a frame (R104, R107, D34). -/
theorem takeBurst_eq (env : PollEnv) (c : Nat) (s : State) (hc : reported env s = c) :
    takeBurst c (sample (beginPoll env s)) =
      if s.rxQueue.length < c then .refused .rxReadEmpty
      else if s.params.rxCap < c then .overflow (burstTaken env c s)
      else .frame (burstTaken env c s) := by
  have hq : (enter .silentDetected (sample (beginPoll env s))).rxQueue = s.rxQueue := rfl
  have hr := rxAvailable_beginPoll env s
  rw [hc] at hr
  unfold takeBurst
  split
  · rename_i hn
    by_cases h : s.rxQueue.length < c
    · rw [if_pos h]
    · rw [readBurst_eq _ _ _ (by rw [hq]; omega)] at hn; cases hn
  · rename_i t ht
    by_cases h : s.rxQueue.length < c
    · rw [readBurst_none _ _ _ (by rw [hq]; exact h)] at ht; cases ht
    · rw [readBurst_eq _ _ _ (by rw [hq]; omega)] at ht
      cases ht
      rw [if_neg h]
      have hcap : (enter .silentDetected (sample (beginPoll env s))).params.rxCap = s.params.rxCap := rfl
      by_cases hl : s.params.rxCap < c
      · simp only [hcap, if_pos hl]
        simp [burstTaken, sample, beginPoll, emit, enter, now, hl]
        exact hr
      · simp only [hcap, if_neg hl]
        simp [burstTaken, sample, beginPoll, emit, enter, now, hl]
        exact hr

/-- Every outcome of a poll's assembler, in order (R100, R102 to R107). -/
theorem assemblerStep_eq (env : PollEnv) (s : State) :
    assemblerStep (beginPoll env s) =
      if s.params.tcap < reported env s then .refused .rxCountRange
      else if reported env s = 0 then .noFrame (sample (beginPoll env s))
      else if reported env s ≠ s.obsCount then
        .noFrame { sample (beginPoll env s) with
          obsCount := reported env s, obsTime := env.clock % 2 ^ s.params.wt }
      else if elapsed s.params.wt (env.clock % 2 ^ s.params.wt) s.obsTime < s.cfgThresh then
        .noFrame (sample (beginPoll env s))
      else if s.rxQueue.length < reported env s then .refused .rxReadEmpty
      else if s.params.rxCap < reported env s then .overflow (burstTaken env (reported env s) s)
      else .frame (burstTaken env (reported env s) s) := by
  rw [← takeBurst_eq env _ s rfl]
  simp only [assemblerStep, rxAvailable_beginPoll]
  rfl

/-! ### After a frame has been taken -/

/-- The frame in `RX_BUF` is the burst (R12, R104). -/
theorem rxFrame_burstTaken {env : PollEnv} {c : Nat} {s : State} (hwf : s.rxBuf.wf = true)
    (hq : c ≤ s.rxQueue.length) (hc : c ≤ s.params.rxCap) : rxFrame (burstTaken env c s) = s.rxQueue.take c := by
  have hlen : (s.rxQueue.take c).length = c := by rw [List.length_take]; omega
  have hbuf : (burstTaken env c s).rxBuf = s.rxBuf.writeRun 0 (s.rxQueue.take c) := by
    have : (s.rxQueue.take c).take s.params.rxCap = s.rxQueue.take c := List.take_of_length_le (by omega)
    simp [burstTaken, this]
  have hl : (burstTaken env c s).rxLen = c := by simp [burstTaken]; omega
  have := Memory.readRun_writeRun hwf 0 (s.rxQueue.take c)
  rw [hlen] at this
  rw [rxFrame, hbuf, hl, this]

/-- The three checks as one: what `VALID` means for the frame (R120 to R124). -/
theorem validate_eq_none {s : State} (h : validate s = none) :
    8 ≤ s.rxLen ∧ (s.cfgUnit = 0 ∨ s.rxBuf.read 0 = s.cfgUnit) ∧ checksumOk s.params (rxFrame s) = true := by
  unfold validate at h
  split at h
  · cases h
  · split at h
    · cases h
    · split at h
      · rename_i h1 h2 h3
        refine ⟨by omega, ?_, h3⟩
        by_cases hu : s.cfgUnit = 0
        · exact .inl hu
        · exact .inr (Classical.byContradiction fun hn => h2 ⟨hu, hn⟩)
      · cases h

/-- And conversely. -/
theorem validate_of {s : State} (h8 : 8 ≤ s.rxLen) (hu : s.cfgUnit = 0 ∨ s.rxBuf.read 0 = s.cfgUnit)
    (hs : checksumOk s.params (rxFrame s) = true) : validate s = none := by
  have h1 : ¬ s.rxLen < 8 := by omega
  have h2 : ¬ (s.cfgUnit ≠ 0 ∧ s.rxBuf.read 0 ≠ s.cfgUnit) := by
    rintro ⟨ha, hb⟩; exact hu.elim ha hb
  rw [validate, if_neg h1, if_neg h2, if_pos hs]

@[simp] theorem length_rxFrame (s : State) : (rxFrame s).length = s.rxLen := Memory.length_readRun _ _ _

/-- A frame the validator passes decodes: the decoder's own rejections cannot follow `VALID`. -/
theorem decode_of_validate {s : State} (h : validate s = none) (hl : s.rxLen ≤ s.params.rxCap) :
    ∃ i, decode s.params (rxFrame s) = .ok i := by
  obtain ⟨h8, _, hs⟩ := validate_eq_none h
  exact decode_of_valid (by rwa [length_rxFrame]) (by rwa [length_rxFrame]) hs

/-- The state in which the validator runs. -/
def validating (s : State) : State := enter .validating (enter .frameReady s)

@[simp] theorem requestTaken_configured (env : PollEnv) (rest : List HostEvent) (c : Nat) (s : State) : (requestTaken env rest c s).configured = s.configured :=
  rfl
@[simp] theorem requestTaken_cfgUnit (env : PollEnv) (rest : List HostEvent) (c : Nat) (s : State) : (requestTaken env rest c s).cfgUnit = s.cfgUnit :=
  rfl
@[simp] theorem requestTaken_cfgThresh (env : PollEnv) (rest : List HostEvent) (c : Nat) (s : State) : (requestTaken env rest c s).cfgThresh = s.cfgThresh :=
  rfl
@[simp] theorem requestTaken_cfgDir (env : PollEnv) (rest : List HostEvent) (c : Nat) (s : State) : (requestTaken env rest c s).cfgDir = s.cfgDir :=
  rfl
@[simp] theorem requestTaken_cfgCb (env : PollEnv) (rest : List HostEvent) (c : Nat) (s : State) : (requestTaken env rest c s).cfgCb = s.cfgCb :=
  rfl
@[simp] theorem requestTaken_obsCount (env : PollEnv) (rest : List HostEvent) (c : Nat) (s : State) : (requestTaken env rest c s).obsCount = 0 :=
  rfl
@[simp] theorem requestTaken_obsTime (env : PollEnv) (rest : List HostEvent) (c : Nat) (s : State) : (requestTaken env rest c s).obsTime = s.obsTime :=
  rfl
@[simp] theorem requestTaken_rxBuf (env : PollEnv) (rest : List HostEvent) (c : Nat) (s : State) : (requestTaken env rest c s).rxBuf = s.rxBuf.writeRun 0 (s.rxQueue.take c) :=
  rfl
@[simp] theorem requestTaken_rxLen (env : PollEnv) (rest : List HostEvent) (c : Nat) (s : State) : (requestTaken env rest c s).rxLen = c :=
  rfl
@[simp] theorem requestTaken_txBuf (env : PollEnv) (rest : List HostEvent) (c : Nat) (s : State) : (requestTaken env rest c s).txBuf = s.txBuf :=
  rfl
@[simp] theorem requestTaken_plen (env : PollEnv) (rest : List HostEvent) (c : Nat) (s : State) : (requestTaken env rest c s).plen = s.plen :=
  rfl
@[simp] theorem requestTaken_bkind (env : PollEnv) (rest : List HostEvent) (c : Nat) (s : State) : (requestTaken env rest c s).bkind = s.bkind :=
  rfl
@[simp] theorem requestTaken_bcap (env : PollEnv) (rest : List HostEvent) (c : Nat) (s : State) : (requestTaken env rest c s).bcap = s.bcap :=
  rfl
@[simp] theorem requestTaken_dofs (env : PollEnv) (rest : List HostEvent) (c : Nat) (s : State) : (requestTaken env rest c s).dofs = s.dofs :=
  rfl
@[simp] theorem requestTaken_dlen (env : PollEnv) (rest : List HostEvent) (c : Nat) (s : State) : (requestTaken env rest c s).dlen = s.dlen :=
  rfl
@[simp] theorem requestTaken_wofs (env : PollEnv) (rest : List HostEvent) (c : Nat) (s : State) : (requestTaken env rest c s).wofs = s.wofs :=
  rfl
@[simp] theorem requestTaken_dirLine (env : PollEnv) (rest : List HostEvent) (c : Nat) (s : State) : (requestTaken env rest c s).dirLine = s.dirLine :=
  rfl
@[simp] theorem requestTaken_req (env : PollEnv) (rest : List HostEvent) (c : Nat) (s : State) : (requestTaken env rest c s).req = s.req :=
  rfl
@[simp] theorem requestTaken_status (env : PollEnv) (rest : List HostEvent) (c : Nat) (s : State) : (requestTaken env rest c s).status = s.status :=
  rfl
@[simp] theorem requestTaken_phase (env : PollEnv) (rest : List HostEvent) (c : Nat) (s : State) : (requestTaken env rest c s).phase = .decoding :=
  rfl
@[simp] theorem requestTaken_inProcess (env : PollEnv) (rest : List HostEvent) (c : Nat) (s : State) : (requestTaken env rest c s).inProcess = true :=
  rfl
@[simp] theorem requestTaken_phasePath (env : PollEnv) (rest : List HostEvent) (c : Nat) (s : State) : (requestTaken env rest c s).phasePath = [s.phase, .silentDetected, .frameReady, .validating, .decoding] :=
  rfl
@[simp] theorem requestTaken_marks (env : PollEnv) (rest : List HostEvent) (c : Nat) (s : State) : (requestTaken env rest c s).marks = s.marks :=
  rfl
@[simp] theorem requestTaken_trace (env : PollEnv) (rest : List HostEvent) (c : Nat) (s : State) : (requestTaken env rest c s).trace = s.trace ++ [.rxAvailable c, .now (env.clock % 2 ^ s.params.wt)] ++ (s.rxQueue.take c).map .rxRead :=
  rfl
@[simp] theorem requestTaken_params (env : PollEnv) (rest : List HostEvent) (c : Nat) (s : State) : (requestTaken env rest c s).params = s.params :=
  rfl
@[simp] theorem requestTaken_rxQueue (env : PollEnv) (rest : List HostEvent) (c : Nat) (s : State) : (requestTaken env rest c s).rxQueue = s.rxQueue.drop c :=
  rfl
@[simp] theorem requestTaken_env (env : PollEnv) (rest : List HostEvent) (c : Nat) (s : State) : (requestTaken env rest c s).env = env :=
  rfl
@[simp] theorem requestTaken_host (env : PollEnv) (rest : List HostEvent) (c : Nat) (s : State) : (requestTaken env rest c s).host = rest :=
  rfl

@[simp] theorem validating_configured (s : State) : (validating s).configured = s.configured := by
  simp [validating]
@[simp] theorem validating_cfgUnit (s : State) : (validating s).cfgUnit = s.cfgUnit := by
  simp [validating]
@[simp] theorem validating_cfgThresh (s : State) : (validating s).cfgThresh = s.cfgThresh := by
  simp [validating]
@[simp] theorem validating_cfgDir (s : State) : (validating s).cfgDir = s.cfgDir := by
  simp [validating]
@[simp] theorem validating_cfgCb (s : State) : (validating s).cfgCb = s.cfgCb := by
  simp [validating]
@[simp] theorem validating_obsCount (s : State) : (validating s).obsCount = s.obsCount := by
  simp [validating]
@[simp] theorem validating_obsTime (s : State) : (validating s).obsTime = s.obsTime := by
  simp [validating]
@[simp] theorem validating_rxBuf (s : State) : (validating s).rxBuf = s.rxBuf := by
  simp [validating]
@[simp] theorem validating_rxLen (s : State) : (validating s).rxLen = s.rxLen := by
  simp [validating]
@[simp] theorem validating_txBuf (s : State) : (validating s).txBuf = s.txBuf := by
  simp [validating]
@[simp] theorem validating_plen (s : State) : (validating s).plen = s.plen := by
  simp [validating]
@[simp] theorem validating_bkind (s : State) : (validating s).bkind = s.bkind := by
  simp [validating]
@[simp] theorem validating_bcap (s : State) : (validating s).bcap = s.bcap := by
  simp [validating]
@[simp] theorem validating_dofs (s : State) : (validating s).dofs = s.dofs := by
  simp [validating]
@[simp] theorem validating_dlen (s : State) : (validating s).dlen = s.dlen := by
  simp [validating]
@[simp] theorem validating_wofs (s : State) : (validating s).wofs = s.wofs := by
  simp [validating]
@[simp] theorem validating_dirLine (s : State) : (validating s).dirLine = s.dirLine := by
  simp [validating]
@[simp] theorem validating_req (s : State) : (validating s).req = s.req := by
  simp [validating]
@[simp] theorem validating_status (s : State) : (validating s).status = s.status := by
  simp [validating]
@[simp] theorem validating_phase (s : State) : (validating s).phase = .validating := by
  simp [validating]
@[simp] theorem validating_inProcess (s : State) : (validating s).inProcess = s.inProcess := by
  simp [validating]
@[simp] theorem validating_phasePath (s : State) : (validating s).phasePath = s.phasePath ++ [.frameReady, .validating] :=
  by
  simp [validating]
@[simp] theorem validating_marks (s : State) : (validating s).marks = s.marks := by
  simp [validating]
@[simp] theorem validating_trace (s : State) : (validating s).trace = s.trace := by
  simp [validating]
@[simp] theorem validating_params (s : State) : (validating s).params = s.params := by
  simp [validating]
@[simp] theorem validating_rxQueue (s : State) : (validating s).rxQueue = s.rxQueue := by
  simp [validating]
@[simp] theorem validating_env (s : State) : (validating s).env = s.env := by
  simp [validating]
@[simp] theorem validating_host (s : State) : (validating s).host = s.host := by
  simp [validating]

/-- `requestTaken` is where a valid frame leads (R240). -/
theorem requestTaken_eq {env : PollEnv} {c : Nat} {s : State} {rest : List HostEvent} (hc : c ≤ s.params.rxCap) :
    enter .decoding (validating (burstTaken env c { s with host := rest })) = requestTaken env rest c s := by
  have h1 : (s.rxQueue.take c).take s.params.rxCap = s.rxQueue.take c :=
    List.take_of_length_le (by rw [List.length_take]; omega)
  have h2 : ¬ s.params.rxCap < c := by omega
  simp [validating, burstTaken, requestTaken, enter, h1, h2]

/-! ### A poll -/

/-- The state after a poll that took no frame and left `count` and `time` as the baseline (R102, R103, R105, R232). -/
def noFrameTaken (env : PollEnv) (count time : Nat) (s : State) : State :=
  { s with
    env := env
    inProcess := false
    obsCount := count
    obsTime := time
    trace := s.trace ++ [.rxAvailable (reported env s), .now (env.clock % 2 ^ s.params.wt)]
    phase := if count = 0 then .idle else .accumulating
    phasePath := [s.phase, if count = 0 then .idle else .accumulating] }

@[simp] theorem noFrameTaken_configured (env : PollEnv) (c u : Nat) (s : State) : (noFrameTaken env c u s).configured = s.configured :=
  rfl
@[simp] theorem noFrameTaken_cfgUnit (env : PollEnv) (c u : Nat) (s : State) : (noFrameTaken env c u s).cfgUnit = s.cfgUnit :=
  rfl
@[simp] theorem noFrameTaken_cfgThresh (env : PollEnv) (c u : Nat) (s : State) : (noFrameTaken env c u s).cfgThresh = s.cfgThresh :=
  rfl
@[simp] theorem noFrameTaken_cfgDir (env : PollEnv) (c u : Nat) (s : State) : (noFrameTaken env c u s).cfgDir = s.cfgDir :=
  rfl
@[simp] theorem noFrameTaken_cfgCb (env : PollEnv) (c u : Nat) (s : State) : (noFrameTaken env c u s).cfgCb = s.cfgCb :=
  rfl
@[simp] theorem noFrameTaken_obsCount (env : PollEnv) (c u : Nat) (s : State) : (noFrameTaken env c u s).obsCount = c :=
  rfl
@[simp] theorem noFrameTaken_obsTime (env : PollEnv) (c u : Nat) (s : State) : (noFrameTaken env c u s).obsTime = u :=
  rfl
@[simp] theorem noFrameTaken_rxBuf (env : PollEnv) (c u : Nat) (s : State) : (noFrameTaken env c u s).rxBuf = s.rxBuf :=
  rfl
@[simp] theorem noFrameTaken_rxLen (env : PollEnv) (c u : Nat) (s : State) : (noFrameTaken env c u s).rxLen = s.rxLen :=
  rfl
@[simp] theorem noFrameTaken_txBuf (env : PollEnv) (c u : Nat) (s : State) : (noFrameTaken env c u s).txBuf = s.txBuf :=
  rfl
@[simp] theorem noFrameTaken_plen (env : PollEnv) (c u : Nat) (s : State) : (noFrameTaken env c u s).plen = s.plen :=
  rfl
@[simp] theorem noFrameTaken_bkind (env : PollEnv) (c u : Nat) (s : State) : (noFrameTaken env c u s).bkind = s.bkind :=
  rfl
@[simp] theorem noFrameTaken_bcap (env : PollEnv) (c u : Nat) (s : State) : (noFrameTaken env c u s).bcap = s.bcap :=
  rfl
@[simp] theorem noFrameTaken_dofs (env : PollEnv) (c u : Nat) (s : State) : (noFrameTaken env c u s).dofs = s.dofs :=
  rfl
@[simp] theorem noFrameTaken_dlen (env : PollEnv) (c u : Nat) (s : State) : (noFrameTaken env c u s).dlen = s.dlen :=
  rfl
@[simp] theorem noFrameTaken_wofs (env : PollEnv) (c u : Nat) (s : State) : (noFrameTaken env c u s).wofs = s.wofs :=
  rfl
@[simp] theorem noFrameTaken_dirLine (env : PollEnv) (c u : Nat) (s : State) : (noFrameTaken env c u s).dirLine = s.dirLine :=
  rfl
@[simp] theorem noFrameTaken_req (env : PollEnv) (c u : Nat) (s : State) : (noFrameTaken env c u s).req = s.req := rfl
@[simp] theorem noFrameTaken_status (env : PollEnv) (c u : Nat) (s : State) : (noFrameTaken env c u s).status = s.status :=
  rfl
@[simp] theorem noFrameTaken_phase (env : PollEnv) (c u : Nat) (s : State) : (noFrameTaken env c u s).phase = if c = 0 then .idle else .accumulating :=
  rfl
@[simp] theorem noFrameTaken_inProcess (env : PollEnv) (c u : Nat) (s : State) : (noFrameTaken env c u s).inProcess = false :=
  rfl
@[simp] theorem noFrameTaken_phasePath (env : PollEnv) (c u : Nat) (s : State) : (noFrameTaken env c u s).phasePath = [s.phase, if c = 0 then .idle else .accumulating] :=
  rfl
@[simp] theorem noFrameTaken_marks (env : PollEnv) (c u : Nat) (s : State) : (noFrameTaken env c u s).marks = s.marks :=
  rfl
@[simp] theorem noFrameTaken_trace (env : PollEnv) (c u : Nat) (s : State) : (noFrameTaken env c u s).trace = s.trace ++ [.rxAvailable (reported env s), .now (env.clock % 2 ^ s.params.wt)] :=
  rfl
@[simp] theorem noFrameTaken_params (env : PollEnv) (c u : Nat) (s : State) : (noFrameTaken env c u s).params = s.params :=
  rfl
@[simp] theorem noFrameTaken_rxQueue (env : PollEnv) (c u : Nat) (s : State) : (noFrameTaken env c u s).rxQueue = s.rxQueue :=
  rfl
@[simp] theorem noFrameTaken_env (env : PollEnv) (c u : Nat) (s : State) : (noFrameTaken env c u s).env = env := rfl
@[simp] theorem noFrameTaken_host (env : PollEnv) (c u : Nat) (s : State) : (noFrameTaken env c u s).host = s.host :=
  rfl

theorem settle_sample (env : PollEnv) (s : State) :
    settle (sample (beginPoll env s)) = noFrameTaken env s.obsCount s.obsTime s := by
  rw [sample, rxAvailable_beginPoll]
  simp [settle, noFrameTaken, beginPoll, emit, enter, now]

theorem settle_sample_baseline (env : PollEnv) (s : State) (count time : Nat) :
    settle { sample (beginPoll env s) with obsCount := count, obsTime := time } = noFrameTaken env count time s := by
  rw [sample, rxAvailable_beginPoll]
  simp [settle, noFrameTaken, beginPoll, emit, enter, now]

/-- Everything a poll that ends in a state can do (R230, R232, R240): it takes no frame, drops an oversize burst or an
invalid frame, or runs the request it took. -/
inductive PollCase (env : PollEnv) (s t : State) : Prop where
  /-- no byte is pending (R102) -/
  | empty (h0 : reported env s = 0) (ht : t = noFrameTaken env s.obsCount s.obsTime s)
  /-- the count changed: a new baseline (R103) -/
  | changed (h0 : reported env s ≠ 0) (hn : reported env s ≠ s.obsCount)
      (ht : t = noFrameTaken env (reported env s) (env.clock % 2 ^ s.params.wt) s)
  /-- the count stands, the threshold has not elapsed (R105) -/
  | waiting (h0 : reported env s ≠ 0) (he : reported env s = s.obsCount)
      (hw : elapsed s.params.wt (env.clock % 2 ^ s.params.wt) s.obsTime < s.cfgThresh)
      (ht : t = noFrameTaken env s.obsCount s.obsTime s)
  /-- a burst longer than `RX_BUF` (R107) -/
  | overflow (h0 : reported env s ≠ 0) (he : reported env s = s.obsCount)
      (hw : s.cfgThresh ≤ elapsed s.params.wt (env.clock % 2 ^ s.params.wt) s.obsTime)
      (hq : reported env s ≤ s.rxQueue.length) (hc : s.params.rxCap < reported env s)
      (ht : t = dropFrame (burstTaken env (reported env s) s))
  /-- a frame the validator drops (R121, R122, R124) -/
  | dropped (r : DropReason) (h0 : reported env s ≠ 0) (he : reported env s = s.obsCount)
      (hw : s.cfgThresh ≤ elapsed s.params.wt (env.clock % 2 ^ s.params.wt) s.obsTime)
      (hq : reported env s ≤ s.rxQueue.length) (hc : reported env s ≤ s.params.rxCap)
      (hv : validate (validating (burstTaken env (reported env s) s)) = some r)
      (ht : t = dropFrame (validating (burstTaken env (reported env s) s)))
  /-- a request is run (R140) -/
  | run (i : Instr) (h0 : reported env s ≠ 0) (he : reported env s = s.obsCount)
      (hw : s.cfgThresh ≤ elapsed s.params.wt (env.clock % 2 ^ s.params.wt) s.obsTime)
      (hq : reported env s ≤ s.rxQueue.length) (hc : reported env s ≤ s.params.rxCap)
      (hv : validate (validating (burstTaken env (reported env s) s)) = none)
      (hd : decode s.params (rxFrame (burstTaken env (reported env s) s)) = .ok i)
      (ht : exec i (requestTaken env s.host (reported env s) s) = .next t)

/-- What follows a taken frame, by the validator's answer (R120, R240). -/
theorem handleFrame_of_drop {s : State} {r : DropReason} (h : validate (validating s) = some r) :
    handleFrame s = .next (dropFrame (validating s)) := by
  have : handleFrame s = match validate (validating s) with
      | some _ => .next (dropFrame (validating s))
      | none =>
        match decode s.params (rxFrame s) with
        | .ok i => exec i (enter .decoding (validating s))
        | .error _ => .next (dropFrame (validating s)) := rfl
  rw [this, h]

theorem handleFrame_of_valid {s : State} {i : Instr} (h : validate (validating s) = none)
    (hd : decode s.params (rxFrame s) = .ok i) : handleFrame s = exec i (enter .decoding (validating s)) := by
  have : handleFrame s = match validate (validating s) with
      | some _ => .next (dropFrame (validating s))
      | none =>
        match decode s.params (rxFrame s) with
        | .ok i => exec i (enter .decoding (validating s))
        | .error _ => .next (dropFrame (validating s)) := rfl
  rw [this, h, hd]

/-- A poll with its entry conditions met is its assembler and what follows (R230, R240). -/
theorem process_eq {env : PollEnv} {s : State} (hc : s.configured = true) (hi : s.inProcess = false) :
    process env s = match assemblerStep (beginPoll env s) with
      | .refused r => .refused r
      | .noFrame t => .next (settle t)
      | .overflow t => .next (dropFrame t)
      | .frame t => handleFrame t := by
  unfold process
  rw [hc, hi]
  rfl

/-- A poll of a configured engine, in one equation: every outcome of the assembler, in order, and what follows (R100 to
R107, R230, R240). -/
theorem process_eq_cases {s : State} {env : PollEnv} (hc : s.configured = true) (hi : s.inProcess = false) :
    process env s =
      if s.params.tcap < reported env s then .refused .rxCountRange
      else if reported env s = 0 then .next (noFrameTaken env s.obsCount s.obsTime s)
      else if reported env s ≠ s.obsCount then
        .next (noFrameTaken env (reported env s) (env.clock % 2 ^ s.params.wt) s)
      else if elapsed s.params.wt (env.clock % 2 ^ s.params.wt) s.obsTime < s.cfgThresh then
        .next (noFrameTaken env s.obsCount s.obsTime s)
      else if s.rxQueue.length < reported env s then .refused .rxReadEmpty
      else if s.params.rxCap < reported env s then .next (dropFrame (burstTaken env (reported env s) s))
      else handleFrame (burstTaken env (reported env s) s) := by
  rw [process_eq hc hi, assemblerStep_eq, ← settle_sample, ← settle_sample_baseline]
  generalize sample (beginPoll env s) = u
  by_cases h1 : s.params.tcap < reported env s
  · rw [if_pos h1, if_pos h1]
  rw [if_neg h1, if_neg h1]
  by_cases h2 : reported env s = 0
  · rw [if_pos h2, if_pos h2]
  rw [if_neg h2, if_neg h2]
  by_cases h3 : reported env s ≠ s.obsCount
  · rw [if_pos h3, if_pos h3]
  rw [if_neg h3, if_neg h3]
  by_cases h4 : elapsed s.params.wt (env.clock % 2 ^ s.params.wt) s.obsTime < s.cfgThresh
  · rw [if_pos h4, if_pos h4]
  rw [if_neg h4, if_neg h4]
  by_cases h5 : s.rxQueue.length < reported env s
  · rw [if_pos h5, if_pos h5]
  rw [if_neg h5, if_neg h5]
  by_cases h6 : s.params.rxCap < reported env s
  · rw [if_pos h6, if_pos h6]
  · rw [if_neg h6, if_neg h6]

/-- The inversion of a poll. -/
theorem process_cases {env : PollEnv} {s t : State} (h : process env s = .next t) :
    s.configured = true ∧ s.inProcess = false ∧ reported env s ≤ s.params.tcap ∧ PollCase env s t := by
  have hc : s.configured = true := by
    by_cases hc : s.configured = true
    · exact hc
    · unfold process at h; rw [if_pos (by simpa using hc)] at h; cases h
  have hi : s.inProcess = false := by
    cases hi : s.inProcess
    · rfl
    · unfold process at h
      rw [hc, hi] at h
      cases h
  rw [process_eq_cases hc hi] at h
  by_cases hcap : s.params.tcap < reported env s
  · rw [if_pos hcap] at h; cases h
  rw [if_neg hcap] at h
  refine ⟨hc, hi, by omega, ?_⟩
  by_cases h0 : reported env s = 0
  · rw [if_pos h0] at h
    exact .empty h0 (by cases h; rfl)
  rw [if_neg h0] at h
  by_cases hn : reported env s ≠ s.obsCount
  · rw [if_pos hn] at h
    exact .changed h0 hn (by cases h; rfl)
  rw [if_neg hn] at h
  have he : reported env s = s.obsCount := Classical.not_not.mp hn
  by_cases hw : elapsed s.params.wt (env.clock % 2 ^ s.params.wt) s.obsTime < s.cfgThresh
  · rw [if_pos hw] at h
    exact .waiting h0 he hw (by cases h; rfl)
  rw [if_neg hw] at h
  have hw' := Nat.le_of_not_lt hw
  by_cases hq : s.rxQueue.length < reported env s
  · rw [if_pos hq] at h; cases h
  rw [if_neg hq] at h
  have hq' := Nat.le_of_not_lt hq
  by_cases hx : s.params.rxCap < reported env s
  · rw [if_pos hx] at h
    exact .overflow h0 he hw' hq' hx (by cases h; rfl)
  rw [if_neg hx] at h
  have hx' := Nat.le_of_not_lt hx
  cases hv : validate (validating (burstTaken env (reported env s) s)) with
  | some r =>
    rw [handleFrame_of_drop hv] at h
    exact .dropped r h0 he hw' hq' hx' hv (by cases h; rfl)
  | none =>
    have hlen : (validating (burstTaken env (reported env s) s)).rxLen ≤ s.params.rxCap := by
      have : (validating (burstTaken env (reported env s) s)).rxLen =
        if s.params.rxCap < reported env s then 0 else reported env s := rfl
      rw [this]; split <;> omega
    obtain ⟨i, hd⟩ := decode_of_validate hv hlen
    change decode s.params (rxFrame (burstTaken env (reported env s) s)) = .ok i at hd
    rw [handleFrame_of_valid hv hd] at h
    have hr := requestTaken_eq (env := env) (s := s) (rest := s.host) hx'
    rw [hr] at h
    exact .run i h0 he hw' hq' hx' hv hd h

/-! ### A step -/

/-- Everything a step that ends in a state can do. -/
inductive StepCase (s t : State) : Prop where
  | idle (hh : s.host = []) (ht : t = s)
  | reset (rest : List HostEvent) (hh : s.host = .reset :: rest) (ht : t = applyReset { s with host := rest })
  | configure (unit : Byte) (baud : BitVec 32) (dir cb : Bool) (rest : List HostEvent)
      (hh : s.host = .configure unit baud dir cb :: rest) (hn : s.configured = false) (hb : 1 ≤ baud.toNat)
      (hw : silenceThreshold baud.toNat < 2 ^ s.params.wt)
      (ht : t = { initDirection dir { s with
              host := rest, cfgUnit := unit, cfgThresh := silenceThreshold baud.toNat, cfgDir := dir, cfgCb := cb } with
            configured := true })
  | arrive (bytes : List Byte) (rest : List HostEvent) (hh : s.host = .arrive bytes :: rest)
      (ht : t = Machine.arrive bytes { s with host := rest })
  | poll (env : PollEnv) (rest : List HostEvent) (hh : s.host = .poll env :: rest)
      (ht : process env { s with host := rest } = .next t)

/-- The inversion of Configure (R281, R282). -/
theorem configure_cases {unit : Byte} {baud : BitVec 32} {dir cb : Bool} {s t : State}
    (h : configure unit baud dir cb s = .next t) :
    s.configured = false ∧ 1 ≤ baud.toNat ∧ silenceThreshold baud.toNat < 2 ^ s.params.wt ∧
      t = { initDirection dir { s with
              cfgUnit := unit, cfgThresh := silenceThreshold baud.toNat, cfgDir := dir, cfgCb := cb } with
            configured := true } := by
  unfold configure at h
  split at h
  · cases h
  · split at h
    · cases h
    · split at h
      · cases h
      · rename_i h1 h2 h3
        exact ⟨by simpa using h1, by omega, by omega, by cases h; rfl⟩

/-- The inversion of a step. -/
theorem step_cases {s t : State} (h : step s = .next t) : StepCase s t := by
  unfold step at h
  split at h
  · rename_i hh; exact .idle hh (by cases h; rfl)
  · rename_i e rest hh
    cases e with
    | reset => exact .reset rest hh (by cases h; rfl)
    | configure unit baud dir cb =>
      obtain ⟨h1, h2, h3, h4⟩ := configure_cases h
      exact .configure unit baud dir cb rest hh h1 h2 h3 h4
    | arrive bytes => exact .arrive bytes rest hh (by cases h; rfl)
    | poll env => exact .poll env rest hh h
    | strayCall a => cases h
    | staleView => cases h

/-- A step with a poll at the head of the host's list is that poll. -/
theorem step_poll {s : State} {env : PollEnv} {rest : List HostEvent} (h : s.host = .poll env :: rest) :
    step s = process env { s with host := rest } := by
  rw [step, h]; rfl

/-- The same for the step that polls. -/
theorem step_poll_eq {s : State} {env : PollEnv} {rest : List HostEvent} (h : s.host = .poll env :: rest)
    (hc : s.configured = true) (hi : s.inProcess = false) :
    step s =
      if s.params.tcap < reported env s then .refused .rxCountRange
      else if reported env s = 0 then .next (noFrameTaken env s.obsCount s.obsTime { s with host := rest })
      else if reported env s ≠ s.obsCount then
        .next (noFrameTaken env (reported env s) (env.clock % 2 ^ s.params.wt) { s with host := rest })
      else if elapsed s.params.wt (env.clock % 2 ^ s.params.wt) s.obsTime < s.cfgThresh then
        .next (noFrameTaken env s.obsCount s.obsTime { s with host := rest })
      else if s.rxQueue.length < reported env s then .refused .rxReadEmpty
      else if s.params.rxCap < reported env s then
        .next (dropFrame (burstTaken env (reported env s) { s with host := rest }))
      else handleFrame (burstTaken env (reported env s) { s with host := rest }) := by
  rw [step_poll h]
  exact process_eq_cases (s := { s with host := rest }) hc hi

end Sys2Proof.Machine
end

