-- ==== Sys2Proof/Tests/Slice0.lean ====
section
/-! SUPPORT. The model's own tests: ill-formed terms, words written out from the spec's encoding, single steps against
the vectors of spec/95_test_vectors.md (their names stand in the comments), and for each statement with hypotheses a
concrete state that meets them. -/

namespace Sys2Proof.Tests

open Sys2Proof Sys2Proof.Machine

-- one theorem at a time: many kernel evaluations at once can exceed the thread memory a check allows
set_option Elab.async false

/-! ### Helpers -/

/-- Ports that keep their duties at a time, with a callback. -/
def portsAt (clock : Nat) (cb : CbRun) : PollEnv :=
  { clock := clock, avail := none, cb := cb, txCompletes := true }

/-- A callback that makes some calls and returns `OK`. -/
def doing (acts : List CbAct) : CbRun := { acts := acts, ends := .returns .ok }

/-- The common settings of 95_test_vectors.md, with a frame that the baseline has and the next poll takes. -/
def engine (frame : List Byte) (cb : CbRun) : State :=
  { State.reset with
    configured := true
    cfgUnit := 1
    cfgThresh := 4010
    cfgCb := true
    obsCount := frame.length
    phase := .accumulating
    rxQueue := frame
    host := [.poll (portsAt 4010 cb)] }

/-- The same engine inside the poll, when the request is run. -/
def atRequest (frame : List Byte) (cb : CbRun) : State :=
  requestTaken (portsAt 4010 cb) [] frame.length (engine frame cb)

def isNext : Outcome → Bool
  | .next _ => true
  | .fault _ => false
  | .refused _ => false

/-- The state an outcome goes on with. -/
def after : Outcome → State
  | .next t => t
  | .fault _ => State.reset
  | .refused _ => State.reset

theorem next_after {o : Outcome} (h : isNext o = true) : o = .next (after o) := by
  cases o with
  | next t => rfl
  | fault r => cases h
  | refused r => cases h

def refusal : Outcome → Option Refusal
  | .next _ => none
  | .fault _ => none
  | .refused r => some r

def hang : Outcome → Option Fault
  | .next _ => none
  | .fault f => some f
  | .refused _ => none

/-- What a step puts on the wire; `none` if it stops. -/
def wire (o : Outcome) : Option (List (List Byte)) := if isNext o then some (sent (after o).trace) else none

/-- The callback's calls a step shows. -/
def calls (o : Outcome) : List PortEvent := (after o).trace.filter isCallEvent

def params16 : Params :=
  { wt := 16, rxCap := 256, txCap := 256, tcap := 512, fcRaw := 0x41, crc := .modbusSwapped, legal := by decide }

/-! ### Well-formedness: each check refuses an ill-formed term -/

theorem test_fits_refuses : (Instr.readCoils 1 0 1 (List.replicate 249 0)).wf Params.default = false := by decide +kernel
theorem test_fits_admits : (Instr.readCoils 1 0 1 (List.replicate 248 0)).wf Params.default = true := by decide +kernel
theorem test_codeOk_refuses_standard : (Instr.illegalFunction 1 0x03 0 0 0 []).wf Params.default = false := by
  decide +kernel
theorem test_codeOk_refuses_raw : (Instr.illegalFunction 1 0x41 0 0 0 []).wf Params.default = false := by decide +kernel

/-! ### Decoding: words written out from R71 to R75 -/

/-- V-RC-4: fc 01, reg 0x0013, qty 10. -/
theorem test_decode_readCoils : decode Params.default [0x01, 0x01, 0x00, 0x13, 0x00, 0x0A, 0x4D, 0xC8] =
    .ok (.readCoils 0x01 0x0013 0x000A []) := by decide +kernel
/-- V-RDI-1: fc 02, reg 0, qty 1. -/
theorem test_decode_readDiscreteInputs : decode Params.default [0x01, 0x02, 0x00, 0x00, 0x00, 0x01, 0xB9, 0xCA] =
    .ok (.readDiscreteInputs 0x01 0x0000 0x0001 []) := by decide +kernel
/-- V-RT-1: fc 03, reg 0, qty 3. -/
theorem test_decode_readHoldingRegisters : decode Params.default [0x01, 0x03, 0x00, 0x00, 0x00, 0x03, 0x05, 0xCB] =
    .ok (.readHoldingRegisters 0x01 0x0000 0x0003 []) := by decide +kernel
/-- V-RIR-1: fc 04, reg 8, qty 1. -/
theorem test_decode_readInputRegisters : decode Params.default [0x01, 0x04, 0x00, 0x08, 0x00, 0x01, 0xB0, 0x08] =
    .ok (.readInputRegisters 0x01 0x0008 0x0001 []) := by decide +kernel
/-- V-WSC-1: fc 05, reg 0xAC, value 0xFF00. -/
theorem test_decode_writeSingleCoil : decode Params.default [0x01, 0x05, 0x00, 0xAC, 0xFF, 0x00, 0x4C, 0x1B] =
    .ok (.writeSingleCoil 0x01 0x00AC 0xFF00 []) := by decide +kernel
/-- V-WSR-3: fc 06, reg 1, value 3, one trailing byte 0x99 (D13). -/
theorem test_decode_writeSingleRegister :
    decode Params.default [0x01, 0x06, 0x00, 0x01, 0x00, 0x03, 0x99, 0xCA, 0xC0] =
      .ok (.writeSingleRegister 0x01 0x0001 0x0003 [0x99]) := by decide +kernel
/-- V-WMC-1: fc 0F, reg 0x13, qty 10, byte count 2, data CD 01. -/
theorem test_decode_writeMultipleCoils :
    decode Params.default [0x01, 0x0F, 0x00, 0x13, 0x00, 0x0A, 0x02, 0xCD, 0x01, 0x72, 0xCB] =
      .ok (.writeMultipleCoils 0x01 0x0013 0x000A [0x02, 0xCD, 0x01]) := by decide +kernel
/-- V-WMR-1: fc 10, reg 1, qty 2, byte count 4, data 00 0A 01 02. -/
theorem test_decode_writeMultipleRegisters :
    decode Params.default [0x01, 0x10, 0x00, 0x01, 0x00, 0x02, 0x04, 0x00, 0x0A, 0x01, 0x02, 0x92, 0x30] =
      .ok (.writeMultipleRegisters 0x01 0x0001 0x0002 [0x04, 0x00, 0x0A, 0x01, 0x02]) := by decide +kernel
/-- V-RAW-1: fc `P_FC_RAW` = 41, reg 0, byte 4 is 0x77 (ignored), qty 5. -/
theorem test_decode_rawTransfer : decode Params.default [0x01, 0x41, 0x00, 0x00, 0x77, 0x05, 0xDA, 0x36] =
    .ok (.rawTransfer 0x01 0x0000 0x77 0x05 []) := by decide +kernel
/-- V-ILL-5: fc FF. -/
theorem test_decode_illegalFunction : decode Params.default [0x01, 0xFF, 0x00, 0x00, 0x00, 0x00, 0x15, 0xDE] =
    .ok (.illegalFunction 0x01 0xFF 0x0000 0x00 0x00 []) := by decide +kernel
/-- E2: seven bytes are no frame. -/
theorem test_decode_short : decode Params.default [0x01, 0x03, 0x00, 0x00, 0x00, 0x01, 0x84] = .error .short := by
  decide +kernel
/-- V-VAL-8: the unswapped checksum order is refused under the default instance, and admitted under the other (C2). -/
theorem test_decode_checksum_order :
    decode Params.default [0x01, 0x03, 0x00, 0x00, 0x00, 0x01, 0x0A, 0x84] = .error .badChecksum ∧
      checksumOk { Params.default with crc := .modbus } [0x01, 0x03, 0x00, 0x00, 0x00, 0x01, 0x0A, 0x84] = true := by
  decide +kernel
/-- V-CRC-2, V-CRC-3: the checksum of the empty list and of one byte. -/
theorem test_crc_small : crc16 .modbusSwapped [] = 0xFFFF#16 ∧ crc16 .modbusSwapped [0x01] = 0x7E80#16 := by
  decide +kernel

/-- The table's rows as the host numbers them: the function code alone, everything else 0. -/
theorem test_table_words :
    decodeTableWord 8 0x01 = some (.readCoils 0 0 0 []) ∧ decodeTableWord 8 0x02 = some (.readDiscreteInputs 0 0 0 []) ∧
    decodeTableWord 8 0x03 = some (.readHoldingRegisters 0 0 0 []) ∧
    decodeTableWord 8 0x04 = some (.readInputRegisters 0 0 0 []) ∧
    decodeTableWord 8 0x05 = some (.writeSingleCoil 0 0 0 []) ∧
    decodeTableWord 8 0x06 = some (.writeSingleRegister 0 0 0 []) ∧
    decodeTableWord 8 0x0F = some (.writeMultipleCoils 0 0 0 [0]) ∧
    decodeTableWord 8 0x10 = some (.writeMultipleRegisters 0 0 0 [0]) ∧
    decodeTableWord 8 0x41 = some (.rawTransfer 0 0 0 0 []) ∧
    decodeTableWord 8 0x00 = some (.illegalFunction 0 0 0 0 0 []) := by decide +kernel
/-- A table word placed in the machine right after reset runs in the next step: WRITE_SINGLE_REGISTER of 0 to 0 is
READY, and with no callback registered it is answered with exception 0x04 (R182). -/
theorem test_withFetchWord : (wire (step (State.reset.withFetchWord 8 0x06))).map (·.map (·.take 3)) =
    some [[0x00, 0x86, 0x04]] := by decide +kernel

/-! ### One step per instruction -/

/-- V-RC-4. -/
theorem test_readCoils : wire (step (engine [0x01, 0x01, 0x00, 0x13, 0x00, 0x0A, 0x4D, 0xC8]
    (doing ([true, false, true, true, false, false, true, true, true, false].map .writeBit)))) =
      some [[0x01, 0x01, 0x02, 0xCD, 0x01, 0x2C, 0xAC]] := by decide +kernel
/-- V-RC-6: quantity 2001. -/
theorem test_readCoils_2001 : wire (step (engine [0x01, 0x01, 0x00, 0x00, 0x07, 0xD1, 0xFE, 0x66] (doing []))) =
    some [[0x01, 0x81, 0x03, 0x00, 0x51]] := by decide +kernel
/-- V-RDI-1. -/
theorem test_readDiscreteInputs : wire (step (engine [0x01, 0x02, 0x00, 0x00, 0x00, 0x01, 0xB9, 0xCA]
    (doing [.writeBit true]))) = some [[0x01, 0x02, 0x01, 0x01, 0x60, 0x48]] := by decide +kernel
/-- V-RT-1: the length byte is 6, not the quantity; P1: `PLEN` and the builder fields in the end state. -/
theorem test_readHoldingRegisters :
    wire (step (engine [0x01, 0x03, 0x00, 0x00, 0x00, 0x03, 0x05, 0xCB]
      (doing [.writeRegister 0x000A, .writeRegister 0x0102, .writeRegister 0xBEEF]))) =
        some [[0x01, 0x03, 0x06, 0x00, 0x0A, 0x01, 0x02, 0xBE, 0xEF, 0x29, 0x64]] ∧
    (fun t : State => (t.plen, t.bkind, t.bcap, t.dofs, t.dlen, t.wofs)) (after (step
      (engine [0x01, 0x03, 0x00, 0x00, 0x00, 0x03, 0x05, 0xCB]
        (doing [.writeRegister 0x000A, .writeRegister 0x0102, .writeRegister 0xBEEF])))) =
      (7, .reg, 3, 3, 6, 3) := by decide +kernel
/-- V-BLD-1: a write past the capacity is ignored and marked. -/
theorem test_readHoldingRegisters_overflow :
    wire (step (engine [0x01, 0x03, 0x00, 0x00, 0x00, 0x01, 0x84, 0x0A]
      (doing [.writeRegister 1, .writeRegister 2]))) = some [[0x01, 0x03, 0x02, 0x00, 0x01, 0x79, 0x84]] ∧
    (after (step (engine [0x01, 0x03, 0x00, 0x00, 0x00, 0x01, 0x84, 0x0A]
      (doing [.writeRegister 1, .writeRegister 2])))).marks.builderOverflow = true := by decide +kernel
/-- V-RIR-1. -/
theorem test_readInputRegisters : wire (step (engine [0x01, 0x04, 0x00, 0x08, 0x00, 0x01, 0xB0, 0x08]
    (doing [.writeRegister 0x1234]))) = some [[0x01, 0x04, 0x02, 0x12, 0x34, 0xB4, 0x47]] := by decide +kernel
/-- V-WSC-1. -/
theorem test_writeSingleCoil :
    wire (step (engine [0x01, 0x05, 0x00, 0xAC, 0xFF, 0x00, 0x4C, 0x1B] (doing [.readCoilValue 0]))) =
      some [[0x01, 0x05, 0x00, 0xAC, 0xFF, 0x00, 0x4C, 0x1B]] ∧
    calls (step (engine [0x01, 0x05, 0x00, 0xAC, 0xFF, 0x00, 0x4C, 0x1B] (doing [.readCoilValue 0]))) =
      [.readCoilValue 0 (some true)] := by decide +kernel
/-- V-WSC-3: value 0x00FF. -/
theorem test_writeSingleCoil_bad : wire (step (engine [0x01, 0x05, 0x00, 0xAC, 0x00, 0xFF, 0x4D, 0xAB] (doing []))) =
    some [[0x01, 0x85, 0x03, 0x02, 0x91]] := by decide +kernel
/-- V-WSR-3: the trailing byte is ignored. -/
theorem test_writeSingleRegister :
    wire (step (engine [0x01, 0x06, 0x00, 0x01, 0x00, 0x03, 0x99, 0xCA, 0xC0] (doing [.readRegisterValue 0]))) =
      some [[0x01, 0x06, 0x00, 0x01, 0x00, 0x03, 0x98, 0x0B]] ∧
    calls (step (engine [0x01, 0x06, 0x00, 0x01, 0x00, 0x03, 0x99, 0xCA, 0xC0] (doing [.readRegisterValue 0]))) =
      [.readRegisterValue 0 (some 3)] := by decide +kernel
/-- V-WSR-4: with a direction line. -/
theorem test_writeSingleRegister_direction :
    ((after (step { engine [0x01, 0x06, 0x00, 0x01, 0x00, 0x03, 0x98, 0x0B] (doing []) with cfgDir := true })).trace.drop
      12) = [.dirAssert, .txSend [0x01, 0x06, 0x00, 0x01, 0x00, 0x03, 0x98, 0x0B], .dirDeassert] := by decide +kernel
/-- V-WMC-1: coil k is bit k of the data (R53); V-WMC-7: index 10 of 10 is out of range. -/
theorem test_writeMultipleCoils :
    wire (step (engine [0x01, 0x0F, 0x00, 0x13, 0x00, 0x0A, 0x02, 0xCD, 0x01, 0x72, 0xCB] (doing []))) =
      some [[0x01, 0x0F, 0x00, 0x13, 0x00, 0x0A, 0x24, 0x09]] ∧
    calls (step (engine [0x01, 0x0F, 0x00, 0x13, 0x00, 0x0A, 0x02, 0xCD, 0x01, 0x72, 0xCB]
      (doing [.readCoilValue 1, .readCoilValue 8, .readCoilValue 10]))) =
      [.readCoilValue 1 (some false), .readCoilValue 8 (some true), .readCoilValue 10 none] := by decide +kernel
/-- V-WMC-2: the byte count is 1 and 2 is called for. -/
theorem test_writeMultipleCoils_count :
    wire (step (engine [0x01, 0x0F, 0x00, 0x13, 0x00, 0x0A, 0x01, 0xCD, 0x1B, 0x03] (doing []))) =
      some [[0x01, 0x8F, 0x03, 0x04, 0x31]] := by decide +kernel
/-- V-WMR-1. -/
theorem test_writeMultipleRegisters :
    wire (step (engine [0x01, 0x10, 0x00, 0x01, 0x00, 0x02, 0x04, 0x00, 0x0A, 0x01, 0x02, 0x92, 0x30] (doing []))) =
      some [[0x01, 0x10, 0x00, 0x01, 0x00, 0x02, 0x10, 0x08]] ∧
    calls (step (engine [0x01, 0x10, 0x00, 0x01, 0x00, 0x02, 0x04, 0x00, 0x0A, 0x01, 0x02, 0x92, 0x30]
      (doing [.readRegisterValue 1]))) = [.readRegisterValue 1 (some 0x0102)] := by decide +kernel
/-- V-WMR-3: an 8-byte frame; the byte count reads 4 and the data do not fit. -/
theorem test_writeMultipleRegisters_short :
    wire (step (engine [0x01, 0x10, 0x00, 0x01, 0x00, 0x02, 0x04, 0x00, 0x0A, 0xC7, 0xC3] (doing []))) =
      some [[0x01, 0x90, 0x03, 0x0C, 0x01]] := by decide +kernel
/-- V-RAW-1: low bytes only, no length byte. -/
theorem test_rawTransfer : wire (step (engine [0x01, 0x41, 0x00, 0x00, 0x77, 0x05, 0xDA, 0x36]
    (doing ([0x100, 0x101, 0x102, 0x103, 0x104].map .writeRegister)))) =
      some [[0x01, 0x41, 0x00, 0x01, 0x02, 0x03, 0x04, 0xA5, 0xDE]] := by decide +kernel
/-- V-ILL-5: a code with bit 7 set keeps it. -/
theorem test_illegalFunction : wire (step (engine [0x01, 0xFF, 0x00, 0x00, 0x00, 0x00, 0x15, 0xDE] (doing []))) =
    some [[0x01, 0xFF, 0x01, 0xA0, 0x30]] := by decide +kernel

/-! ### The poll -/

/-- V-VAL-1: a valid frame for unit 6 at unit 5 is dropped. -/
theorem test_foreign : wire (step { engine [0x06, 0x03, 0x00, 0x00, 0x00, 0x01, 0x85, 0xBD] (doing []) with cfgUnit := 5 }) =
    some [] := by decide +kernel
/-- V-ASM-7: the clock has wrapped; elapsed time is 6144. -/
theorem test_elapsed_wraps : elapsed 32 0x800 0xFFFFF000 = 6144 ∧ elapsed 32 0x100 0xFFFFFF00 = 512 := by decide +kernel
/-- D34: the count says one byte and there is none. -/
theorem test_missing_byte : refusal (step { engine [] (doing []) with
    obsCount := 1, host := [.poll { portsAt 4010 (doing []) with avail := some 1 }] }) = some .rxReadEmpty := by
  decide +kernel
/-- R264: a poll from inside the callback. -/
theorem test_reentrant : refusal (step (engine [0x01, 0x03, 0x00, 0x00, 0x00, 0x01, 0x84, 0x0A] (doing [.process]))) =
    some .reentrant := by decide +kernel

/-! ### Witnesses: for each statement with hypotheses, a state and operands that meet them together -/

/-- The request V-RHR-1. -/
def readOne : List Byte := [0x01, 0x03, 0x00, 0x00, 0x00, 0x01, 0x84, 0x0A]

/-- An engine between polls that meets the invariant. -/
theorem engine_inv (cb : CbRun) : Inv (engine readOne cb) := by
  constructor <;> first | rfl | exact Nat.le_of_ble_eq_true rfl | exact Or.inl rfl

theorem witness_DecodeEncodeGivesBack :
    (Instr.writeMultipleCoils 1 0x13 10 [2, 0xCD, 1]).wf Params.default = true ∧
      (Instr.readCoils 0xFF 0xFFFF 2000 (List.replicate 248 0xFF)).wf Params.default = true ∧
      (Instr.illegalFunction 0 0x80 0 0 0 []).wf Params.default = true := by decide +kernel
theorem witness_EncodeDecodeGivesBack :
    decode Params.default readOne = .ok (.readHoldingRegisters 0x01 0 1 []) := by decide +kernel
theorem witness_FunctionCodeDecidesInstruction :
    decode Params.default [0x01, 0x07, 0x00, 0x00, 0x00, 0x00, 0xB4, 0x0A] = .ok (.illegalFunction 0x01 0x07 0 0 0 []) ∧
      decode Params.default readOne = .ok (.readHoldingRegisters 0x01 0 1 []) := by decide +kernel
theorem witness_ExceptionBitOfHighCodes : 0x80 ≤ (0x80 : Byte).toNat ∧ 0x80 ≤ (0xFF : Byte).toNat := by decide
theorem witness_ResetEventResets :
    ({ engine readOne (doing []) with host := [.reset] } : State).host = .reset :: [] := rfl
theorem witness_LegalBaudFitsClock : 1 ≤ 1 ∧ 26 ≤ 26 ∧ silenceThreshold 1 = 38500000 := by decide +kernel
theorem witness_ConfigureWrites :
    ({ State.reset with host := [.configure 1 1 true false] } : State).host = .configure 1 1 true false :: [] ∧
      State.reset.configured = false ∧ 1 ≤ (1 : BitVec 32).toNat ∧
      silenceThreshold (1 : BitVec 32).toNat < 2 ^ State.reset.params.wt := by decide +kernel
theorem witness_ConfigureRefusals :
    ({ engine readOne (doing []) with host := [.configure 1 9600 false true] } : State).configured = true ∧
      State.reset.configured = false ∧ (0 : BitVec 32).toNat = 0 ∧ 1 ≤ (300 : BitVec 32).toNat ∧
      2 ^ ({ State.reset with params := params16, host := [.configure 1 300 false true] } : State).params.wt ≤
        silenceThreshold (300 : BitVec 32).toNat := by decide +kernel
theorem witness_ConfigurationReadOnly :
    (∃ t, step (engine readOne (doing [])) = .next t) ∧
      (∀ unit baud dir cb rest, (engine readOne (doing [])).host ≠ .configure unit baud dir cb :: rest) ∧
      (∀ rest, (engine readOne (doing [])).host ≠ .reset :: rest) :=
  ⟨⟨_, next_after (by decide +kernel)⟩, nofun, nofun⟩
theorem witness_PollEntryRefusals :
    ({ State.reset with host := [.poll PollEnv.quiet] } : State).configured = false ∧
      State.reset.inProcess = false ∧
      ({ engine readOne (doing []) with inProcess := true } : State).configured = true ∧
      ({ State.reset with inProcess := true, host := [.poll PollEnv.quiet] } : State).inProcess = true := by decide +kernel
theorem witness_CallsOutsideCallbackRefused :
    ({ State.reset with host := [.strayCall (.writeBit true)] } : State).host = .strayCall (.writeBit true) :: [] ∧
      ({ State.reset with host := [.staleView] } : State).host = .staleView :: [] := ⟨rfl, rfl⟩
theorem witness_NothingHappensWithoutHost : State.reset.host = [] := rfl
theorem witness_ArrivalsQueueUpToCapacity :
    ({ State.reset with host := [.arrive readOne] } : State).host = .arrive readOne :: [] ∧
      State.reset.rxQueue.length ≤ State.reset.params.tcap ∧
      ({ State.reset with rxQueue := List.replicate 512 0 } : State).rxQueue.length ≤ State.reset.params.tcap := by
  decide +kernel
theorem witness_ElapsedIsModular : 0 < 2 ^ 32 ∧ 2 ^ 32 - 1 < 2 ^ 32 := by decide
theorem witness_EmptyTransportPoll :
    ({ engine [] (doing []) with obsCount := 8 } : State).configured = true ∧ (engine [] (doing [])).inProcess = false ∧
      reported (portsAt 4010 (doing [])) (engine [] (doing [])) = 0 := by decide +kernel
theorem witness_ChangingCountPoll :
    reported (portsAt 0 (doing [])) { engine readOne (doing []) with obsCount := 7 } = 8 ∧
      8 ≤ (engine readOne (doing [])).params.tcap ∧ (8 : Nat) ≠ 0 ∧ (8 : Nat) ≠ 7 ∧
      (engine readOne (doing [])).inProcess = false := by decide +kernel
/-- V-ASM-5: 4009 of 4010. -/
theorem witness_StillWaitingPoll :
    reported (portsAt 5009 (doing [])) { engine readOne (doing []) with obsTime := 1000 } =
        (engine readOne (doing [])).obsCount ∧
      reported (portsAt 5009 (doing [])) { engine readOne (doing []) with obsTime := 1000 } ≠ 0 ∧
      elapsed 32 (5009 % 2 ^ 32) 1000 < (engine readOne (doing [])).cfgThresh := by decide +kernel
/-- V-ASM-10: a burst of exactly 256 bytes. -/
theorem witness_SilenceTakesBurst :
    256 = rxAvailable { engine (List.replicate 256 1) (doing []) with env := portsAt 4010 (doing []) } ∧
      256 ≤ (engine [] (doing [])).params.tcap ∧ 256 = (engine (List.replicate 256 1) (doing [])).obsCount ∧
      (engine [] (doing [])).cfgThresh ≤ elapsed 32
        (now { engine (List.replicate 256 1) (doing []) with env := portsAt 4010 (doing []) }) 0 ∧
      256 ≤ (engine [] (doing [])).params.rxCap ∧ 256 ≤ (engine (List.replicate 256 1) (doing [])).rxQueue.length ∧
      (engine [] (doing [])).rxBuf.wf = true := by decide +kernel
/-- One byte more than `RX_BUF` holds. -/
theorem witness_OversizeBurstDropped :
    257 = reported (portsAt 4010 (doing [])) (engine (List.replicate 257 1) (doing [])) ∧
      257 ≤ (engine [] (doing [])).params.tcap ∧ 257 = (engine (List.replicate 257 1) (doing [])).obsCount ∧
      (engine [] (doing [])).cfgThresh ≤ elapsed 32 (4010 % 2 ^ 32) 0 ∧
      (engine [] (doing [])).params.rxCap < 257 ∧ 257 ≤ (engine (List.replicate 257 1) (doing [])).rxQueue.length := by
  decide +kernel
theorem witness_UnstableBurstNotTaken :
    step (engine readOne (doing [])) = .next (after (step (engine readOne (doing [])))) ∧
      (after (step (engine readOne (doing [])))).rxQueue ≠ (engine readOne (doing [])).rxQueue :=
  ⟨next_after (by decide +kernel), by decide +kernel⟩
theorem witness_MissingByteRefused :
    reported { portsAt 4010 (doing []) with avail := some 1 } { engine [] (doing []) with obsCount := 1 } = 1 ∧
      ({ engine [] (doing []) with obsCount := 1 } : State).rxQueue.length < 1 ∧
      (engine [] (doing [])).cfgThresh ≤ elapsed 32 (4010 % 2 ^ 32) 0 := by decide +kernel
/-- The three ways a frame is invalid: 7 bytes, another unit, a wrong last byte. -/
theorem witness_InvalidFrameDropped :
    (readOne.take 7).length < 8 ∧
      ((1 : Byte) ≠ 0 ∧ ([0x06, 0x03, 0x00, 0x00, 0x00, 0x01, 0x85, 0xBD] : List Byte)[0]? ≠ some 1) ∧
      checksumOk Params.default [0x01, 0x03, 0x00, 0x00, 0x00, 0x01, 0x84, 0x0B] = false ∧
      (engine (readOne.take 7) (doing [])).configured = true ∧
      7 = reported (portsAt 4010 (doing [])) (engine (readOne.take 7) (doing [])) ∧
      7 = (engine (readOne.take 7) (doing [])).obsCount ∧
      (engine [] (doing [])).cfgThresh ≤ elapsed 32 (4010 % 2 ^ 32) 0 ∧ 7 ≤ (engine [] (doing [])).params.rxCap := by
  decide +kernel
theorem witness_StepRunsDecodedInstruction :
    (engine readOne (doing [])).host = .poll (portsAt 4010 (doing [])) :: [] ∧
      (engine readOne (doing [])).configured = true ∧ (engine readOne (doing [])).inProcess = false ∧
      8 = reported (portsAt 4010 (doing [])) (engine readOne (doing [])) ∧ 8 ≤ (engine [] (doing [])).params.tcap ∧
      8 = (engine readOne (doing [])).obsCount ∧
      (engine readOne (doing [])).cfgThresh ≤ elapsed 32 (4010 % 2 ^ 32) 0 ∧
      8 ≤ (engine readOne (doing [])).rxQueue.length ∧ (engine readOne (doing [])).rxBuf.wf = true ∧
      decode Params.default ((engine readOne (doing [])).rxQueue.take 8) = .ok (.readHoldingRegisters 1 0 1 []) ∧
      (Instr.readHoldingRegisters 1 0 1 []).unit = (engine readOne (doing [])).cfgUnit := by decide +kernel

/-- A configured engine at which a whole request arrives. -/
def listening : State :=
  { State.reset with
    configured := true
    cfgUnit := 1
    cfgThresh := 4010
    host := [.arrive readOne, .poll (portsAt 5 (doing [])), .poll (portsAt 4015 (doing []))] }

theorem witness_SilentRequestIsRun :
    Inv listening ∧ listening.configured = true ∧ listening.obsCount = 0 ∧ listening.rxQueue = [] ∧
      (Instr.readHoldingRegisters 1 0 1 []).wf listening.params = true ∧
      encode listening.params (.readHoldingRegisters 1 0 1 []) = readOne ∧ readOne.length ≤ listening.params.tcap ∧
      listening.cfgThresh ≤ elapsed 32 (4015 % 2 ^ 32) (5 % 2 ^ 32) :=
  ⟨by constructor <;> decide, by decide +kernel⟩

/-- A callback that makes every kind of call: one write of each kind, and both accessors. -/
def mixedCalls : List CbAct := [.writeBit true, .writeRegister 7, .readCoilValue 0, .readRegisterValue 0]

/-- Both ends of the range of READ_COILS. -/
theorem witness_BitReadsAnswered :
    1 ≤ (1 : U16).toNat ∧ (2000 : U16).toNat ≤ 2000 ∧ (atRequest readOne (doing mixedCalls)).cfgCb = true ∧
      (atRequest readOne (doing mixedCalls)).env.txCompletes = true ∧
      (atRequest readOne (doing mixedCalls)).txBuf.wf = true ∧
      (atRequest readOne (doing mixedCalls)).env.cb = { acts := mixedCalls, ends := .returns .ok } ∧
      CbAct.process ∉ mixedCalls := by decide +kernel
theorem witness_RegisterReadsAnswered :
    1 ≤ (1 : U16).toNat ∧ (125 : U16).toNat ≤ 125 ∧ (atRequest readOne (doing mixedCalls)).cfgCb = true ∧
      (atRequest readOne (doing mixedCalls)).env.txCompletes = true ∧
      (atRequest readOne (doing mixedCalls)).txBuf.wf = true ∧
      (atRequest readOne (doing mixedCalls)).env.cb = { acts := mixedCalls, ends := .returns .ok } ∧
      CbAct.process ∉ mixedCalls := by decide +kernel
theorem witness_RawTransferAnswered :
    1 ≤ (1 : Byte).toNat ∧ (123 : Byte).toNat ≤ 123 ∧ (atRequest readOne (doing mixedCalls)).cfgCb = true ∧
      (atRequest readOne (doing mixedCalls)).env.txCompletes = true ∧
      (atRequest readOne (doing mixedCalls)).txBuf.wf = true ∧
      (atRequest readOne (doing mixedCalls)).env.cb = { acts := mixedCalls, ends := .returns .ok } ∧
      CbAct.process ∉ mixedCalls := by decide +kernel

/-- The requests V-WSC-1, V-WSR-1, V-WMC-1 and V-WMR-1. -/
def coilOn : List Byte := [0x01, 0x05, 0x00, 0xAC, 0xFF, 0x00, 0x4C, 0x1B]
def regSet : List Byte := [0x01, 0x06, 0x00, 0x01, 0x00, 0x03, 0x98, 0x0B]
def coilsSet : List Byte := [0x01, 0x0F, 0x00, 0x13, 0x00, 0x0A, 0x02, 0xCD, 0x01, 0x72, 0xCB]
def regsSet : List Byte := [0x01, 0x10, 0x00, 0x01, 0x00, 0x02, 0x04, 0x00, 0x0A, 0x01, 0x02, 0x92, 0x30]

theorem witness_SingleWritesEchoed :
    (atRequest coilOn (doing [.readCoilValue 0])).cfgCb = true ∧
      (atRequest coilOn (doing [.readCoilValue 0])).env.txCompletes = true ∧
      (atRequest coilOn (doing [.readCoilValue 0])).txBuf.wf = true ∧
      rxHoldsView (.writeSingleCoil 1 0xAC 0xFF00 []) (atRequest coilOn (doing [.readCoilValue 0])) ∧
      rxHoldsView (.writeSingleRegister 1 1 3 []) (atRequest regSet (doing [.readRegisterValue 0])) ∧
      (atRequest regSet (doing [.readRegisterValue 0])).cfgCb = true ∧
      CbAct.process ∉ [CbAct.readCoilValue 0] := by unfold rxHoldsView; decide +kernel
theorem witness_MultipleWritesEchoed :
    rxHoldsView (.writeMultipleCoils 1 0x13 10 [2, 0xCD, 1]) (atRequest coilsSet (doing [.readCoilValue 0])) ∧
      (2 : Byte).toNat = ceil8 (10 : U16).toNat ∧ 1 ≤ (10 : U16).toNat ∧ (10 : U16).toNat ≤ 1968 ∧
      (2 : Byte).toNat ≤ ([0xCD, 1] : List Byte).length ∧
      (atRequest coilsSet (doing [.readCoilValue 0])).cfgCb = true ∧
      (246 : Byte).toNat = ceil8 (1968 : U16).toNat ∧
      rxHoldsView (.writeMultipleRegisters 1 1 2 [4, 0, 0x0A, 1, 2]) (atRequest regsSet (doing [.readRegisterValue 0])) ∧
      (4 : Byte).toNat = 2 * (2 : U16).toNat ∧ (246 : Byte).toNat = 2 * (123 : U16).toNat ∧
      (atRequest regsSet (doing [.readRegisterValue 0])).txBuf.wf = true := by unfold rxHoldsView; decide +kernel
/-- One request of each form at the edge of its row's checks, and a state in which it runs. -/
theorem witness_ValidRequestsComplete :
    (Instr.readCoils 1 0 2000 []).structurallyValid = true ∧
      (Instr.readDiscreteInputs 1 0 1 []).structurallyValid = true ∧
      (Instr.readHoldingRegisters 1 0 125 []).structurallyValid = true ∧
      (Instr.readInputRegisters 1 0 1 []).structurallyValid = true ∧
      (Instr.writeSingleCoil 1 0xAC 0xFF00 []).structurallyValid = true ∧
      (Instr.writeSingleRegister 1 1 3 []).structurallyValid = true ∧
      (Instr.writeMultipleCoils 1 0x13 10 [2, 0xCD, 1]).structurallyValid = true ∧
      (Instr.writeMultipleRegisters 1 1 2 [4, 0, 0x0A, 1, 2]).structurallyValid = true ∧
      (Instr.rawTransfer 1 0 0x77 123 []).structurallyValid = true ∧
      (atRequest readOne (doing [.writeRegister 7])).cfgCb = true ∧
      (atRequest readOne (doing [.writeRegister 7])).env.txCompletes = true ∧
      (atRequest readOne (doing [.writeRegister 7])).txBuf.wf = true ∧
      rxHoldsView (.readHoldingRegisters 1 0 1 []) (atRequest readOne (doing [.writeRegister 7])) ∧
      rxHoldsView (.writeMultipleCoils 1 0x13 10 [2, 0xCD, 1]) (atRequest coilsSet (doing [.readCoilValue 0])) ∧
      CbAct.process ∉ [CbAct.writeRegister 7] := by unfold rxHoldsView; decide +kernel
theorem witness_IllegalFunctionAnswered :
    (atRequest readOne (doing [])).env.txCompletes = true ∧ (atRequest readOne (doing [])).txBuf.wf = true := by
  decide +kernel
/-- Each row's check failing, at the edge of its range. -/
theorem witness_FailedCheckAnswered :
    (Instr.readCoils 1 0 2001 []).structurallyValid = false ∧ (Instr.readCoils 1 0 0 []).structurallyValid = false ∧
      (Instr.readDiscreteInputs 1 0 2001 []).structurallyValid = false ∧
      (Instr.readHoldingRegisters 1 0 126 []).structurallyValid = false ∧
      (Instr.readInputRegisters 1 0 126 []).structurallyValid = false ∧
      (Instr.writeSingleCoil 1 0 0x00FF []).structurallyValid = false ∧
      (Instr.writeMultipleCoils 1 0 1969 (247 :: List.replicate 247 0)).structurallyValid = false ∧
      (Instr.writeMultipleRegisters 1 0 2 [3, 0, 0, 0]).structurallyValid = false ∧
      (Instr.rawTransfer 1 0 0 124 []).structurallyValid = false ∧
      (Instr.illegalFunction 1 0x80 0 0 0 []).structurallyValid = false ∧
      (atRequest readOne (doing [])).env.txCompletes = true ∧ (atRequest readOne (doing [])).txBuf.wf = true := by
  decide +kernel
theorem witness_NoCallbackAnswered :
    (Instr.readHoldingRegisters 1 0 125 []).structurallyValid = true ∧
      ({ atRequest readOne (doing []) with cfgCb := false } : State).cfgCb = false ∧
      (atRequest readOne (doing [])).env.txCompletes = true ∧ (atRequest readOne (doing [])).txBuf.wf = true := by
  decide +kernel

/-- A callback that makes some calls and returns a status. -/
def returning (acts : List CbAct) (st : Status) : CbRun := { acts := acts, ends := .returns st }

theorem witness_CallbackExceptionSentVerbatim :
    (Instr.writeSingleCoil 1 0xAC 0xFF00 []).structurallyValid = true ∧
      (atRequest coilOn (returning [.writeBit true] (.exc 0x02))).cfgCb = true ∧
      (atRequest coilOn (returning [.writeBit true] (.exc 0x02))).env.txCompletes = true ∧
      (atRequest coilOn (returning [.writeBit true] (.exc 0x02))).txBuf.wf = true ∧
      CbAct.process ∉ [CbAct.writeBit true] ∧ (0x02 : Byte) ≠ 0x00 ∧
      rxHoldsView (.writeSingleCoil 1 0xAC 0xFF00 []) (atRequest coilOn (returning [.writeBit true] (.exc 0x02))) := by
  unfold rxHoldsView; decide +kernel
theorem witness_SuppressedResponseSilent :
    (Instr.writeMultipleCoils 1 0x13 10 [2, 0xCD, 1]).structurallyValid = true ∧
      (atRequest coilsSet (returning [.readCoilValue 0] .suppress)).cfgCb = true ∧
      CbAct.process ∉ [CbAct.readCoilValue 0] ∧
      rxHoldsView (.writeMultipleCoils 1 0x13 10 [2, 0xCD, 1])
        (atRequest coilsSet (returning [.readCoilValue 0] .suppress)) := by
  unfold rxHoldsView; decide +kernel
/-- Each clause: a nested poll, a status 0, no return, and a transmission that never ends (exception and normal). -/
theorem witness_BrokenPortsHaveNoEndState :
    (Instr.readHoldingRegisters 1 0 1 []).structurallyValid = true ∧
      CbAct.process ∈ (atRequest readOne (doing [.process])).env.cb.acts ∧
      (atRequest readOne (returning [] (.exc 0x00))).env.cb.ends = .returns (.exc 0x00) ∧
      CbAct.process ∉ (atRequest readOne (returning [] (.exc 0x00))).env.cb.acts ∧
      (atRequest readOne { acts := [], ends := .never }).env.cb.ends = .never ∧
      ({ atRequest readOne (doing []) with
        env := { portsAt 4010 (doing []) with txCompletes := false } } : State).env.txCompletes = false ∧
      (Instr.readCoils 1 0 0 []).structurallyValid = false ∧ Status.ok ≠ .exc 0x00 ∧ Status.ok ≠ .suppress := by
  decide +kernel
theorem witness_InstructionFrame :
    ∃ t, exec (.readHoldingRegisters 1 0 1 []) (atRequest readOne (doing [.writeRegister 7])) = .next t :=
  ⟨_, next_after (by decide +kernel)⟩
theorem witness_CallbackChangesOnlyBuilder :
    (∃ t, runActs [.writeBit true] (atRequest readOne (doing [])) = .next t) ∧
      (∃ t, runActs [.readCoilValue 0] (atRequest readOne (doing [])) = .next t) :=
  ⟨⟨_, next_after (by decide +kernel)⟩, ⟨_, next_after (by decide +kernel)⟩⟩
theorem witness_RefusedBuilderWritesIgnored :
    State.reset.bkind ≠ .bit ∧ ({ State.reset with bkind := .bit } : State).bcap ≤ State.reset.wofs ∧
      State.reset.bkind ≠ .reg ∧ State.reset.bkind ≠ .rawByte ∧
      ({ State.reset with bkind := .reg } : State).bkind = .reg := by decide
/-- Each clause: a decode after a read that wrote, a run that fills the capacity and goes beyond it, an instruction, and
a step from a state between polls whose write offset is the capacity (as P1 leaves it). -/
theorem witness_WriteOffsetNeverAboveCapacity :
    (beginDecode 1 0x07 0 { State.reset with bcap := 3, wofs := 3 }).wofs = 0 ∧
      ({ State.reset with bkind := .reg, bcap := 1 } : State).wofs ≤ 1 ∧
      (after (runActs [.writeRegister 7, .writeBit true, .writeRegister 8]
        { State.reset with bkind := .reg, bcap := 1 })).wofs = 1 ∧
      isNext (exec (.readHoldingRegisters 1 0 1 []) (atRequest readOne (doing [.writeRegister 7]))) = true ∧
      ({ engine readOne (doing []) with bcap := 3, wofs := 3 } : State).wofs ≤ 3 ∧
      isNext (step { engine readOne (doing []) with bcap := 3, wofs := 3 }) = true := by decide +kernel
theorem witness_AccessorsServeOnlyTheirFunctions :
    ({ State.reset with req := some ⟨1, 0x03, 0, 1, 0, 0⟩ } : State).req = some ⟨1, 0x03, 0, 1, 0, 0⟩ ∧
      (0x03 : Byte) ≠ 0x05 ∧ (0x03 : Byte) ≠ 0x0F ∧ (0x03 : Byte) ≠ 0x06 ∧ (0x03 : Byte) ≠ 0x10 := by decide
theorem witness_MarksNeverCleared :
    (∃ t, step (engine readOne (doing [])) = .next t) ∧
      ({ engine readOne (doing []) with marks := Marks.add .builderKind Marks.clear } : State).marks.has .builderKind =
        true := ⟨⟨_, next_after (by decide +kernel)⟩, rfl⟩
theorem witness_PollObservation :
    (engine readOne (doing [.writeRegister 7])).host = .poll (portsAt 4010 (doing [.writeRegister 7])) :: [] ∧
      ∃ t, step (engine readOne (doing [.writeRegister 7])) = .next t := ⟨rfl, _, next_after (by decide +kernel)⟩
theorem witness_AtMostOneTransmission :
    (∃ t, step (engine readOne (doing [])) = .next t) ∧
      (∃ t, step { State.reset with host := [.configure 1 9600 true true] } = .next t) :=
  ⟨⟨_, next_after (by decide +kernel)⟩, ⟨_, next_after (by decide +kernel)⟩⟩
/-- A step that transmits, from a state that meets the invariant. -/
theorem witness_SentFramesAreValid :
    Inv (engine readOne (doing [])) ∧
      step (engine readOne (doing [])) = .next (after (step (engine readOne (doing [])))) ∧
      (after (step (engine readOne (doing [])))).trace =
        (engine readOne (doing [])).trace ++ (after (step (engine readOne (doing [])))).trace ∧
      sent (after (step (engine readOne (doing [])))).trace ≠ [] :=
  ⟨engine_inv _, next_after (by decide +kernel), by decide +kernel, by decide +kernel⟩
theorem witness_ResponseUnitIsRequestUnit :
    Inv (engine readOne (doing [])) ∧ (engine readOne (doing [])).cfgUnit ≠ 0 ∧
      sent (after (step (engine readOne (doing [])))).trace ≠ [] :=
  ⟨engine_inv _, by decide, by decide +kernel⟩
theorem witness_PhasesFollowTable :
    Inv (engine readOne (doing [])) ∧ (∃ t, step (engine readOne (doing [])) = .next t) :=
  ⟨engine_inv _, _, next_after (by decide +kernel)⟩
theorem witness_StepKeepsInvariant :
    Inv (engine readOne (doing [.writeRegister 7])) ∧
      ∃ t, step (engine readOne (doing [.writeRegister 7])) = .next t :=
  ⟨engine_inv _, _, next_after (by decide +kernel)⟩

/-- The engine with other stale contents: both buffers, the lengths, the builder fields, as a read may leave them. -/
def stale : State :=
  { engine readOne (doing []) with
    rxBuf := [(0, 0xAA)]
    txBuf := [(3, 0xBB)]
    rxLen := 5
    plen := 9
    bcap := 4
    wofs := 4 }

theorem witness_StaleStateUnobservable :
    Inv (engine readOne (doing [])) ∧ Inv stale ∧ SameLive (engine readOne (doing [])) stale :=
  ⟨engine_inv _, by constructor <;> decide,
    ⟨rfl, fun _ => ⟨rfl, rfl, rfl, rfl⟩, rfl, fun _ => rfl, rfl, rfl, rfl, rfl, rfl, rfl, rfl, rfl, rfl, rfl, rfl, rfl⟩⟩

end Sys2Proof.Tests
end

/-! PROOFS. The statements about the state: the invariant, what no rule reads, the configuration, the exception
responses of the decoder, the frame of an instruction, the write offset and the phases (10_state.md). -/

namespace Sys2Proof.Machine

/-! ### What an instruction leaves unchanged -/

/-- The builder fields fit the data area when the callback starts (R32, R180). -/
theorem invoked_fits (i : Instr) (s : State) : BuilderFits (invoked (readyState i s)) := by
  simpa [BuilderFits, invoked] using readyState_fits i s

/-- The state the encoder starts from keeps what an instruction keeps, and `TX_BUF` beyond the payload it may hold. -/
theorem exec_encodes_keeps {i : Instr} {s t : State} (h : exec i s = .next t) :
    ∃ st w, encodeResponse st w = .next t ∧ KeepsRest s w ∧
      (i.structurallyValid = false → w.plen = 0 ∧ w.txBuf = s.txBuf) ∧
      (i.structurallyValid = true → w.plen = i.okPlen ∧
        ∀ a, 2 + i.okPlen ≤ a → w.txBuf.read a = s.txBuf.read a) := by
  obtain ⟨st, w, hw, _, _, _, _, hcase⟩ := exec_encodes h
  refine ⟨st, w, hw, ?_⟩
  rcases hcase with ⟨hv, rfl, rfl⟩ | ⟨hv, _, rfl, rfl⟩ | ⟨hv, _, u, _, rfl, _, hu, _⟩
  · refine ⟨by constructor <;> simp, fun _ => by simp, fun hv' => ?_⟩
    rw [hv] at hv'; cases hv'
  · refine ⟨by constructor <;> simp, fun hv' => ?_, fun _ => ⟨by simp, fun a ha => ?_⟩⟩
    · rw [hv] at hv'; cases hv'
    · exact clearData_outside hv s a (.inr ha)
  · have hin : KeepsRest s (invoked (readyState i s)) := by constructor <;> simp [invoked]
    have hret : KeepsRest u (returned st u) := by constructor <;> simp [returned]
    refine ⟨(hin.trans hu.keeps).trans hret, fun hv' => ?_, fun _ => ⟨?_, fun a ha => ?_⟩⟩
    · rw [hv] at hv'; cases hv'
    · rw [returned, checkFill_plen, setStatus_plen, emit_plen, hu.plen_eq]; rfl
    · have hend : (invoked (readyState i s)).dofs + (invoked (readyState i s)).dlen ≤ a := by
        simpa [invoked] using (dofs_add_dlen hv).trans ha
      have hcalls := hu.outside (invoked_fits i s) a (.inr hend)
      rw [returned, checkFill_txBuf, setStatus_txBuf, emit_txBuf, hcalls]
      exact clearData_outside hv s a (.inr ha)

/-- What every instruction that ends in a state leaves unchanged, and that the cycle is over. -/
theorem exec_keeps {i : Instr} {s t : State} (h : exec i s = .next t) : KeepsRest s t ∧ CycleOver t := by
  obtain ⟨st, w, hw, hk, _⟩ := exec_encodes_keeps h
  obtain ⟨hk', hover, _⟩ := encodeResponse_keeps hw
  exact ⟨hk.trans hk', hover⟩

/-- `TX_BUF` outside the longest response the request can have. -/
theorem exec_txBuf_outside {i : Instr} {s t : State} (h : exec i s = .next t) (a : Nat) (h5 : 5 ≤ a)
    (ha : i.structurallyValid = true → 4 + i.okPlen ≤ a) : t.txBuf.read a = s.txBuf.read a := by
  obtain ⟨st, w, hw, _, hinvalid, hvalid⟩ := exec_encodes_keeps h
  obtain ⟨_, _, _, _, hout, _⟩ := encodeResponse_shape hw
  cases hv : i.structurallyValid with
  | false =>
    obtain ⟨hplen, htx⟩ := hinvalid hv
    rw [hout a h5 (by omega), htx]
  | true =>
    obtain ⟨hplen, htx⟩ := hvalid hv
    have := ha hv
    rw [hout a h5 (by omega), htx a (by omega)]

/-- Settles O41. -/
theorem instructionFrame : Obligations.InstructionFrame := fun _ _ _ h =>
  ⟨(exec_keeps h).1, (exec_keeps h).2, exec_txBuf_outside h⟩

/-! ### Exceptions of the decoder -/

/-- A request that fails a check of its row, when `TxSend` completes (R155, R212, R251). -/
theorem exec_failed {i : Instr} {s : State} (hv : i.structurallyValid = false) (htx : s.env.txCompletes = true) :
    exec i s = .next (responded 3 (buildException i.decoderCode (exceptionStart i s))) := by
  rw [exec_of_invalid hv, takeException_eq]
  exact if_pos htx

/-- Settles O36: the exception response of the row's code, from the state the decoder's common part leaves. -/
theorem failedCheckAnswered : Obligations.FailedCheckAnswered := by
  intro s i hv htx hwf
  have hreq : curReq (exceptionStart i s) = ⟨i.unit, i.fc s.params, i.reg, 0, 0, 0⟩ := rfl
  obtain ⟨htrace, hrun, hout⟩ := responded_buildException (s := exceptionStart i s) hwf i.decoderCode
  rw [hreq] at htrace hrun
  obtain ⟨hk, hover⟩ := exec_keeps (exec_failed hv htx)
  refine ⟨_, exec_failed hv htx, ?_, ?_, hout, ?_⟩
  · simpa [exceptionStart] using htrace
  · simpa [exceptionStart] using hrun
  · exact ⟨by simp, by simp [exceptionStart], by simp [exceptionStart], by simp [exceptionStart],
      by simp [exceptionStart], by simp [exceptionStart], by simp [exceptionStart],
      by cases hd : s.cfgDir <;> simp [exceptionStart, hd], hk, hover⟩

/-- Settles O35: an illegal function code fails its row's check by definition, so this is the last row of O36. -/
theorem illegalFunctionAnswered : Obligations.IllegalFunctionAnswered := fun s unit fc reg b4 b5 extra =>
  by simpa only [Instr.unit, Instr.fc, Instr.decoderCode] using
    failedCheckAnswered s (.illegalFunction unit fc reg b4 b5 extra) rfl

/-! ### The configuration -/

/-- The configuration registers and `CONFIGURED` are the same in both states (R21). -/
structure SameConfig (s t : State) : Prop where
  configured : t.configured = s.configured
  cfgUnit : t.cfgUnit = s.cfgUnit
  cfgThresh : t.cfgThresh = s.cfgThresh
  cfgDir : t.cfgDir = s.cfgDir
  cfgCb : t.cfgCb = s.cfgCb

theorem KeepsRest.sameConfig {s t : State} (h : KeepsRest s t) : SameConfig s t :=
  ⟨h.configured, h.cfgUnit, h.cfgThresh, h.cfgDir, h.cfgCb⟩

/-- No poll writes the configuration, however it ends (R21). -/
theorem process_sameConfig {env : PollEnv} {s t : State} (h : process env s = .next t) : SameConfig s t := by
  obtain ⟨_, _, _, hcase⟩ := process_cases h
  cases hcase with
  | empty _ ht => subst ht; constructor <;> simp
  | changed _ _ ht => subst ht; constructor <;> simp
  | waiting _ _ _ ht => subst ht; constructor <;> simp
  | overflow _ _ _ _ _ ht => subst ht; constructor <;> simp
  | dropped _ _ _ _ _ _ _ ht => subst ht; constructor <;> simp
  | run i _ _ _ _ _ _ _ ht =>
    obtain ⟨h1, h2, h3, h4, h5⟩ := (exec_keeps ht).1.sameConfig
    exact ⟨h1, h2, h3, h4, h5⟩

/-- Settles O14. -/
theorem configurationReadOnly : Obligations.ConfigurationReadOnly := by
  intro s t h hconf hreset
  suffices hs : SameConfig s t from ⟨hs.configured, hs.cfgUnit, hs.cfgThresh, hs.cfgDir, hs.cfgCb⟩
  cases step_cases h with
  | idle _ ht => subst ht; exact ⟨rfl, rfl, rfl, rfl, rfl⟩
  | reset rest hh _ => exact absurd hh (hreset rest)
  | configure unit baud dir cb rest hh _ _ _ _ => exact absurd hh (hconf unit baud dir cb rest)
  | arrive bytes rest _ ht => subst ht; exact ⟨rfl, rfl, rfl, rfl, rfl⟩
  | poll env rest _ ht =>
    obtain ⟨h1, h2, h3, h4, h5⟩ := process_sameConfig ht
    exact ⟨h1, h2, h3, h4, h5⟩

/-! ### The write offset (R32) -/

/-- How far one port call advances the write offset: by one if its kind is admitted and the capacity has room. -/
theorem runAct_wofs {a : CbAct} {s t : State} (hw : s.wofs ≤ s.bcap) (h : runAct a s = .next t) :
    t.wofs = min (s.wofs + if admits s.bkind a then 1 else 0) s.bcap := by
  cases a with
  | process => cases h
  | writeBit b =>
    cases h
    by_cases hk : s.bkind = .bit
    · by_cases hc : s.wofs < s.bcap
      · rw [writeBit_accepted (s := emit _ s) hk hc]; simp [admits, hk]; omega
      · rw [writeBit_full (s := emit _ s) hk (Nat.le_of_not_lt hc)]; simp [admits, hk]; omega
    · simp [writeBit, admits, hk, hw]
  | writeRegister v =>
    cases h
    by_cases hk : s.bkind = .reg ∨ s.bkind = .rawByte
    · have hadm : admits s.bkind (.writeRegister v) = true := by simpa [admits] using hk
      by_cases hc : s.wofs < s.bcap
      · rw [writeRegister_accepted (s := emit _ s) hk hc, hadm]; simp; omega
      · rw [writeRegister_full (s := emit _ s) hk (Nat.le_of_not_lt hc), hadm]; simp; omega
    · have hadm : admits s.bkind (.writeRegister v) = false := by simpa [admits] using hk
      rw [hadm]
      cases hb : s.bkind <;> simp_all [writeRegister]
  | readCoilValue k =>
    cases h
    cases hc : coilAccess k s <;> simp [Access.marked, admits, hw]
  | readRegisterValue k =>
    cases h
    cases hc : registerAccess k s <;> simp [Access.marked, admits, hw]

/-- A run of port calls counts the builder calls of the admitted kind up to the capacity (R183 to R186). -/
theorem runActs_wofs {acts : List CbAct} {s t : State} (hw : s.wofs ≤ s.bcap) (h : runActs acts s = .next t) :
    t.wofs = min (s.wofs + builderWrites s.bkind acts) s.bcap := by
  induction acts generalizing s with
  | nil => cases h; simp [builderWrites, hw]
  | cons a as ih =>
    obtain ⟨u, ha, has⟩ := andThen_eq_next h
    obtain ⟨_, hu, _⟩ := runActs_of_next (acts := [a]) (s := s) (t := u) (by rw [runActs, ha]; rfl)
    have hwu := runAct_wofs hw ha
    have hcount : builderWrites s.bkind (a :: as) = builderWrites s.bkind as + if admits s.bkind a then 1 else 0 :=
      List.countP_cons
    rw [ih (by rw [hu.bcap_eq]; exact hu.wofs_le hw) has, hwu, hu.bkind_eq, hu.bcap_eq, hcount]
    omega

/-- Every step keeps the write offset at most the capacity (R32). -/
theorem step_wofs_le_bcap {s t : State} (hw : s.wofs ≤ s.bcap) (h : step s = .next t) : t.wofs ≤ t.bcap := by
  cases step_cases h with
  | idle _ ht => subst ht; exact hw
  | reset rest _ ht => subst ht; exact Nat.le_refl 0
  | configure unit baud dir cb rest _ _ _ _ ht => subst ht; cases dir <;> exact hw
  | arrive bytes rest _ ht => subst ht; exact hw
  | poll env rest _ ht =>
    obtain ⟨_, _, _, hcase⟩ := process_cases ht
    cases hcase with
    | empty _ ht => subst ht; exact hw
    | changed _ _ ht => subst ht; exact hw
    | waiting _ _ _ ht => subst ht; exact hw
    | overflow _ _ _ _ _ ht => subst ht; exact hw
    | dropped _ _ _ _ _ _ _ ht => subst ht; exact hw
    | run i _ _ _ _ _ _ _ ht =>
      obtain ⟨_, _, _, _, _, _, hle, _⟩ := exec_leaves ht
      exact hle

/-- Settles O44. -/
theorem writeOffsetNeverAboveCapacity : Obligations.WriteOffsetNeverAboveCapacity := by
  refine ⟨Nat.le_refl 0, fun s => ⟨fun _ _ _ => ⟨rfl, rfl⟩, fun acts t hw h => ?_, fun i t h => ?_,
    fun t hw h => step_wofs_le_bcap hw h⟩⟩
  · obtain ⟨_, hcalls, _⟩ := runActs_of_next h
    exact ⟨runActs_wofs hw h, hcalls.bcap_eq⟩
  · obtain ⟨_, _, _, _, _, _, hle, _⟩ := exec_leaves h
    exact hle

/-! ### The invariant -/

/-- Settles O8. -/
theorem resetValues : Obligations.ResetValues :=
  ⟨rfl, rfl, rfl, rfl, rfl, rfl, rfl, rfl, rfl, rfl, rfl, rfl, rfl, rfl⟩

/-- The reset event meets the invariant in every state: it writes every field the invariant speaks of but the
transport's queue (R39, R280). -/
theorem inv_applyReset {s : State} (hq : s.rxQueue.length ≤ s.params.tcap) : Inv (applyReset s) where
  rxWf := rfl
  txWf := rfl
  rxWithin := rfl
  txWithin := rfl
  rxLen := Nat.zero_le _
  obsCount := Nat.zero_le _
  obsTime := Nat.two_pow_pos _
  cfgThresh := Nat.two_pow_pos _
  plen := Nat.zero_le _
  bcap := Nat.zero_le _
  dofs := .inl rfl
  dlen := Nat.zero_le _
  wofs := Nat.le_refl _
  rxQueue := hq
  dirLine := rfl
  req := rfl
  status := rfl
  inProcess := rfl
  phase := rfl

/-- Settles O52: the reset state is its own reset. -/
theorem invariantAtReset : Obligations.InvariantAtReset :=
  inv_applyReset (s := State.reset) (Nat.zero_le _)

/-- Bytes that arrive fill the transport's queue up to `P_TCAP` (R266). -/
theorem inv_arrive {s : State} (h : Inv s) (bytes : List Byte) : Inv (arrive bytes s) :=
  { h with
    rxQueue := by
      have := h.rxQueue
      simp only [arrive, List.length_append, List.length_take]
      omega }

/-- Configure keeps the invariant: it refuses a threshold the clock cannot hold (R282), and drives the line only to
receive (R281). -/
theorem inv_configured {s : State} (h : Inv s) {thresh : Nat} (ht : thresh < 2 ^ s.params.wt) (unit : Byte)
    (dir cb : Bool) :
    Inv { initDirection dir { s with cfgUnit := unit, cfgThresh := thresh, cfgDir := dir, cfgCb := cb } with
      configured := true } := by
  cases dir with
  | false => exact { h with cfgThresh := ht }
  | true => exact { h with cfgThresh := ht, dirLine := rfl }

/-- A poll that takes no frame keeps the invariant if its baseline is in range (R27, R28, R36). -/
theorem inv_noFrameTaken {s : State} (h : Inv s) {count time : Nat} (hc : count ≤ s.params.tcap)
    (ht : time < 2 ^ s.params.wt) (env : PollEnv) : Inv (noFrameTaken env count time s) :=
  { h with obsCount := hc, obsTime := ht, inProcess := rfl, phase := rfl }

/-- What is left of the invariant while a poll handles the frame it took: all of it but the end of the cycle. -/
structure MidInv (s : State) : Prop where
  rxWf : s.rxBuf.wf = true
  txWf : s.txBuf.wf = true
  rxWithin : s.rxBuf.within s.params.rxCap = true
  txWithin : s.txBuf.within 255 = true
  rxLen : s.rxLen ≤ s.params.rxCap
  obsCount : s.obsCount = 0
  obsTime : s.obsTime < 2 ^ s.params.wt
  cfgThresh : s.cfgThresh < 2 ^ s.params.wt
  plen : s.plen ≤ 251
  bcap : s.bcap ≤ 2000
  dofs : s.dofs = 2 ∨ s.dofs = 3
  dlen : s.dlen ≤ 250
  wofs : s.wofs ≤ s.bcap
  rxQueue : s.rxQueue.length ≤ s.params.tcap
  dirLine : s.dirLine = false

/-- The end of a cycle restores what the invariant asks of it (R236, R240). -/
theorem MidInv.inv {s : State} (h : MidInv s) (hover : CycleOver s) : Inv s :=
  { h with
    obsCount := by rw [h.obsCount]; exact Nat.zero_le _
    req := hover.req
    status := hover.status
    inProcess := hover.inProcess
    phase := by rw [h.obsCount, hover.phase]; rfl }

/-- A burst is stored inside `RX_BUF` (R104, R107). -/
theorem midInv_burstTaken {s : State} (h : Inv s) (env : PollEnv) (c : Nat) : MidInv (burstTaken env c s) :=
  { h with
    rxWf := Memory.wf_writeRun h.rxWf _ _
    rxWithin := Memory.within_writeRun h.rxWithin (by simp only [List.length_take]; omega)
    rxLen := by simp only [burstTaken_rxLen, burstTaken_params]; split <;> omega
    obsCount := rfl
    rxQueue := by
      have := h.rxQueue
      simp only [burstTaken_rxQueue, burstTaken_params, List.length_drop]
      omega }

theorem midInv_validating {s : State} (h : MidInv s) : MidInv (validating s) := { h with }

theorem midInv_dropFrame {s : State} (h : MidInv s) : MidInv (dropFrame s) := { h with }

theorem cycleOver_dropFrame (s : State) : CycleOver (dropFrame s) := ⟨rfl, rfl, rfl, rfl⟩

/-- An instruction keeps what the invariant says of a poll under way (R58, R32, R31). -/
theorem midInv_exec {i : Instr} {s t : State} (h : MidInv s) (he : exec i s = .next t) : MidInv t := by
  obtain ⟨hk, _⟩ := exec_keeps he
  obtain ⟨htxWf, htxWithin, hplen, hbcap, hdofs, hdlen, hwofs, _, hdir⟩ := exec_leaves he
  exact {
    rxWf := by rw [hk.rxBuf]; exact h.rxWf
    txWf := htxWf h.txWf
    rxWithin := by rw [hk.rxBuf, hk.params]; exact h.rxWithin
    txWithin := htxWithin h.txWithin
    rxLen := by rw [hk.rxLen, hk.params]; exact h.rxLen
    obsCount := by rw [hk.obsCount]; exact h.obsCount
    obsTime := by rw [hk.obsTime, hk.params]; exact h.obsTime
    cfgThresh := by rw [hk.cfgThresh, hk.params]; exact h.cfgThresh
    plen := hplen h.plen
    bcap := hbcap
    dofs := hdofs
    dlen := hdlen
    wofs := hwofs
    rxQueue := by rw [hk.rxQueue, hk.params]; exact h.rxQueue
    dirLine := hdir h.dirLine }

/-- A poll keeps the invariant. -/
theorem inv_process {env : PollEnv} {s t : State} (h : Inv s) (hp : process env s = .next t) : Inv t := by
  obtain ⟨_, _, htcap, hcase⟩ := process_cases hp
  have hburst := midInv_burstTaken h env (reported env s)
  cases hcase with
  | empty _ ht => subst ht; exact inv_noFrameTaken h h.obsCount h.obsTime env
  | changed _ _ ht => subst ht; exact inv_noFrameTaken h htcap (Nat.mod_lt _ (Nat.two_pow_pos _)) env
  | waiting _ _ _ ht => subst ht; exact inv_noFrameTaken h h.obsCount h.obsTime env
  | overflow _ _ _ _ _ ht => subst ht; exact (midInv_dropFrame hburst).inv (cycleOver_dropFrame _)
  | dropped _ _ _ _ _ _ _ ht =>
    subst ht; exact (midInv_dropFrame (midInv_validating hburst)).inv (cycleOver_dropFrame _)
  | run i _ _ _ _ hc _ _ ht =>
    have hreq : MidInv (requestTaken env s.host (reported env s) s) := by
      rw [← requestTaken_eq (rest := s.host) hc]
      exact { midInv_validating hburst with }
    exact (midInv_exec hreq ht).inv (exec_keeps ht).2

/-- Settles O53, by what each host event does. -/
theorem stepKeepsInvariant : Obligations.StepKeepsInvariant := by
  intro s t h hs
  have hrest (rest : List HostEvent) : Inv { s with host := rest } := { h with }
  cases step_cases hs with
  | idle _ ht => subst ht; exact h
  | reset rest _ ht => subst ht; exact inv_applyReset h.rxQueue
  | configure unit baud dir cb rest _ _ _ hw ht => subst ht; exact inv_configured (hrest rest) hw unit dir cb
  | arrive bytes rest _ ht => subst ht; exact inv_arrive (hrest rest) bytes
  | poll env rest _ ht => exact inv_process (hrest rest) ht

/-! ### The phases of a poll -/

/-- A path of R231's table from the phase `a` to the phase `b`, where the engine rests between polls. -/
structure PhasePath (a b : Phase) (path : List Phase) : Prop where
  chain : phaseChain path = true
  head : path.head? = some a
  last : path.getLast? = some b
  rests : b = .idle ∨ b = .accumulating

/-- A poll goes through the table from the phase held before it, which says what the baseline says, to the phase held
after it (R36, R231). -/
theorem process_phasePath {env : PollEnv} {s t : State}
    (hphase : s.phase = if s.obsCount = 0 then .idle else .accumulating) (h : process env s = .next t) :
    PhasePath s.phase t.phase t.phasePath := by
  obtain ⟨_, _, _, hcase⟩ := process_cases h
  have hacc (h0 : reported env s ≠ 0) (he : reported env s = s.obsCount) : s.phase = .accumulating := by
    rw [hphase, if_neg (he ▸ h0)]
  cases hcase with
  | empty _ ht =>
    subst ht
    by_cases hc : s.obsCount = 0 <;> constructor <;> simp [hphase, hc, phaseChain, phaseEdge]
  | changed h0 _ ht =>
    subst ht
    by_cases hc : s.obsCount = 0 <;> constructor <;> simp [hphase, h0, hc, phaseChain, phaseEdge]
  | waiting h0 he _ ht =>
    subst ht
    have hc : s.obsCount ≠ 0 := he ▸ h0
    constructor <;> simp [hacc h0 he, hc, phaseChain, phaseEdge]
  | overflow h0 he _ _ _ ht =>
    subst ht
    constructor <;> simp [hacc h0 he, phaseChain, phaseEdge]
  | dropped _ h0 he _ _ _ _ ht =>
    subst ht
    constructor <;> simp [hacc h0 he, phaseChain, phaseEdge]
  | run i h0 he _ _ _ _ _ ht =>
    rw [(exec_keeps ht).2.phase]
    rcases exec_phases ht with hpath | hpath | hpath <;> rw [hpath] <;> constructor <;>
      simp [hacc h0 he, phaseChain, phaseEdge]

/-- Settles O51. -/
theorem phasesFollowTable : Obligations.PhasesFollowTable := by
  intro s t env rest hinv hhost hs
  rw [step_poll hhost] at hs
  obtain ⟨hchain, hhead, hlast, hrests⟩ := process_phasePath (s := { s with host := rest }) hinv.phase hs
  exact ⟨hchain, hhead, hlast, hrests⟩

end Sys2Proof.Machine

/-! PROOFS. What no rule reads is not observable (R26, R28, R38, R237, R238): each operation of a poll takes states that
agree on everything live to such states again. -/

namespace Sys2Proof.Machine

/-! ### Operations that keep two states alike -/

section

variable {s t : State} (h : SameLive s t)
include h

theorem SameLive.setHost (rest : List HostEvent) : SameLive { s with host := rest } { t with host := rest } :=
  { h with host := rfl }

theorem SameLive.emit (e : PortEvent) : SameLive (emit e s) (emit e t) :=
  { h with trace := congrArg (· ++ [e]) h.trace }

theorem SameLive.enter (p : Phase) : SameLive (enter p s) (enter p t) :=
  { h with phase := rfl, phasePath := congrArg (· ++ [p]) h.phasePath }

theorem SameLive.setStatus (st : Status) : SameLive (setStatus st s) (setStatus st t) := { h with status := rfl }

theorem SameLive.markFault (m : Mark) : SameLive (markFault m s) (markFault m t) :=
  { h with marks := congrArg (Marks.add m) h.marks }

theorem SameLive.endCycle : SameLive (endCycle s) (endCycle t) :=
  { h with
    req := rfl, status := rfl, inProcess := rfl, phase := rfl
    phasePath := congrArg (· ++ [Phase.idle]) h.phasePath }

theorem SameLive.dropFrame : SameLive (dropFrame s) (dropFrame t) := (h.enter .dropped).endCycle

theorem SameLive.validating : SameLive (validating s) (validating t) := (h.enter .frameReady).enter .validating

theorem SameLive.beginDecode (unit fc : Byte) (reg : U16) :
    SameLive (beginDecode unit fc reg s) (beginDecode unit fc reg t) := { h with req := rfl }

theorem SameLive.readyState (i : Instr) : SameLive (readyState i s) (readyState i t) :=
  { h with req := by rw [readyState_req, readyState_req, h.params] }

theorem SameLive.clearData : SameLive (clearData s) (clearData t) := { h with }

theorem SameLive.writeTx (a : Nat) (b b' : Byte) : SameLive (writeTx a b s) (writeTx a b' t) := { h with }

theorem SameLive.setPlen (n n' : Nat) : SameLive { s with plen := n } { t with plen := n' } := { h with }

theorem SameLive.buildException (e : Byte) : SameLive (buildException e s) (buildException e t) :=
  (((h.writeTx 0 _ _).writeTx 1 _ _).writeTx 2 e e).setPlen 1 1

theorem SameLive.buildNormal : SameLive (buildNormal s) (buildNormal t) := (h.writeTx 0 _ _).writeTx 1 _ _

/-- The fill is judged by the builder fields (R187). -/
theorem SameLive.checkFill (hkind : t.bkind = s.bkind) (hcap : t.bcap = s.bcap) (hofs : t.wofs = s.wofs)
    (st : Status) : SameLive (checkFill st s) (checkFill st t) := by
  unfold Machine.checkFill
  rw [hkind, hcap, hofs]
  split
  · exact h.markFault _
  · exact h

theorem SameLive.curReq : curReq t = curReq s := by rw [Machine.curReq, Machine.curReq, h.req]

theorem SameLive.reported (env : PollEnv) : reported env t = reported env s := by
  rw [Machine.reported, Machine.reported, h.rxQueue]

/-- Two states that take no frame stay alike if the new baselines are (R28). -/
theorem SameLive.noFrameTaken (env : PollEnv) {count time time' : Nat} (htime : count ≠ 0 → time' = time) :
    SameLive (noFrameTaken env count time s) (noFrameTaken env count time' t) :=
  { h with
    obsCount := rfl
    obsTime := htime
    inProcess := rfl
    env := rfl
    trace := by rw [noFrameTaken_trace, noFrameTaken_trace, h.trace, h.params, h.reported]
    phase := rfl
    phasePath := by rw [noFrameTaken_phasePath, noFrameTaken_phasePath, h.phase] }

/-- A burst taken clears the baseline, so `OBS_TIME` is dead in both (R28, R104). -/
theorem SameLive.burstTaken (env : PollEnv) (c : Nat) : SameLive (burstTaken env c s) (burstTaken env c t) :=
  { h with
    obsCount := rfl
    obsTime := fun hn => absurd rfl hn
    rxQueue := by rw [burstTaken_rxQueue, burstTaken_rxQueue, h.rxQueue]
    inProcess := rfl
    env := rfl
    trace := by rw [burstTaken_trace, burstTaken_trace, h.trace, h.params, h.rxQueue]
    phase := rfl
    phasePath := by rw [burstTaken_phasePath, burstTaken_phasePath, h.phase] }

end

/-! ### Outcomes -/

/-- Two branches taken on equivalent conditions give outcomes alike if each branch does. -/
theorem sameOutcome_ite {p q : Prop} [Decidable p] [Decidable q] {a b c d : Outcome} (hpq : q ↔ p)
    (hthen : p → sameOutcome a c) (helse : ¬ p → sameOutcome b d) :
    sameOutcome (if p then a else b) (if q then c else d) := by
  by_cases hp : p
  · rw [if_pos hp, if_pos (hpq.2 hp)]; exact hthen hp
  · rw [if_neg hp, if_neg (mt hpq.1 hp)]; exact helse hp

/-- Two cycles end alike if their responses show the same on the wire and the line is driven in both or in neither (R215,
R216). -/
theorem SameLive.responded {s t : State} (h : SameLive s t) {n : Nat}
    (htrace : (responded n t).trace = (responded n s).trace) (hdir : t.cfgDir = s.cfgDir) :
    SameLive (responded n s) (responded n t) :=
  { h with
    dirLine := by rw [responded_dirLine, responded_dirLine, hdir, h.dirLine]
    req := rfl
    status := rfl
    phase := rfl
    inProcess := rfl
    phasePath := congrArg (· ++ [Phase.idle]) h.phasePath
    trace := htrace }

/-- The encoder reads of the buffers only the payload of a normal response (R210 to R213). -/
theorem encodeResponse_sameLive {s t : State} (h : SameLive s t) (hc : s.configured = true)
    (hs : s.txBuf.wf = true) (ht : t.txBuf.wf = true) {st : Status}
    (hpay : st = .ok → t.plen = s.plen ∧ t.txBuf.readRun 2 s.plen = s.txBuf.readRun 2 s.plen) :
    sameOutcome (encodeResponse st s) (encodeResponse st t) := by
  obtain ⟨_, _, hdir, _⟩ := h.cfg hc
  have hr := h.enter .responding
  have htx : t.env.txCompletes = true ↔ s.env.txCompletes = true := by rw [h.env]
  rw [encodeResponse_eq, encodeResponse_eq]
  cases st with
  | suppress => exact (h.enter .suppressed).endCycle
  | ok =>
    obtain ⟨hplen, hrun⟩ := hpay rfl
    refine sameOutcome_ite htx (fun _ => ?_) fun _ => rfl
    obtain ⟨htrace, _⟩ := responded_buildNormal (s := enter .responding s) hs s.plen
    obtain ⟨htrace', _⟩ := responded_buildNormal (s := enter .responding t) ht s.plen
    rw [hplen]
    refine hr.buildNormal.responded ?_ (by simpa using hdir)
    rw [htrace, htrace', hr.curReq, hr.trace, hr.params]
    simp only [enter_cfgDir, enter_txBuf, hdir, hrun]
  | exc e =>
    refine sameOutcome_ite htx (fun _ => ?_) fun _ => rfl
    obtain ⟨htrace, _⟩ := responded_buildException (s := enter .responding s) hs e
    obtain ⟨htrace', _⟩ := responded_buildException (s := enter .responding t) ht e
    refine (hr.buildException e).responded ?_ (by simpa using hdir)
    rw [htrace, htrace', hr.curReq, hr.trace, hr.params]
    simp only [enter_cfgDir, hdir]

/-! ### The payload of a READY request -/

/-- A run written to two memories: a byte reads alike if it did before, or if the run covers it. -/
theorem Memory.read_writeRun_congr {m m' : Memory} (hm : m.wf = true) (hm' : m'.wf = true) {a x : Nat} {l : List Byte}
    (hx : m'.read x = m.read x ∨ a ≤ x ∧ x < a + l.length) : (m'.writeRun a l).read x = (m.writeRun a l).read x := by
  by_cases hin : a ≤ x ∧ x < a + l.length
  · obtain ⟨k, rfl⟩ := Nat.exists_eq_add_of_le hin.1
    have hk : k < l.length := by omega
    rw [Memory.read_writeRun_inside hm hk, Memory.read_writeRun_inside hm' hk]
  · rw [Memory.read_writeRun_outside _ (by omega), Memory.read_writeRun_outside _ (by omega)]
    exact hx.resolve_right hin

/-- The builder fields a builder call reads (R183, R184). -/
structure SameBuilder (s t : State) : Prop where
  bkind : t.bkind = s.bkind
  bcap : t.bcap = s.bcap
  dofs : t.dofs = s.dofs
  wofs : t.wofs = s.wofs

theorem itemWritten_wf {s : State} (hs : s.txBuf.wf = true) (a : CbAct) : (itemWritten s a).wf = true := by
  cases a with
  | writeBit b => exact Memory.wf_write hs _ _
  | writeRegister v => exact Memory.wf_writeRun hs _ _
  | readCoilValue k => exact hs
  | readRegisterValue k => exact hs
  | process => exact hs

/-- A byte of `TX_BUF` after an accepted builder write depends on that byte alone. -/
theorem itemWritten_read_congr {s t : State} (hb : SameBuilder s t) (hs : s.txBuf.wf = true) (ht : t.txBuf.wf = true)
    {x : Nat} (hx : t.txBuf.read x = s.txBuf.read x) (a : CbAct) :
    (itemWritten t a).read x = (itemWritten s a).read x := by
  cases a with
  | writeBit b =>
    simp only [itemWritten, hb.dofs, hb.wofs, Memory.read_write hs, Memory.read_write ht]
    split
    · rename_i he
      rw [← he, hx]
    · exact hx
  | writeRegister v =>
    simp only [itemWritten, hb.dofs, hb.wofs, hb.bkind]
    exact Memory.read_writeRun_congr hs ht (.inl hx)
  | readCoilValue k => exact hx
  | readRegisterValue k => exact hx
  | process => exact hx

/-- The same for a run of port calls. -/
theorem itemsWritten_read_congr {s t : State} (hb : SameBuilder s t) (hs : s.txBuf.wf = true)
    (ht : t.txBuf.wf = true) {x : Nat} (hx : t.txBuf.read x = s.txBuf.read x) (acts : List CbAct) :
    (itemsWritten acts t).read x = (itemsWritten acts s).read x := by
  induction acts generalizing s t with
  | nil => exact hx
  | cons a as ih =>
    simp only [itemsWritten, hb.bkind, hb.bcap, hb.wofs]
    split
    · split
      · exact hx
      · exact ih ⟨rfl, rfl, hb.dofs, rfl⟩ (itemWritten_wf hs a) (itemWritten_wf ht a)
          (itemWritten_read_congr hb hs ht hx a)
    · exact ih hb hs ht hx

/-- Every byte of the payload is written by the decoder or cleared by the dispatcher before the callback runs (R141 to
R149, R180). -/
theorem payload_covered {i : Instr} (hv : i.structurallyValid = true) {x : Nat} (h2 : 2 ≤ x)
    (hx : x < 2 + i.okPlen) :
    x < 2 + (decoderBytes i).length ∨ dofsOf i ≤ x ∧ x < dofsOf i + dlenOf i := by
  cases i <;>
    simp [Instr.structurallyValid, decoderBytes, dofsOf, dlenOf, kindOf, Instr.okPlen, Instr.requestQty] at hv hx ⊢ <;>
    omega

theorem cleared_txBuf_wf {s : State} (hs : s.txBuf.wf = true) (i : Instr) :
    (clearData (enter .dispatching (readyState i s))).txBuf.wf = true :=
  Memory.wf_writeRun (Memory.wf_writeRun hs _ _) _ _

theorem invoked_txBuf_wf {s : State} (hs : s.txBuf.wf = true) (i : Instr) :
    (invoked (readyState i s)).txBuf.wf = true := cleared_txBuf_wf hs i

/-- So the payload is the same whatever `TX_BUF` held before the request. -/
theorem payload_congr {i : Instr} {s t : State} (hv : i.structurallyValid = true) (hs : s.txBuf.wf = true)
    (ht : t.txBuf.wf = true) (acts : List CbAct) :
    (itemsWritten acts (invoked (readyState i t))).readRun 2 i.okPlen =
      (itemsWritten acts (invoked (readyState i s))).readRun 2 i.okPlen := by
  refine Memory.readRun_congr fun k hk => ?_
  have hb : SameBuilder (invoked (readyState i s)) (invoked (readyState i t)) := by
    constructor <;> simp [invoked]
  refine itemsWritten_read_congr hb (invoked_txBuf_wf hs i) (invoked_txBuf_wf ht i) ?_ acts
  have hs' := Memory.wf_writeRun hs 2 (decoderBytes i)
  have ht' := Memory.wf_writeRun ht 2 (decoderBytes i)
  refine Memory.read_writeRun_congr hs' ht' ?_
  rcases payload_covered hv (x := 2 + k) (by omega) (by omega) with hd | hd
  · exact .inl (Memory.read_writeRun_congr hs ht (.inr ⟨by omega, hd⟩))
  · exact .inr (by simpa using hd)

/-! ### An instruction -/

/-- The state after the port calls of a READY request's callback, as `runActs_invoked` spells it out. -/
def called (i : Instr) (s : State) : State :=
  { invoked (readyState i s) with
    txBuf := itemsWritten s.env.cb.acts (invoked (readyState i s))
    wofs := min (builderWrites (kindOf i) s.env.cb.acts) (capOf i)
    trace := s.trace ++ [.callback i.unit (i.fc s.params) i.reg i.requestQty i.view] ++
      s.env.cb.acts.filterMap (eventOf i)
    marks := marksAfter s.marks (callMarks i s.env.cb.acts) }

theorem runActs_called {i : Instr} {s : State} (hv : i.structurallyValid = true) (hview : rxHoldsView i s)
    (hp : CbAct.process ∉ s.env.cb.acts) :
    runActs s.env.cb.acts (invoked (readyState i s)) = .next (called i s) := runActs_invoked hv hview hp

@[simp] theorem called_configured (i : Instr) (s : State) : (called i s).configured = s.configured := by
  simp [called, invoked]
@[simp] theorem called_txBuf (i : Instr) (s : State) :
    (called i s).txBuf = itemsWritten s.env.cb.acts (invoked (readyState i s)) := rfl
@[simp] theorem called_plen (i : Instr) (s : State) : (called i s).plen = i.okPlen := by simp [called, invoked]
@[simp] theorem called_bkind (i : Instr) (s : State) : (called i s).bkind = kindOf i := by simp [called, invoked]
@[simp] theorem called_bcap (i : Instr) (s : State) : (called i s).bcap = capOf i := by simp [called, invoked]
@[simp] theorem called_wofs (i : Instr) (s : State) :
    (called i s).wofs = min (builderWrites (kindOf i) s.env.cb.acts) (capOf i) := rfl

theorem SameLive.called {s t : State} (h : SameLive s t) (i : Instr) : SameLive (called i s) (called i t) := by
  constructor
  case cfg => simpa [Machine.called, invoked] using h.cfg
  case obsTime => simpa [Machine.called, invoked] using h.obsTime
  all_goals simp [Machine.called, invoked, h.configured, h.obsCount, h.dirLine, h.status, h.inProcess, h.phasePath,
    h.marks, h.trace, h.params, h.rxQueue, h.env, h.host]

/-- A READY request in states alike: the callback sees and does the same, and the response is built of what the request
and the callback wrote. -/
theorem dispatch_sameLive {i : Instr} {s t : State} (h : SameLive s t) (hc : s.configured = true)
    (hs : s.txBuf.wf = true) (ht : t.txBuf.wf = true) (hvs : rxHoldsView i s) (hvt : rxHoldsView i t)
    (hv : i.structurallyValid = true) :
    sameOutcome (dispatch (readyState i s)) (dispatch (readyState i t)) := by
  obtain ⟨_, _, _, hcbEq⟩ := h.cfg hc
  cases hcb : s.cfgCb with
  | false =>
    rw [dispatch_no_callback (s := readyState i s) hcb, dispatch_no_callback (s := readyState i t) (hcbEq.trans hcb)]
    have hlive := ((h.readyState i).enter .dispatching).clearData.setStatus (.exc 0x04)
    exact encodeResponse_sameLive hlive (by simpa using hc) (by simpa using cleared_txBuf_wf hs i)
      (by simpa using cleared_txBuf_wf ht i) nofun
  | true =>
    have hcbt : t.cfgCb = true := hcbEq.trans hcb
    by_cases hp : CbAct.process ∈ s.env.cb.acts
    · have hpt : CbAct.process ∈ t.env.cb.acts := by rw [h.env]; exact hp
      rw [dispatch_reentrant (s := readyState i s) hcb hp, dispatch_reentrant (s := readyState i t) hcbt hpt]
      rfl
    · have hpt : CbAct.process ∉ t.env.cb.acts := by rw [h.env]; exact hp
      have hrs := runActs_called hv hvs hp
      have hrt := runActs_called hv hvt hpt
      rw [dispatch_callback (s := readyState i s) hcb hrs, dispatch_callback (s := readyState i t) hcbt hrt,
        readyState_env, readyState_env, h.env]
      cases s.env.cb.ends with
      | never => rfl
      | returns st =>
        refine sameOutcome_ite Iff.rfl (fun _ => rfl) fun _ => ?_
        obtain ⟨_, hstep, _⟩ := runActs_of_next hrs
        obtain ⟨_, hstept, _⟩ := runActs_of_next hrt
        have hlive : SameLive (returned st (called i s)) (returned st (called i t)) :=
          (((h.called i).emit _).setStatus st).checkFill (by simp) (by simp) (by simp [h.env]) st
        refine encodeResponse_sameLive hlive (by simpa [returned] using hc) ?_ ?_ fun _ => ⟨?_, ?_⟩
        · simpa [returned] using hstep.wf (invoked_txBuf_wf hs i)
        · simpa [returned] using hstept.wf (invoked_txBuf_wf ht i)
        · simp [returned]
        · simpa [returned, h.env] using payload_congr hv hs ht s.env.cb.acts

/-- An instruction in states alike, of which both hold its payload view. -/
theorem exec_sameLive {i : Instr} {s t : State} (h : SameLive s t) (hc : s.configured = true)
    (hs : s.txBuf.wf = true) (ht : t.txBuf.wf = true) (hvs : rxHoldsView i s) (hvt : rxHoldsView i t) :
    sameOutcome (exec i s) (exec i t) := by
  cases hv : i.structurallyValid with
  | false =>
    rw [exec_of_invalid hv, exec_of_invalid hv, takeException, takeException, h.params]
    exact encodeResponse_sameLive (((h.beginDecode _ _ _).enter _).setStatus _) hc hs ht nofun
  | true =>
    rw [exec_of_valid hv, exec_of_valid hv]
    exact dispatch_sameLive h hc hs ht hvs hvt hv

/-! ### The frame a poll takes -/

/-- The decoder's fields are the frame's first six bytes again (R71, R72). -/
theorem header_decodeFields (p : Params) (u fc b2 b3 b4 b5 : Byte) (x : List Byte) :
    (decodeFields p u fc b2 b3 b4 b5 x).header p = [u, fc, b2, b3, b4, b5] := by
  unfold decodeFields
  repeat' split
  all_goals simp_all [Instr.header, Instr.fc]

/-- A frame that decodes is its instruction's fixed bytes and tail, up to the checksum. -/
theorem header_append_tail_of_decode {p : Params} {F : List Byte} {i : Instr} (h : decode p F = .ok i) :
    i.header p ++ i.tail = F.take (F.length - 2) := by
  obtain ⟨u, fc, b2, b3, b4, b5, rest, rfl, hlen, _, _, rfl⟩ := decode_ok_cases h
  rw [header_decodeFields, tail_decodeFields]
  have hn : (u :: fc :: b2 :: b3 :: b4 :: b5 :: rest).length - 2 = rest.length - 2 + 6 := by
    simp only [List.length_cons]; omega
  rw [hn]
  rfl

/-- Byte `k` of the data of a write-multiple body stands after the byte count. -/
theorem bodyData_getElem? {body : List Byte} {k : Nat} (hk : k < (bodyData body).length) :
    (bodyData body)[k]? = body[k + 1]? := by
  cases body with
  | nil => cases hk
  | cons bc data =>
    have hbc : k < bc.toNat := by simp only [bodyData, List.length_take] at hk; omega
    exact List.getElem?_take_of_lt hbc

/-- The payload view stands in the frame from `viewOff` on (R141 to R149). -/
theorem view_getElem? (p : Params) (i : Instr) {k : Nat} (hk : k < i.view.length) :
    i.view[k]? = (i.header p ++ i.tail)[i.viewOff + k]? := by
  have hsingle (v : U16) (b0 b1 b2 b3 : Byte) (x : List Byte) (h2 : k < 2) :
      (beBytes v)[k]? = ([b0, b1, b2, b3] ++ beBytes v ++ x)[4 + k]? := by
    obtain rfl | rfl : k = 0 ∨ k = 1 := by omega
    · rfl
    · rfl
  have hmulti (b0 b1 b2 b3 b4 b5 : Byte) (body : List Byte) (hb : k < (bodyData body).length) :
      (bodyData body)[k]? = ([b0, b1, b2, b3, b4, b5] ++ body)[7 + k]? := by
    rw [bodyData_getElem? hb, show 7 + k = k + 1 + 6 by omega]
    rfl
  cases i with
  | readCoils => cases hk
  | readDiscreteInputs => cases hk
  | readHoldingRegisters => cases hk
  | readInputRegisters => cases hk
  | writeSingleCoil unit reg value extra => exact hsingle value _ _ _ _ extra hk
  | writeSingleRegister unit reg value extra => exact hsingle value _ _ _ _ extra hk
  | writeMultipleCoils unit reg qty body => exact hmulti _ _ _ _ _ _ body hk
  | writeMultipleRegisters unit reg qty body => exact hmulti _ _ _ _ _ _ body hk
  | rawTransfer => cases hk
  | illegalFunction => cases hk

/-- A frame in `RX_BUF` that decodes holds its instruction's payload view (R181). -/
theorem readRun_view_of_decode {p : Params} {m : Memory} {n : Nat} {i : Instr}
    (h : decode p (m.readRun 0 n) = .ok i) : m.readRun i.viewOff i.view.length = i.view := by
  refine Memory.readRun_eq_of_getElem? fun k hk => ?_
  have hview := view_getElem? p i hk
  rw [header_append_tail_of_decode h, List.getElem?_take, Memory.getElem?_readRun, Nat.zero_add,
    List.getElem?_eq_getElem hk] at hview
  rw [List.getElem?_eq_getElem hk]
  split at hview
  · split at hview
    · exact hview
    · cases hview
  · cases hview

/-- The validator reads the frame, the unit address it accepts and nothing else (R121, R122, R124). -/
theorem validate_congr {s t : State} (hlen : t.rxLen = s.rxLen) (hunit : t.cfgUnit = s.cfgUnit)
    (hparams : t.params = s.params) (hframe : rxFrame t = rxFrame s) : validate t = validate s := by
  unfold validate
  rw [hlen, hunit, hparams, hframe]
  split
  · rfl
  · rename_i h8
    have hbyte (u : State) (hu : 0 < u.rxLen) : (rxFrame u)[0]? = some (u.rxBuf.read 0) := by
      rw [rxFrame, Memory.getElem?_readRun, if_pos hu, Nat.zero_add]
    have hread : t.rxBuf.read 0 = s.rxBuf.read 0 := by
      have := hbyte t (by omega)
      rw [hframe, hbyte s (by omega)] at this
      exact (Option.some.inj this).symm
    rw [hread]

/-- What follows a taken frame, in states alike that hold the same frame. -/
theorem handleFrame_sameLive {s t : State} (h : SameLive s t) (hc : s.configured = true) (hs : s.txBuf.wf = true)
    (ht : t.txBuf.wf = true) (hlen : t.rxLen = s.rxLen) (hcap : s.rxLen ≤ s.params.rxCap)
    (hframe : rxFrame t = rxFrame s) : sameOutcome (handleFrame s) (handleFrame t) := by
  obtain ⟨hunit, _⟩ := h.cfg hc
  have hval : validate (validating t) = validate (validating s) :=
    validate_congr (by simpa using hlen) (by simpa using hunit) h.validating.params hframe
  cases hv : validate (validating s) with
  | some r =>
    rw [handleFrame_of_drop hv, handleFrame_of_drop (hval.trans hv)]
    exact h.validating.dropFrame
  | none =>
    obtain ⟨i, hd⟩ := decode_of_validate hv (by simpa using hcap)
    change decode s.params (rxFrame s) = .ok i at hd
    have hdt : decode t.params (rxFrame t) = .ok i := by rw [h.params, hframe]; exact hd
    rw [handleFrame_of_valid hv hd, handleFrame_of_valid (hval.trans hv) hdt]
    exact exec_sameLive (h.validating.enter .decoding) (by simpa using hc) (by simpa using hs) (by simpa using ht)
      (by simpa [rxHoldsView] using readRun_view_of_decode hd) (by simpa [rxHoldsView] using readRun_view_of_decode hdt)

/-! ### A poll and a step -/

/-- A poll of a configured engine between polls, in states alike: each test of its assembler comes out the same, and what
it leads to is alike (R100 to R107, R240). -/
theorem process_sameLive {s t : State} (hs : Inv s) (ht : Inv t) (h : SameLive s t) (env : PollEnv) :
    sameOutcome (process env s) (process env t) := by
  cases hc : s.configured with
  | false =>
    have hct : t.configured = false := h.configured.trans hc
    rw [process, process, hc, hct]
    rfl
  | true =>
    obtain ⟨_, hthresh, _⟩ := h.cfg hc
    have hrep := h.reported env
    rw [process_eq_cases hc hs.inProcess, process_eq_cases (h.configured.trans hc) ht.inProcess, hrep, h.params,
      h.obsCount, h.rxQueue, hthresh]
    refine sameOutcome_ite Iff.rfl (fun _ => rfl) fun _ => ?_
    refine sameOutcome_ite Iff.rfl (fun _ => h.noFrameTaken env h.obsTime) fun h0 => ?_
    refine sameOutcome_ite Iff.rfl (fun _ => h.noFrameTaken env fun _ => rfl) fun hn => ?_
    have htime : t.obsTime = s.obsTime := h.obsTime (Classical.not_not.1 hn ▸ h0)
    rw [htime]
    refine sameOutcome_ite Iff.rfl (fun _ => h.noFrameTaken env fun _ => rfl) fun _ => ?_
    refine sameOutcome_ite Iff.rfl (fun _ => rfl) fun hq => ?_
    refine sameOutcome_ite Iff.rfl (fun _ => (h.burstTaken env _).dropFrame) fun hx => ?_
    have hq' := Nat.le_of_not_lt hq
    have hx' := Nat.le_of_not_lt hx
    refine handleFrame_sameLive (h.burstTaken env _) hc hs.txWf ht.txWf ?_ ?_ ?_
    · rw [burstTaken_rxLen, burstTaken_rxLen, h.params]
    · simp only [burstTaken_rxLen, burstTaken_params, if_neg hx]
      exact hx'
    · rw [rxFrame_burstTaken hs.rxWf hq' hx',
        rxFrame_burstTaken ht.rxWf (by rw [h.rxQueue]; exact hq') (by rw [h.params]; exact hx'), h.rxQueue]

/-- The reset event writes every field in which states alike may differ (R39, R280). -/
theorem SameLive.applyReset {s t : State} (h : SameLive s t) : SameLive (applyReset s) (applyReset t) where
  configured := rfl
  cfg := nofun
  obsCount := rfl
  obsTime := fun _ => rfl
  dirLine := rfl
  req := rfl
  status := rfl
  phase := rfl
  inProcess := rfl
  phasePath := rfl
  marks := h.marks
  trace := h.trace
  params := h.params
  rxQueue := h.rxQueue
  env := h.env
  host := h.host

theorem SameLive.arrive {s t : State} (h : SameLive s t) (bytes : List Byte) :
    SameLive (arrive bytes s) (arrive bytes t) :=
  { h with rxQueue := by simp only [Machine.arrive, h.rxQueue, h.params] }

/-- Configure writes all the configuration registers, which were dead before it (R26, R281). -/
theorem configure_sameLive {s t : State} (h : SameLive s t) (unit : Byte) (baud : BitVec 32) (dir cb : Bool) :
    sameOutcome (configure unit baud dir cb s) (configure unit baud dir cb t) := by
  unfold configure
  refine sameOutcome_ite (by rw [h.configured]) (fun _ => rfl) fun _ => ?_
  refine sameOutcome_ite Iff.rfl (fun _ => rfl) fun _ => ?_
  refine sameOutcome_ite (by rw [h.params]) (fun _ => rfl) fun _ => ?_
  cases dir with
  | false => exact { h with configured := rfl, cfg := fun _ => ⟨rfl, rfl, rfl, rfl⟩ }
  | true =>
    exact { h with
      configured := rfl
      cfg := fun _ => ⟨rfl, rfl, rfl, rfl⟩
      dirLine := rfl
      trace := congrArg (· ++ [PortEvent.dirDeassert]) h.trace }

/-- Settles O54, by what each host event does. -/
theorem staleStateUnobservable : Obligations.StaleStateUnobservable := by
  intro s t hs ht h
  unfold step
  rw [h.host]
  cases s.host with
  | nil => exact h
  | cons e rest =>
    have hrest := h.setHost rest
    have hs' : Inv { s with host := rest } := { hs with }
    have ht' : Inv { t with host := rest } := { ht with }
    cases e with
    | reset => exact hrest.applyReset
    | configure unit baud dir cb => exact configure_sameLive hrest unit baud dir cb
    | arrive bytes => exact hrest.arrive bytes
    | poll env => exact process_sameLive hs' ht' hrest env
    | strayCall a => rfl
    | staleView => rfl

end Sys2Proof.Machine

/-! PROOFS. What the port calls of a callback can change (20_memory.md R64). -/

namespace Sys2Proof.Machine

/-- An accessor's answer at most marks (R190). -/
@[simp] theorem marked_txBuf {α : Type} (a : Access α) (s : State) : (a.marked s).txBuf = s.txBuf := by
  cases a <;> rfl

@[simp] theorem marked_wofs {α : Type} (a : Access α) (s : State) : (a.marked s).wofs = s.wofs := by
  cases a <;> rfl

/-- A port call that is no builder operation leaves the response under construction. -/
theorem runAct_keeps_txBuf_wofs {a : CbAct} {s t : State} (hbit : ∀ b, a ≠ .writeBit b)
    (hreg : ∀ v, a ≠ .writeRegister v) (h : runAct a s = .next t) : t.txBuf = s.txBuf ∧ t.wofs = s.wofs := by
  cases a with
  | writeBit b => exact absurd rfl (hbit b)
  | writeRegister v => exact absurd rfl (hreg v)
  | readCoilValue i => cases h; simp
  | readRegisterValue i => cases h; simp
  | process => cases h

/-- The same for a run of port calls with no builder operation among them. -/
theorem runActs_keeps_txBuf_wofs {acts : List CbAct} {s t : State}
    (hacts : ∀ a ∈ acts, (∀ b, a ≠ .writeBit b) ∧ (∀ v, a ≠ .writeRegister v)) (h : runActs acts s = .next t) :
    t.txBuf = s.txBuf ∧ t.wofs = s.wofs := by
  induction acts generalizing s with
  | nil => cases h; exact ⟨rfl, rfl⟩
  | cons a as ih =>
    obtain ⟨u, ha, has⟩ := andThen_eq_next h
    obtain ⟨⟨hbit, hreg⟩, hrest⟩ := List.forall_mem_cons.1 hacts
    obtain ⟨htx, hw⟩ := runAct_keeps_txBuf_wofs hbit hreg ha
    obtain ⟨htx', hw'⟩ := ih hrest has
    exact ⟨htx'.trans htx, hw'.trans hw⟩

/-- Settles O42: a run of port calls is a `CallStep`, and one without builder operations keeps what they write. -/
theorem callbackChangesOnlyBuilder : Obligations.CallbackChangesOnlyBuilder := by
  intro s t acts h
  obtain ⟨_, hstep, calls, hlength, hcalls, htrace⟩ := runActs_of_next h
  exact ⟨hstep.eq, fun hacts => runActs_keeps_txBuf_wofs hacts h, calls, htrace, hlength, hcalls⟩

end Sys2Proof.Machine

/-! PROOFS. The statements about the encoding: the decoder and the encoder are inverse, what the decoder accepts, the
function code (30_encoding.md R70 to R79, R121, R124), and the completion of every valid request (R211, R240). -/

namespace Sys2Proof

/-! ### The decoder's case distinction (R73 to R75) -/

/-- `P_FC_RAW` is past the eight standard cases (R74). -/
theorem decodeFields_fcRaw (p : Params) (u b2 b3 b4 b5 : Byte) (x : List Byte) :
    decodeFields p u p.fcRaw b2 b3 b4 b5 x = .rawTransfer u (be16 b2 b3) b4 b5 x := by
  have hraw := fcRaw_not_standard p
  simp_all [standardCodes, decodeFields]

/-- A code that is none of the nine is past them all (R75). -/
theorem decodeFields_unmapped {p : Params} {fc : Byte} (hstd : standardCodes.contains fc = false)
    (hraw : fc ≠ p.fcRaw) (u b2 b3 b4 b5 : Byte) (x : List Byte) :
    decodeFields p u fc b2 b3 b4 b5 x = .illegalFunction u fc (be16 b2 b3) b4 b5 x := by
  simp_all [standardCodes, decodeFields]

theorem codeOk_illegalFunction {p : Params} {u fc : Byte} {r : U16} {b4 b5 : Byte} {x : List Byte} :
    (Instr.illegalFunction u fc r b4 b5 x).codeOk p = true ↔ standardCodes.contains fc = false ∧ fc ≠ p.fcRaw := by
  simp [Instr.codeOk]

theorem codeOk_decodeFields (p : Params) (u fc b2 b3 b4 b5 : Byte) (x : List Byte) :
    (decodeFields p u fc b2 b3 b4 b5 x).codeOk p = true := by
  unfold decodeFields
  repeat' split
  all_goals simp_all [Instr.codeOk, standardCodes]

/-- Read from an instruction's own fixed bytes and tail, the decoder's fields are the instruction (R71 to R75). -/
theorem decodeFields_header {p : Params} {i : Instr} (hcode : i.codeOk p = true) {u fc b2 b3 b4 b5 : Byte}
    (h : i.header p = [u, fc, b2, b3, b4, b5]) : decodeFields p u fc b2 b3 b4 b5 i.tail = i := by
  cases i <;> obtain ⟨rfl, rfl, rfl, rfl, rfl, rfl⟩ : _ ∧ _ ∧ _ ∧ _ ∧ _ ∧ _ := by
    simpa [Instr.header, beBytes] using h
  case rawTransfer => simp [Instr.fc, Instr.tail, decodeFields_fcRaw]
  case illegalFunction =>
    obtain ⟨hstd, hraw⟩ := codeOk_illegalFunction.1 hcode
    simp [Instr.fc, Instr.tail, decodeFields_unmapped hstd hraw]
  all_goals simp [Instr.fc, Instr.tail, decodeFields]

/-- Among the terms with an admitted code, the ILLEGAL_FUNCTION ones are those with an unmapped code (R75). -/
theorem isIllegalFunction_iff_unmapped {p : Params} {i : Instr} (hcode : i.codeOk p = true) :
    (∃ u fc r b4 b5 x, i = .illegalFunction u fc r b4 b5 x) ↔
      standardCodes.contains (i.fc p) = false ∧ i.fc p ≠ p.fcRaw := by
  constructor
  · rintro ⟨u, fc, r, b4, b5, x, rfl⟩
    exact codeOk_illegalFunction.1 hcode
  · rintro ⟨hstd, hraw⟩
    cases i with
    | illegalFunction u fc r b4 b5 x => exact ⟨u, fc, r, b4, b5, x, rfl⟩
    | rawTransfer => exact absurd rfl hraw
    | _ => exact absurd hstd (by simp [Instr.fc, standardCodes])

/-! ### The encoder -/

/-- The checksum has a fixed length, so a frame determines the bytes it was appended to (R52, R70). -/
theorem withChecksum_inj {p : Params} {s s' : List Byte} (h : withChecksum p s = withChecksum p s') : s = s' :=
  List.append_inj_left' h (by simp)

/-- The fixed bytes have a fixed length, so a frame determines its instruction (R70, R71). -/
theorem encode_inj {p : Params} {i j : Instr} (hi : i.codeOk p = true) (hj : j.codeOk p = true)
    (h : encode p i = encode p j) : i = j := by
  obtain ⟨hheader, htail⟩ := List.append_inj (withChecksum_inj h) (by simp)
  obtain ⟨b2, b3, b4, b5, hbytes⟩ := header_eq p i
  rw [← decodeFields_header hi hbytes, htail]
  exact decodeFields_header hj (hheader ▸ hbytes)

theorem wf_iff {p : Params} {i : Instr} : i.wf p = true ↔ (encode p i).length ≤ p.rxCap ∧ i.codeOk p = true := by
  simp [Instr.wf, Instr.fits, length_encode]

/-! ### The statements -/

/-- Settles O3: both directions are laws of the decoder. -/
theorem decodeAcceptsExactlyValid : Obligations.DecodeAcceptsExactlyValid := by
  intro p F
  constructor
  · rintro ⟨i, h⟩
    obtain ⟨u, fc, b2, b3, b4, b5, rest, rfl, hrest, hcap, hsum, _⟩ := decode_ok_cases h
    exact ⟨by simp only [List.length_cons]; omega, hcap, hsum⟩
  · rintro ⟨hlen, hcap, hsum⟩
    exact decode_of_valid hlen hcap hsum

/-- Settles O2: the fixed bytes and the tail are the frame up to the checksum, and the checksum is the right one. -/
theorem encodeDecodeGivesBack : Obligations.EncodeDecodeGivesBack := by
  intro p F i h
  obtain ⟨_, hcap, hsum⟩ := (decodeAcceptsExactlyValid p F).1 ⟨i, h⟩
  have hframe : encode p i = F := by
    rw [encode, Machine.header_append_tail_of_decode h, withChecksum_of_checksumOk hsum]
  have hcode : i.codeOk p = true := by
    obtain ⟨u, fc, b2, b3, b4, b5, rest, _, _, _, _, rfl⟩ := decode_ok_cases h
    exact codeOk_decodeFields ..
  exact ⟨wf_iff.2 ⟨hframe ▸ hcap, hcode⟩, hframe⟩

/-- Settles O1: the frame decodes to some instruction, whose encoding is the frame again (O2), and the encoder is
injective on well-formed instructions. -/
theorem decodeEncodeGivesBack : Obligations.DecodeEncodeGivesBack := by
  intro p i hwf
  obtain ⟨hcap, hcode⟩ := wf_iff.1 hwf
  have hlen : 8 ≤ (encode p i).length := by rw [length_encode]; omega
  obtain ⟨j, hj⟩ := decode_of_valid hlen hcap (checksumOk_withChecksum p _)
  obtain ⟨hwf', hframe⟩ := encodeDecodeGivesBack p _ j hj
  obtain ⟨_, hcode'⟩ := wf_iff.1 hwf'
  rw [hj, encode_inj hcode' hcode hframe]

/-- Settles O4: the frame encodes a well-formed instruction (O2), and an encoding carries the code in byte 1. -/
theorem functionCodeDecidesInstruction : Obligations.FunctionCodeDecidesInstruction := by
  intro p F i h
  obtain ⟨hwf, rfl⟩ := encodeDecodeGivesBack p F i h
  obtain ⟨_, hcode⟩ := wf_iff.1 hwf
  exact ⟨encode_getElem?_one p i, isIllegalFunction_iff_unmapped hcode⟩

end Sys2Proof

namespace Sys2Proof.Machine

/-- Settles O55: `exec_ok`, with what the port calls left in `TX_BUF[2 .. 2 + PLEN)` as the payload. -/
theorem validRequestsComplete : Obligations.ValidRequestsComplete := by
  intro s i acts hv hcb htx hwf hview he hp
  obtain ⟨t, hexec, htrace, _, _, _, _, _, _, _, _, hmarks, hdir, hkeeps, hover⟩ :=
    exec_ok hv hcb htx hwf hview he hp rfl
  exact ⟨t, _, hexec, Memory.length_readRun .., htrace, hmarks, hdir, hkeeps, hover⟩

end Sys2Proof.Machine

/-! PROOFS. The statements about the frame assembler and the poll it begins: the silence threshold and elapsed time,
what each outcome of the assembler leaves, which frames go on to the decoder, and how a request comes to run
(40_frame_assembler.md, 41_frame_validator.md). -/

namespace Sys2Proof.Machine

/-! ### The threshold and the clock -/

/-- The slowest baud rate has the longest threshold (R101). -/
theorem silenceThreshold_le (baud : Nat) : silenceThreshold baud ≤ 38500000 := by
  unfold silenceThreshold
  split
  · exact Nat.div_le_self 38500000 baud
  · decide

/-- Settles O10. -/
theorem thresholdTable : Obligations.ThresholdTable := by
  unfold Obligations.ThresholdTable
  simp [silenceThreshold]

/-- Settles O11: 26 bits hold the longest threshold. -/
theorem legalBaudFitsClock : Obligations.LegalBaudFitsClock := by
  intro baud wt _ hwt
  calc silenceThreshold baud ≤ 38500000 := silenceThreshold_le baud
    _ < 2 ^ 26 := by decide
    _ ≤ 2 ^ wt := Nat.pow_le_pow_right (by decide) hwt

/-- Settles O19: the model adds the modulus before it subtracts, and adding the modulus changes no remainder. -/
theorem elapsedIsModular : Obligations.ElapsedIsModular := by
  intro wt t t0 _ ht0
  refine ⟨Nat.mod_lt _ (Nat.two_pow_pos wt), ?_⟩
  have hsum : ((t + (2 ^ wt - t0) : Nat) : Int) = (t : Int) - t0 + 2 ^ wt := by
    rw [Nat.cast_add, Nat.cast_sub ht0.le]
    push_cast
    ring
  rw [elapsed, Nat.mod_eq_of_lt ht0, Int.natCast_emod, hsum, Nat.cast_pow, Nat.cast_ofNat, Int.add_emod_right]

/-! ### Polls that take no frame -/

/-- Settles O20. -/
theorem emptyTransportPoll : Obligations.EmptyTransportPoll := by
  intro s env rest hhost hconf hidle h0
  rw [step_poll_eq hhost hconf hidle, if_neg (by omega), if_pos h0, noFrameTaken, reported_host, h0]

/-- A poll that sees another nonzero count makes it and the time the baseline (R103). -/
theorem step_of_changed_count {s : State} {env : PollEnv} {rest : List HostEvent} {c : Nat}
    (hhost : s.host = .poll env :: rest) (hconf : s.configured = true) (hidle : s.inProcess = false)
    (hrep : reported env s = c) (hcap : c ≤ s.params.tcap) (h0 : c ≠ 0) (hnew : c ≠ s.obsCount) :
    step s = .next (noFrameTaken env c (env.clock % 2 ^ s.params.wt) { s with host := rest }) := by
  rw [step_poll_eq hhost hconf hidle, hrep, if_neg (Nat.not_lt.2 hcap), if_neg h0, if_pos hnew]

/-- Settles O21. -/
theorem changingCountPoll : Obligations.ChangingCountPoll := by
  intro s env rest hhost hconf hidle hcap h0 hnew
  rw [step_of_changed_count hhost hconf hidle rfl hcap h0 hnew, noFrameTaken, if_neg h0]
  rfl

/-- Settles O22. -/
theorem stillWaitingPoll : Obligations.StillWaitingPoll := by
  intro s env rest hhost hconf hidle hcap h0 hsame hearly
  have hobs : s.obsCount ≠ 0 := hsame ▸ h0
  rw [step_poll_eq hhost hconf hidle, if_neg (by omega), if_neg h0, if_neg (not_not.2 hsame), if_pos hearly,
    noFrameTaken, reported_host, hsame, if_neg hobs]

/-! ### The burst in `RX_BUF` -/

/-- The first `n` bytes of a queue stored from index 0 on: each reads back, and the bytes beyond them stay (R104). -/
theorem Memory.read_writeRun_take {m : Memory} (hm : m.wf = true) {q : List Byte} {n : Nat} (hn : n ≤ q.length) :
    (∀ k, k < n → q[k]? = some ((m.writeRun 0 (q.take n)).read k)) ∧
      ∀ k, n ≤ k → (m.writeRun 0 (q.take n)).read k = m.read k := by
  have hlen : (q.take n).length = n := List.length_take_of_le hn
  refine ⟨fun k hk => ?_, fun k hk => Memory.read_writeRun_outside m (.inr (by omega))⟩
  have hread := Memory.read_writeRun_inside hm (a := 0) (l := q.take n) (k := k) (by omega)
  rw [Nat.zero_add] at hread
  rw [hread, List.getElem_take, List.getElem?_eq_getElem]

/-- A burst that the transport holds and `RX_BUF` can hold is taken whole (R104). -/
theorem takeBurst_of_fits {s : State} {c : Nat} (hq : c ≤ s.rxQueue.length) (hc : c ≤ s.params.rxCap) :
    takeBurst c s = .frame { enter .silentDetected s with
      rxQueue := s.rxQueue.drop c
      rxBuf := s.rxBuf.writeRun 0 (s.rxQueue.take c)
      trace := s.trace ++ (s.rxQueue.take c).map .rxRead
      obsCount := 0
      rxLen := c } := by
  have hfit : (s.rxQueue.take c).take s.params.rxCap = s.rxQueue.take c :=
    List.take_of_length_le (by rw [List.length_take]; omega)
  rw [takeBurst, readBurst_eq c 0 (enter .silentDetected s) hq]
  simp [enter, hfit, Nat.not_lt.2 hc]

/-- A count that has stood for the threshold is taken (R104, R107). -/
theorem assemblerStep_of_silence {s : State} (hcap : rxAvailable s ≤ s.params.tcap) (h0 : rxAvailable s ≠ 0)
    (hsame : rxAvailable s = s.obsCount) (hsilent : s.cfgThresh ≤ elapsed s.params.wt (now s) s.obsTime) :
    assemblerStep s = takeBurst (rxAvailable s) (sample s) := by
  simp only [assemblerStep]
  rw [if_neg (by omega), if_neg h0, if_neg (not_not.2 hsame), if_neg (by omega)]

/-- Settles O23. -/
theorem silenceTakesBurst : Obligations.SilenceTakesBurst := by
  rintro s c rfl hcap h0 hsame hsilent hfits hq hwf
  obtain ⟨hstored, hkept⟩ := Memory.read_writeRun_take hwf hq
  refine ⟨_, (assemblerStep_of_silence hcap h0 hsame hsilent).trans (takeBurst_of_fits hq hfits),
    hstored, hkept, rfl, rfl, rfl, rfl, ?_, rfl, rfl, rfl⟩
  simp [sample, emit]

/-! ### Polls that take a burst -/

/-- The next step is a poll that sees `c` bytes which the transport holds and whose count has stood for the threshold:
the poll takes them (R104, R107). -/
structure BurstDue (s : State) (env : PollEnv) (rest : List HostEvent) (c : Nat) : Prop where
  host : s.host = .poll env :: rest
  configured : s.configured = true
  inProcess : s.inProcess = false
  reported : reported env s = c
  tcap : c ≤ s.params.tcap
  pending : c ≠ 0
  obsCount : c = s.obsCount
  silent : s.cfgThresh ≤ elapsed s.params.wt (env.clock % 2 ^ s.params.wt) s.obsTime
  queued : c ≤ s.rxQueue.length

/-- A poll that takes a burst drops one too long for `RX_BUF`, and handles any other as a frame (R107, R240). -/
theorem BurstDue.step_eq {s : State} {env : PollEnv} {rest : List HostEvent} {c : Nat} (h : BurstDue s env rest c) :
    step s = if s.params.rxCap < c then .next (dropFrame (burstTaken env c { s with host := rest }))
      else handleFrame (burstTaken env c { s with host := rest }) := by
  rw [step_poll_eq h.host h.configured h.inProcess, h.reported, if_neg (Nat.not_lt.2 h.tcap), if_neg h.pending,
    if_neg (not_not.2 h.obsCount), if_neg (Nat.not_lt.2 h.silent), if_neg (Nat.not_lt.2 h.queued)]

/-- Settles O24: of the bytes drained, the stored ones are the first `P_RX_CAP` of the queue. -/
theorem oversizeBurstDropped : Obligations.OversizeBurstDropped := by
  intro s env rest c hhost hconf hidle hrep hcap hsame hsilent hlong hq hwf
  have hdue : BurstDue s env rest c := ⟨hhost, hconf, hidle, hrep.symm, hcap, by omega, hsame, hsilent, hq⟩
  have hbuf : (burstTaken env c { s with host := rest }).rxBuf =
      s.rxBuf.writeRun 0 (s.rxQueue.take s.params.rxCap) := by
    rw [burstTaken_rxBuf, List.take_take, min_eq_left hlong.le]
  obtain ⟨hstored, hkept⟩ := Memory.read_writeRun_take hwf (hlong.le.trans hq)
  refine ⟨_, hdue.step_eq.trans (if_pos hlong), cycleOver_dropFrame _, ?_⟩
  simp only [dropFrame_rxBuf, hbuf]
  exact ⟨if_pos hlong, rfl, rfl, rfl, hstored, hkept, rfl, rfl, rfl, rfl⟩

/-- Settles O25: of the ways a poll can end, the ones that take no frame leave the queue, and no later stage of a poll
reads it. -/
theorem unstableBurstNotTaken : Obligations.UnstableBurstNotTaken := by
  intro s t env rest hhost hstep hread
  rw [step_poll hhost] at hstep
  obtain ⟨_, _, _, hcase⟩ := process_cases hstep
  cases hcase with
  | empty _ ht => subst ht; exact absurd rfl hread
  | changed _ _ ht => subst ht; exact absurd rfl hread
  | waiting _ _ _ ht => subst ht; exact absurd rfl hread
  | overflow h0 hsame hsilent _ _ ht => subst ht; exact ⟨h0, hsame, hsilent, by rw [← hsame]; rfl⟩
  | dropped _ h0 hsame hsilent _ _ _ ht => subst ht; exact ⟨h0, hsame, hsilent, by rw [← hsame]; rfl⟩
  | run i h0 hsame hsilent _ _ _ _ ht =>
    have hqueue := (exec_keeps ht).1.rxQueue
    exact ⟨h0, hsame, hsilent, by rw [← hsame, hqueue]; rfl⟩

/-! ### The frame the validator sees -/

/-- `VALID` is a property of the frame alone: its length, its first byte and its checksum (R120 to R124). -/
theorem validate_eq_none_iff {s : State} :
    validate s = none ↔ 8 ≤ (rxFrame s).length ∧ (s.cfgUnit = 0 ∨ (rxFrame s)[0]? = some s.cfgUnit) ∧
      checksumOk s.params (rxFrame s) = true := by
  have hfirst (h8 : 8 ≤ s.rxLen) : (rxFrame s)[0]? = some s.cfgUnit ↔ s.rxBuf.read 0 = s.cfgUnit := by
    rw [rxFrame, Memory.getElem?_readRun, if_pos (by omega), Option.some_inj]
  rw [length_rxFrame]
  constructor
  · intro h
    obtain ⟨h8, hunit, hsum⟩ := validate_eq_none h
    exact ⟨h8, hunit.imp_right (hfirst h8).2, hsum⟩
  · rintro ⟨h8, hunit, hsum⟩
    exact validate_of h8 (hunit.imp_right (hfirst h8).1) hsum

/-- The same in a poll that took a burst: the frame is the burst (R104, R120). -/
theorem validate_burstTaken_eq_none_iff {s : State} {env : PollEnv} {c : Nat} (hwf : s.rxBuf.wf = true)
    (hq : c ≤ s.rxQueue.length) (hfits : c ≤ s.params.rxCap) :
    validate (validating (burstTaken env c s)) = none ↔
      8 ≤ c ∧ (s.cfgUnit = 0 ∨ (s.rxQueue.take c)[0]? = some s.cfgUnit) ∧
        checksumOk s.params (s.rxQueue.take c) = true := by
  have hframe : rxFrame (validating (burstTaken env c s)) = s.rxQueue.take c :=
    rxFrame_burstTaken (env := env) hwf hq hfits
  rw [validate_eq_none_iff, hframe, List.length_take_of_le hq]
  simp only [validating_cfgUnit, burstTaken_cfgUnit, validating_params, burstTaken_params]

/-- Settles O27: one check of the validator fails, and a drop writes nothing but the end of the cycle. -/
theorem invalidFrameDropped : Obligations.InvalidFrameDropped := by
  rintro s env rest c F hhost hconf hidle hrep hcap h0 hsame hsilent hfits hq hwf rfl hbad
  have hdue : BurstDue s env rest c := ⟨hhost, hconf, hidle, hrep.symm, hcap, h0, hsame, hsilent, hq⟩
  have hinvalid : validate (validating (burstTaken env c { s with host := rest })) ≠ none := fun hv => by
    obtain ⟨h8, hunit, hsum⟩ := (validate_burstTaken_eq_none_iff (s := { s with host := rest }) hwf hq hfits).1 hv
    rcases hbad with hshort | ⟨hany, hforeign⟩ | hcrc
    · omega
    · exact hunit.elim hany hforeign
    · rw [hsum] at hcrc; cases hcrc
  obtain ⟨r, hr⟩ := Option.ne_none_iff_exists'.1 hinvalid
  have hbuf : (burstTaken env c { s with host := rest }).rxBuf = s.rxBuf.writeRun 0 (s.rxQueue.take c) := by
    rw [burstTaken_rxBuf, List.take_take, min_eq_right hfits]
  refine ⟨_, (hdue.step_eq.trans (if_neg (Nat.not_lt.2 hfits))).trans (handleFrame_of_drop hr), cycleOver_dropFrame _,
    rfl, ?_, if_neg (Nat.not_lt.2 hfits), rfl, rfl, rfl, rfl, rfl, rfl, rfl, rfl, rfl, rfl, rfl, rfl⟩
  rw [dropFrame_rxBuf, validating_rxBuf, hbuf]

/-! ### The request that runs -/

/-- Settles O28: a frame that decodes is long enough, fits and has its checksum (O3), and its first byte is the unit
address (O2), so the validator passes it. -/
theorem stepRunsDecodedInstruction : Obligations.StepRunsDecodedInstruction := by
  intro s env rest c i hhost hconf hidle hrep hcap hsame hsilent hq hwf hdecode hunit
  obtain ⟨h8, hfits, hsum⟩ := (decodeAcceptsExactlyValid _ _).1 ⟨i, hdecode⟩
  rw [List.length_take_of_le hq] at h8 hfits
  have hdue : BurstDue s env rest c := ⟨hhost, hconf, hidle, hrep.symm, hcap, by omega, hsame, hsilent, hq⟩
  have hfirst : (s.rxQueue.take c)[0]? = some i.unit := by
    rw [← (encodeDecodeGivesBack _ _ _ hdecode).2, encode_getElem?_zero]
  have hvalid : validate (validating (burstTaken env c { s with host := rest })) = none :=
    (validate_burstTaken_eq_none_iff (s := { s with host := rest }) hwf hq hfits).2
      ⟨h8, hunit.imp_right fun h => by rw [hfirst, h], hsum⟩
  have hframe : decode s.params (rxFrame (burstTaken env c { s with host := rest })) = .ok i := by
    rw [rxFrame_burstTaken (s := { s with host := rest }) hwf hq hfits]
    exact hdecode
  rw [hdue.step_eq, if_neg (Nat.not_lt.2 hfits), handleFrame_of_valid hvalid hframe, requestTaken_eq hfits]

/-- A transport that keeps its duties reports what it holds (R266). -/
theorem reported_of_avail_none {env : PollEnv} (h : env.avail = none) (s : State) :
    reported env s = s.rxQueue.length := by
  rw [reported, h, Option.getD_none]

/-- Bytes that arrive at an empty transport and fit it are what it then holds (R266). -/
theorem step_arrive_of_fits {s : State} {bytes : List Byte} {rest : List HostEvent}
    (hhost : s.host = .arrive bytes :: rest) (hempty : s.rxQueue = []) (hfits : bytes.length ≤ s.params.tcap) :
    step s = .next { s with host := rest, rxQueue := bytes } := by
  have harrive : step s = .next (arrive bytes { s with host := rest }) := by rw [step, hhost]; rfl
  simp [harrive, arrive, hempty, List.take_of_length_le hfits]

/-- Settles O29: the arrival, then a poll that sees a new count (R103), then one that takes a frame which decodes to the
request it encodes (O1, O28). -/
theorem silentRequestIsRun : Obligations.SilentRequestIsRun := by
  intro s i e1 e2 rest hinv hconf hobs hempty hwf hfits hunit he1 he2 hsilent hhost
  have hlen : (encode s.params i).length ≠ 0 := by rw [length_encode]; omega
  have hdecode : decode s.params ((encode s.params i).take (encode s.params i).length) = .ok i := by
    rw [List.take_length]
    exact decodeEncodeGivesBack s.params i hwf
  have harrive := step_arrive_of_fits hhost hempty hfits
  have hrecord := step_of_changed_count
    (s := { s with host := .poll e1 :: .poll e2 :: rest, rxQueue := encode s.params i })
    rfl hconf hinv.inProcess (reported_of_avail_none he1 _) hfits hlen (hobs.symm ▸ hlen)
  refine ⟨_, _, harrive, hrecord, ?_, ?_, rfl, rfl⟩
  · exact stepRunsDecodedInstruction _ e2 rest _ i rfl hconf rfl (by simp [reported_of_avail_none he2])
      hfits rfl hsilent le_rfl hinv.rxWf hdecode hunit
  · rw [noFrameTaken_trace, reported_of_avail_none he1]

end Sys2Proof.Machine

/-! PROOFS. The check values of the checksum (41_frame_validator.md R125). -/

namespace Sys2Proof

/-- Exchanging the bytes of a u16 exchanges the two bytes it is made of. -/
@[simp] theorem swap16_be16 (a b : Byte) : swap16 (be16 a b) = be16 b a := by
  rw [swap16, hi8_be16, lo8_be16]

/-- The default instance puts the low byte of CRC-16/MODBUS first (R125). -/
theorem crc16_modbusSwapped_of_eq_be16 {s : List Byte} {a b : Byte} (h : crc16Modbus s = be16 a b) :
    crc16 .modbusSwapped s = be16 b a := by
  rw [crc16, h, swap16_be16]

/-- Settles O6: CRC-16/MODBUS of the two inputs is run round by round, and the default instance has its bytes
exchanged. -/
theorem checksumCheckValues : Obligations.ChecksumCheckValues := by
  have hdigits : crc16Modbus [0x31, 0x32, 0x33, 0x34, 0x35, 0x36, 0x37, 0x38, 0x39] = be16 0x4B 0x37 := by
    simp [crc16Modbus, crcByte, crcRounds, crcRound, be16]
  have hread : crc16Modbus [0x01, 0x03, 0x00, 0x00, 0x00, 0x0A] = be16 0xCD 0xC5 := by
    simp [crc16Modbus, crcByte, crcRounds, crcRound, be16]
  exact ⟨hdigits, crc16_modbusSwapped_of_eq_be16 hdigits, crc16_modbusSwapped_of_eq_be16 hread⟩

end Sys2Proof

/-! PROOFS. The statements about the answers to a callback that returns `OK`: the payload is what the decoder wrote and
then the data area, which the dispatcher cleared and the callback filled (42_request_decoder.md R141 to R149, R153;
43_dispatch_builder.md R180 to R187); and the frames written out in the spec's examples. -/

namespace Sys2Proof.Machine

/-! ### The payload in two parts (R77, R154) -/

/-- The data area begins right after the decoder's bytes, or there is none. -/
theorem data_after_decoderBytes (i : Instr) :
    dofsOf i = 2 + (decoderBytes i).length ∨ dofsOf i = 2 ∧ dlenOf i = 0 := by
  cases i <;> simp [decoderBytes, dofsOf, dlenOf, kindOf]

theorem okPlen_eq_add (i : Instr) : i.okPlen = (decoderBytes i).length + dlenOf i := by
  cases i <;> simp [Instr.okPlen, decoderBytes, dlenOf, kindOf, Instr.requestQty]

theorem Memory.readRun_okPlen (m : Memory) (i : Instr) :
    m.readRun 2 i.okPlen = m.readRun 2 (decoderBytes i).length ++ m.readRun (dofsOf i) (dlenOf i) := by
  rw [okPlen_eq_add, Memory.readRun_append]
  rcases data_after_decoderBytes i with hofs | ⟨_, hlen⟩
  · rw [hofs]
  · rw [hlen]; rfl

/-- `TX_BUF` when the callback starts: the decoder's bytes, then the cleared data area (R180). -/
theorem invoked_txBuf (i : Instr) (s : State) :
    (invoked (readyState i s)).txBuf =
      (s.txBuf.writeRun 2 (decoderBytes i)).writeRun (dofsOf i) (List.replicate (dlenOf i) 0x00) := rfl

/-- Clearing the data area leaves the decoder's bytes. -/
theorem readRun_decoderBytes_invoked {s : State} (hwf : s.txBuf.wf = true) (i : Instr) :
    (invoked (readyState i s)).txBuf.readRun 2 (decoderBytes i).length = decoderBytes i := by
  have hafter := data_after_decoderBytes i
  refine (Memory.readRun_congr fun k hk => ?_).trans (Memory.readRun_writeRun hwf 2 (decoderBytes i))
  rw [invoked_txBuf]
  exact Memory.read_writeRun_outside _ (by rw [List.length_replicate]; omega)

theorem read_data_invoked {s : State} (hwf : s.txBuf.wf = true) (i : Instr) {k : Nat} (hk : k < dlenOf i) :
    (invoked (readyState i s)).txBuf.read (dofsOf i + k) = 0x00 := by
  rw [invoked_txBuf, Memory.read_writeRun_inside (Memory.wf_writeRun hwf _ _) (by simpa using hk)]
  simp

/-- The callback's calls write in the data area only (R153, R186). -/
theorem read_itemsWritten_outside {i : Instr} {s : State} {acts : List CbAct} (hv : i.structurallyValid = true)
    (hview : rxHoldsView i s) (hp : CbAct.process ∉ acts) {a : Nat}
    (ha : a < dofsOf i ∨ dofsOf i + dlenOf i ≤ a) :
    (itemsWritten acts (invoked (readyState i s))).read a = (invoked (readyState i s)).txBuf.read a := by
  obtain ⟨_, hstep, _⟩ := runActs_of_next (runActs_invoked hv hview hp)
  exact hstep.outside (readyState_fits i s) a ha

/-- The payload after the callback's calls: the decoder's bytes, then what the data area holds. -/
theorem payload_eq {i : Instr} {s : State} {acts : List CbAct} (hv : i.structurallyValid = true)
    (hwf : s.txBuf.wf = true) (hview : rxHoldsView i s) (hp : CbAct.process ∉ acts) :
    (itemsWritten acts (invoked (readyState i s))).readRun 2 i.okPlen =
      decoderBytes i ++ (itemsWritten acts (invoked (readyState i s))).readRun (dofsOf i) (dlenOf i) := by
  have hafter := data_after_decoderBytes i
  have hdecoder : (itemsWritten acts (invoked (readyState i s))).readRun 2 (decoderBytes i).length =
      decoderBytes i :=
    (Memory.readRun_congr fun k hk => read_itemsWritten_outside hv hview hp (by omega)).trans
      (readRun_decoderBytes_invoked hwf i)
  rw [Memory.readRun_okPlen, hdecoder]

/-! ### What the data area holds (R183 to R187) -/

/-- After a bit read: the bit written, and 0 for the items not written and beyond the quantity (R183, R187). -/
theorem getLsbD_data_of_bit {i : Instr} {s : State} (hk : kindOf i = .bit) (hwf : s.txBuf.wf = true)
    (acts : List CbAct) {k : Nat} (hlt : k < 8 * dlenOf i) :
    (((itemsWritten acts (invoked (readyState i s))).readRun (dofsOf i) (dlenOf i)).getD (k / 8) 0).getLsbD (k % 8) =
      if k < i.requestQty then (bitWrites acts).getD k false else false := by
  have hcap : capOf i = i.requestQty := by simp [capOf, hk]
  have hzero := read_data_invoked hwf i (k := k / 8) (by omega)
  obtain ⟨_, hbits, _⟩ := itemsWritten_bits (s := invoked (readyState i s)) hk (Nat.zero_le _)
    (invoked_txBuf_wf hwf i) acts
  rw [← Memory.read_of_readRun rfl (k := k / 8) (by omega)]
  refine (hbits k).trans ?_
  change (if 0 ≤ k ∧ k < capOf i ∧ k < 0 + (bitWrites acts).length then (bitWrites acts).getD k false
    else ((invoked (readyState i s)).txBuf.read (dofsOf i + k / 8)).getLsbD (k % 8)) = _
  rw [hzero, hcap]
  by_cases hq : k < i.requestQty
  · by_cases hw : k < (bitWrites acts).length <;> simp [hq, hw]
  · simp [hq]

/-- A run written at the start of an area of zeros leaves the zeros after it. -/
theorem Memory.readRun_writeRun_zeros {m : Memory} (hwf : m.wf = true) {a n : Nat} {l : List Byte}
    (hl : l.length ≤ n) (hzero : ∀ k < n, m.read (a + k) = 0x00) :
    (m.writeRun a l).readRun a n = l ++ List.replicate (n - l.length) 0x00 := by
  obtain ⟨d, rfl⟩ := Nat.exists_eq_add_of_le hl
  rw [Memory.readRun_append, Memory.readRun_writeRun hwf, Nat.add_sub_cancel_left]
  congr 1
  refine List.ext_getElem? fun k => ?_
  rw [Memory.getElem?_readRun, List.getElem?_replicate]
  split
  · rw [Memory.read_writeRun_outside _ (by omega), Nat.add_assoc, hzero _ (by omega)]
  · rfl

theorem length_flatMap_itemBytes (k : BuilderKind) (vs : List U16) :
    (vs.flatMap (itemBytes k)).length = itemSize k * vs.length := by
  simp [List.length_flatMap, Nat.mul_comm]

/-- After a register read or a raw transfer: the items written, in order, and 0 for those not written (R184, R187). -/
theorem readRun_data_of_registers {i : Instr} {s : State} (hk : kindOf i = .reg ∨ kindOf i = .rawByte)
    (hwf : s.txBuf.wf = true) (acts : List CbAct) :
    (itemsWritten acts (invoked (readyState i s))).readRun (dofsOf i) (dlenOf i) =
      ((registerWrites acts).take i.requestQty).flatMap (itemBytes (kindOf i)) ++
        List.replicate (itemSize (kindOf i) * (i.requestQty - (registerWrites acts).length)) 0x00 := by
  have hcap : capOf i = i.requestQty := by rcases hk with hk | hk <;> simp [capOf, hk]
  have hdlen : dlenOf i = itemSize (kindOf i) * i.requestQty := by
    rcases hk with hk | hk <;> simp [dlenOf, itemSize, hk]
  have hwritten : itemsWritten acts (invoked (readyState i s)) = (invoked (readyState i s)).txBuf.writeRun (dofsOf i)
      (((registerWrites acts).take (capOf i)).flatMap (itemBytes (kindOf i))) :=
    itemsWritten_registers (s := invoked (readyState i s)) hk (Nat.zero_le _) acts
  have hrest : i.requestQty - min i.requestQty (registerWrites acts).length =
      i.requestQty - (registerWrites acts).length := by omega
  rw [hwritten, hcap, Memory.readRun_writeRun_zeros (invoked_txBuf_wf hwf i) ?_
    fun k hlt => read_data_invoked hwf i hlt]
  · rw [length_flatMap_itemBytes, List.length_take, hdlen, ← Nat.mul_sub, hrest]
  · rw [length_flatMap_itemBytes, List.length_take, hdlen]
    exact Nat.mul_le_mul_left _ (Nat.min_le_left ..)

/-! ### The statements -/

theorem countedFrame_eq {p : Params} {unit fc : Byte} {data : List Byte} {n : Nat} (h : data.length = n) :
    countedFrame p unit fc data = withChecksum p ([unit, fc] ++ ([BitVec.ofNat 8 n] ++ data)) := by
  subst h; rfl

/-- Settles O30: `exec_ok` with the length byte and the packed bits as the payload. -/
theorem bitReadsAnswered : Obligations.BitReadsAnswered := by
  intro s unit reg qty extra acts fc i hi hmin hmax hcb htx hwf he hp
  have hv : i.structurallyValid = true := by
    rcases hi with ⟨_, rfl⟩ | ⟨_, rfl⟩ <;> simp [Instr.structurallyValid, hmin, hmax]
  have hview : rxHoldsView i s := by rcases hi with ⟨_, rfl⟩ | ⟨_, rfl⟩ <;> rfl
  have hkind : kindOf i = .bit := by rcases hi with ⟨_, rfl⟩ | ⟨_, rfl⟩ <;> rfl
  have hbits := fun k hk => getLsbD_data_of_bit hkind hwf acts (k := k) hk
  obtain ⟨t, hexec, hrest⟩ := exec_ok hv hcb htx hwf hview he hp (payload_eq hv hwf hview hp)
  have hlast : 4 + i.okPlen = 5 + ceil8 qty.toNat := by
    rcases hi with ⟨_, rfl⟩ | ⟨_, rfl⟩ <;> exact (Nat.add_assoc 4 1 _).symm
  rw [hlast] at hrest
  rcases hi with ⟨rfl, rfl⟩ | ⟨rfl, rfl⟩ <;>
    exact ⟨t, _, hexec, Memory.length_readRun .., hbits, countedFrame_eq (Memory.length_readRun ..) ▸ hrest⟩

/-- Settles O31: `exec_ok` with the length byte and the registers as the payload. -/
theorem registerReadsAnswered : Obligations.RegisterReadsAnswered := by
  intro s unit reg qty extra acts fc i hi hmin hmax hcb htx hwf he hp
  have hv : i.structurallyValid = true := by
    rcases hi with ⟨_, rfl⟩ | ⟨_, rfl⟩ <;> simp [Instr.structurallyValid, hmin, hmax]
  have hview : rxHoldsView i s := by rcases hi with ⟨_, rfl⟩ | ⟨_, rfl⟩ <;> rfl
  have hkind : kindOf i = .reg := by rcases hi with ⟨_, rfl⟩ | ⟨_, rfl⟩ <;> rfl
  have hdata := readRun_data_of_registers (s := s) (.inl hkind) hwf acts
  obtain ⟨t, hexec, hrest⟩ := exec_ok hv hcb htx hwf hview he hp (payload_eq hv hwf hview hp)
  have hlast : 4 + i.okPlen = 5 + 2 * qty.toNat := by
    rcases hi with ⟨_, rfl⟩ | ⟨_, rfl⟩ <;> exact (Nat.add_assoc 4 1 _).symm
  rw [hlast] at hrest
  rcases hi with ⟨rfl, rfl⟩ | ⟨rfl, rfl⟩ <;>
    exact ⟨t, _, hexec, hdata, countedFrame_eq (Memory.length_readRun ..) ▸ hrest⟩

/-- Settles O32: `exec_ok` with the low bytes as the payload. -/
theorem rawTransferAnswered : Obligations.RawTransferAnswered := by
  rintro s unit reg ignored qty extra acts _ rfl hmin hmax hcb htx hwf he hp
  have hv : (Instr.rawTransfer unit reg ignored qty extra).structurallyValid = true := by
    simp [Instr.structurallyValid, hmin, hmax]
  have hview : rxHoldsView (.rawTransfer unit reg ignored qty extra) s := rfl
  have hdata := readRun_data_of_registers (i := .rawTransfer unit reg ignored qty extra) (s := s) (.inr rfl) hwf acts
  obtain ⟨t, hexec, hrest⟩ := exec_ok hv hcb htx hwf hview he hp (payload_eq hv hwf hview hp)
  refine ⟨t, _, hexec, ?_, hrest⟩
  rw [List.map_eq_flatMap, ← Nat.one_mul (_ - _)]
  exact hdata

/-- Settles O33: `exec_ok` with the echo as the payload, which the callback's calls leave alone. -/
theorem singleWritesEchoed : Obligations.SingleWritesEchoed := by
  intro s unit reg value extra acts fc i hi hcb htx hwf hview he hp
  have hv : i.structurallyValid = true := by
    rcases hi with ⟨_, rfl, hval⟩ | ⟨_, rfl⟩
    · simpa [Instr.structurallyValid] using hval
    · rfl
  obtain ⟨t, hexec, htrace, htxBuf, hout, hplen, hbkind, hbcap, hdofs, hdlen, hwofs, hrest⟩ :=
    exec_ok hv hcb htx hwf hview he hp (payload_eq hv hwf hview hp)
  rcases hi with ⟨rfl, rfl, _⟩ | ⟨rfl, rfl⟩ <;>
    exact ⟨t, hexec, htrace, htxBuf, hout, hplen, hbkind, hbcap, hdofs, hdlen, hwofs.trans (Nat.min_zero _), hrest⟩

/-- Settles O34: `exec_ok` with the echo of address and quantity as the payload. -/
theorem multipleWritesEchoed : Obligations.MultipleWritesEchoed := by
  intro s unit reg qty bc data acts fc i hi hmin hfit hcb htx hwf hview he hp
  have hv : i.structurallyValid = true := by
    rcases hi with ⟨_, rfl, hmax, hbc⟩ | ⟨_, rfl, hmax, hbc⟩ <;>
      simp [Instr.structurallyValid, multiValid, hmin, hmax, hfit, ← hbc]
  obtain ⟨t, hexec, htrace, htxBuf, hout, hplen, hbkind, hbcap, hdofs, hdlen, hwofs, hrest⟩ :=
    exec_ok hv hcb htx hwf hview he hp (payload_eq hv hwf hview hp)
  rcases hi with ⟨rfl, rfl, _⟩ | ⟨rfl, rfl, _⟩ <;>
    exact ⟨t, hexec, htrace, htxBuf, hout, hplen, hbkind, hbcap, hdofs, hdlen, hwofs.trans (Nat.min_zero _), hrest⟩

end Sys2Proof.Machine

namespace Sys2Proof

/-! ### Frames with the default checksum (R52, R125) -/

/-- An instruction's bytes followed by the low and the high byte of their CRC-16/MODBUS decode to it under the default
parameters (O1). -/
theorem decode_default_of_crc16Modbus (i : Instr) (hi lo : Byte) (hwf : i.wf Params.default = true)
    (hcrc : crc16Modbus (i.header Params.default ++ i.tail) = be16 hi lo) :
    decode Params.default (i.header Params.default ++ i.tail ++ [lo, hi]) = .ok i := by
  have hsum : checksum Params.default (i.header Params.default ++ i.tail) = [lo, hi] :=
    (congrArg beBytes (crc16_modbusSwapped_of_eq_be16 hcrc)).trans (beBytes_be16 lo hi)
  rw [← hsum]
  exact decodeEncodeGivesBack Params.default i hwf

/-- Settles O5: each frame is its instruction's bytes followed by their CRC-16/MODBUS, which is run round by round. -/
theorem writtenOutFramesDecode : Obligations.WrittenOutFramesDecode := by
  refine ⟨decode_default_of_crc16Modbus (.readCoils 0x01 0x0013 0x000A []) 0xC8 0x4D (by decide) ?_,
    decode_default_of_crc16Modbus (.readHoldingRegisters 0x01 0x0000 0x0003 []) 0xCB 0x05 (by decide) ?_,
    decode_default_of_crc16Modbus (.writeSingleCoil 0x01 0x00AC 0xFF00 []) 0x1B 0x4C (by decide) ?_,
    decode_default_of_crc16Modbus (.writeMultipleRegisters 0x01 0x0001 0x0002 [0x04, 0x00, 0x0A, 0x01, 0x02])
      0x30 0x92 (by decide) ?_,
    decode_default_of_crc16Modbus (.illegalFunction 0x01 0x07 0x0000 0x00 0x00 []) 0x0A 0xB4 (by decide) ?_⟩
  all_goals
    simp [crc16Modbus, crcByte, crcRounds, crcRound, be16, Instr.header, Instr.fc, Instr.tail, beBytes, hi8, lo8]

end Sys2Proof

/-! PROOFS. The statements about the dispatcher and the callback port: no callback, a code the callback returns, a
suppressed response, the ports that leave a poll without an end state, the host's calls from outside, and the builder and
accessor calls that only mark (43_dispatch_builder.md R180 to R192; 44_response_encoder.md R212, R213, R217). -/

namespace Sys2Proof.Machine

/-! ### The state after the port calls -/

@[simp] theorem called_trace (i : Instr) (s : State) :
    (called i s).trace = s.trace ++ [.callback i.unit (i.fc s.params) i.reg i.requestQty i.view] ++
      s.env.cb.acts.filterMap (eventOf i) := rfl
@[simp] theorem called_marks (i : Instr) (s : State) :
    (called i s).marks = marksAfter s.marks (callMarks i s.env.cb.acts) := rfl
@[simp] theorem called_dirLine (i : Instr) (s : State) : (called i s).dirLine = s.dirLine := by simp [called, invoked]
@[simp] theorem called_cfgDir (i : Instr) (s : State) : (called i s).cfgDir = s.cfgDir := by simp [called, invoked]
@[simp] theorem called_req (i : Instr) (s : State) :
    (called i s).req = some ⟨i.unit, i.fc s.params, i.reg, i.requestQty, i.viewOff, i.view.length⟩ := by
  simp [called, invoked]
@[simp] theorem called_env (i : Instr) (s : State) : (called i s).env = s.env := by simp [called, invoked]
@[simp] theorem called_params (i : Instr) (s : State) : (called i s).params = s.params := by simp [called, invoked]

/-- The builder's writes keep the canonical form of `TX_BUF`. -/
theorem called_txBuf_wf {i : Instr} {s : State} (hv : i.structurallyValid = true) (hview : rxHoldsView i s)
    (hp : CbAct.process ∉ s.env.cb.acts) (hwf : s.txBuf.wf = true) : (called i s).txBuf.wf = true := by
  obtain ⟨_, hstep, _⟩ := runActs_of_next (runActs_called hv hview hp)
  exact hstep.wf (invoked_txBuf_wf hwf i)

/-- The decoder and the builder write in the payload only (R153, R180, R186). -/
theorem called_txBuf_outside {i : Instr} {s : State} (hv : i.structurallyValid = true) (hview : rxHoldsView i s)
    (hp : CbAct.process ∉ s.env.cb.acts) {a : Nat} (ha : a < 2 ∨ 2 + i.okPlen ≤ a) :
    (called i s).txBuf.read a = s.txBuf.read a := by
  have hend := dofs_add_dlen hv
  have hofs := data_after_decoderBytes i
  rw [called_txBuf, read_itemsWritten_outside hv hview hp (by omega)]
  exact clearData_outside hv s a ha

/-- Only a returned `OK` is checked for a short fill (R187). -/
theorem returned_of_ne_ok {st : Status} (h : st ≠ .ok) (s : State) :
    returned st s = setStatus st (emit (.callbackReturned st) s) :=
  if_neg fun hfill => h hfill.1

/-- A READY request whose callback returns a status other than `OK`: the encoder, from what the port calls left, with no
mark for a short fill (R187, R191). -/
theorem exec_of_returned_ne_ok {i : Instr} {s : State} {st : Status} (hv : i.structurallyValid = true)
    (hcb : s.cfgCb = true) (hview : rxHoldsView i s) (hp : CbAct.process ∉ s.env.cb.acts)
    (he : s.env.cb.ends = .returns st) (hzero : st ≠ .exc 0x00) (hok : st ≠ .ok) :
    exec i s = encodeResponse st (setStatus st (emit (.callbackReturned st) (called i s))) := by
  rw [exec_returns hv hcb (runActs_called hv hview hp) he hzero, returned_of_ne_ok hok]

/-! ### Transmission -/

/-- A response that is not suppressed hangs when `TxSend` never completes (R217). -/
theorem encodeResponse_hangs {st : Status} {s : State} (hst : st ≠ .suppress) (htx : s.env.txCompletes = false) :
    encodeResponse st s = .fault .txNeverCompletes := by
  have htx' : ¬ s.env.txCompletes = true := by rw [htx]; nofun
  rw [encodeResponse_eq]
  cases st with
  | suppress => exact absurd rfl hst
  | ok => exact if_neg htx'
  | exc e => exact if_neg htx'

/-- An exception response that completes, as an observer sees it, and what stays of the state `w` it starts from (R212,
R215). -/
theorem encodeResponse_exc {w : State} (htx : w.env.txCompletes = true) (hwf : w.txBuf.wf = true) (e : Byte) :
    ∃ t, encodeResponse (.exc e) w = .next t ∧
      t.trace = w.trace ++ sendEvents w.cfgDir (exceptionFrame w.params (curReq w).unit (curReq w).fc e) ∧
      t.txBuf.readRun 0 5 = exceptionFrame w.params (curReq w).unit (curReq w).fc e ∧
      (∀ a, 5 ≤ a → t.txBuf.read a = w.txBuf.read a) ∧
      t.plen = 1 ∧ t.wofs = w.wofs ∧ t.marks = w.marks ∧ t.dirLine = if w.cfgDir then false else w.dirLine := by
  have hencode : encodeResponse (.exc e) w = .next (responded 3 (buildException e (enter .responding w))) := by
    rw [encodeResponse_eq]
    exact if_pos htx
  obtain ⟨htrace, hrun, hout⟩ := responded_buildException (s := enter .responding w) hwf e
  exact ⟨_, hencode, htrace, hrun, hout, by simp, by simp, by simp,
    by rw [responded_dirLine, buildException_cfgDir, buildException_dirLine, enter_cfgDir, enter_dirLine]⟩

/-! ### What a READY request comes to -/

/-- Settles O37: the exception response from the state in which the data area has been cleared. -/
theorem noCallbackAnswered : Obligations.NoCallbackAnswered := by
  intro s i hv hcb htx hwf
  have hstart : exec i s =
      encodeResponse (.exc 0x04) (setStatus (.exc 0x04) (clearData (enter .dispatching (readyState i s)))) := by
    rw [exec_of_valid hv, dispatch_no_callback (s := readyState i s) hcb]
  have hclear : (clearData (enter .dispatching (readyState i s))).txBuf.wf = true := by
    simpa [invoked] using invoked_txBuf_wf hwf i
  obtain ⟨t, hencode, htrace, hrun, hout, hplen, _, hmarks, hdir⟩ :=
    encodeResponse_exc (w := setStatus (.exc 0x04) (clearData (enter .dispatching (readyState i s))))
      (by simpa using htx) (by simpa using hclear) 0x04
  have hexec := hstart.trans hencode
  obtain ⟨hkeeps, hover⟩ := exec_keeps hexec
  refine ⟨t, hexec, ?_, ?_, fun a h5 ha => ?_, hplen, ?_, ?_, hkeeps, hover⟩
  · simpa [curReq] using htrace
  · simpa [curReq] using hrun
  · rw [hout a h5, setStatus_txBuf, clearData_outside hv s a (.inr ha)]
  · simpa using hmarks
  · cases hd : s.cfgDir <;> simpa [hd] using hdir

/-- Settles O38: the exception response of the returned code, from the state the port calls left. -/
theorem callbackExceptionSentVerbatim : Obligations.CallbackExceptionSentVerbatim := by
  intro s i acts e hv hcb htx hwf hp hcbRun hzero hview
  obtain rfl : acts = s.env.cb.acts := by rw [hcbRun]
  have hends : s.env.cb.ends = .returns (.exc e) := by rw [hcbRun]
  have hne : Status.exc e ≠ .exc 0x00 := fun h => hzero (Status.exc.inj h)
  have hstart := exec_of_returned_ne_ok hv hcb hview hp hends hne nofun
  obtain ⟨t, hencode, htrace, hrun, hout, hplen, hwofs, hmarks, hdir⟩ :=
    encodeResponse_exc (w := setStatus (.exc e) (emit (.callbackReturned (.exc e)) (called i s)))
      (by simpa using htx) (by simpa using called_txBuf_wf hv hview hp hwf) e
  have hexec := hstart.trans hencode
  obtain ⟨hkeeps, hover⟩ := exec_keeps hexec
  refine ⟨t, hexec, ?_, ?_, fun a h5 ha => ?_, hplen, ?_, ?_, hdir.trans (by simp), hkeeps, hover⟩
  · simpa [curReq] using htrace
  · simpa [curReq] using hrun
  · rw [hout a h5, setStatus_txBuf, emit_txBuf, called_txBuf_outside hv hview hp (.inr ha)]
  · simpa using hwofs
  · simpa using hmarks

/-- Settles O39: the cycle ends right after the callback returned. -/
theorem suppressedResponseSilent : Obligations.SuppressedResponseSilent := by
  intro s i acts hv hcb hp hcbRun hview
  obtain rfl : acts = s.env.cb.acts := by rw [hcbRun]
  have hends : s.env.cb.ends = .returns .suppress := by rw [hcbRun]
  have hexec := exec_of_returned_ne_ok hv hcb hview hp hends nofun nofun
  obtain ⟨hkeeps, hover⟩ := exec_keeps hexec
  exact ⟨_, hexec, by simp, fun a ha => called_txBuf_outside hv hview hp ha, by simp, by simp, by simp, by simp,
    hkeeps, hover⟩

/-- A request answered without the callback hangs when `TxSend` never completes: a failed check of its row, or no
callback registered (R155, R182, R217). -/
theorem exec_hangs_without_callback {i : Instr} {s : State} (htx : s.env.txCompletes = false)
    (h : i.structurallyValid = false ∨ s.cfgCb = false) : exec i s = .fault .txNeverCompletes := by
  cases hv : i.structurallyValid with
  | false =>
    rw [exec_of_invalid hv]
    exact encodeResponse_hangs nofun htx
  | true =>
    have hcb : s.cfgCb = false := h.resolve_left (by rw [hv]; nofun)
    rw [exec_of_valid hv, dispatch_no_callback (s := readyState i s) hcb]
    exact encodeResponse_hangs nofun htx

/-- Settles O40: in the clauses with a callback that does not call `Process()`, its port calls end in some state `u`. -/
theorem brokenPortsHaveNoEndState : Obligations.BrokenPortsHaveNoEndState := by
  intro s i
  refine ⟨fun hv hcb hp => ?_, fun hv hcb hp he => ?_, fun hv hcb hp he => ?_, exec_hangs_without_callback,
    fun st hv hcb hp he hzero hsup htx => ?_⟩
  · rw [exec_of_valid hv]
    exact dispatch_reentrant (s := readyState i s) hcb hp
  · obtain ⟨u, _, hr, _⟩ := runActs_next hp (invoked (readyState i s))
    rw [exec_of_valid hv]
    exact dispatch_statusZero (s := readyState i s) hcb hr he
  · obtain ⟨u, _, hr, _⟩ := runActs_next hp (invoked (readyState i s))
    rw [exec_of_valid hv]
    exact dispatch_never (s := readyState i s) hcb hr he
  · obtain ⟨u, _, hr, hu, _⟩ := runActs_next hp (invoked (readyState i s))
    have henv : (returned st u).env = s.env := by simp [returned, hu.keeps.env, invoked]
    rw [exec_returns hv hcb hr he hzero]
    exact encodeResponse_hangs hsup (by rw [henv, htx])

/-! ### Calls that have no meaning, and calls that only mark -/

/-- Settles O16: the step of each of these host events is its refusal. -/
theorem callsOutsideCallbackRefused : Obligations.CallsOutsideCallbackRefused := by
  intro s rest
  refine ⟨fun a hhost => ?_, fun hhost => ?_⟩
  · rw [step, hhost]; rfl
  · rw [step, hhost]; rfl

theorem writeBit_wrong_kind {s : State} (hk : s.bkind ≠ .bit) (b : Bool) : writeBit b s = markFault .builderKind s :=
  if_pos hk

theorem writeRegister_wrong_kind {s : State} (hreg : s.bkind ≠ .reg) (hraw : s.bkind ≠ .rawByte) (v : U16) :
    writeRegister v s = markFault .builderKind s := by
  cases hk : s.bkind with
  | none => simp [writeRegister, hk]
  | bit => simp [writeRegister, hk]
  | reg => exact absurd hk hreg
  | rawByte => exact absurd hk hraw

/-- Settles O43. -/
theorem refusedBuilderWritesIgnored : Obligations.RefusedBuilderWritesIgnored := fun _ b v =>
  ⟨fun hk => writeBit_wrong_kind hk b, fun hk hfull => writeBit_full hk hfull b,
    fun hreg hraw => writeRegister_wrong_kind hreg hraw v, fun hk hfull => writeRegister_full hk hfull v⟩

/-- `ReadCoilValue` serves function codes 0x05 and 0x0F only (R188, R190). -/
theorem coilAccess_unserved {s : State} {r : Req} (hreq : s.req = some r) (h05 : r.fc ≠ 0x05) (h0F : r.fc ≠ 0x0F)
    (k : Nat) : coilAccess k s = .err .accessorFunction := by
  rw [coilAccess_eq (r := r) (by rw [curReq, hreq]; rfl), if_neg h05, if_neg h0F]

/-- `ReadRegisterValue` serves function codes 0x06 and 0x10 only (R189, R190). -/
theorem registerAccess_unserved {s : State} {r : Req} (hreq : s.req = some r) (h06 : r.fc ≠ 0x06)
    (h10 : r.fc ≠ 0x10) (k : Nat) : registerAccess k s = .err .accessorFunction := by
  rw [registerAccess_eq (r := r) (by rw [curReq, hreq]; rfl), if_neg h06, if_neg h10]

/-- Settles O45: the call's event carries `ERR`, and the answer's mark is all that changes. -/
theorem accessorsServeOnlyTheirFunctions : Obligations.AccessorsServeOnlyTheirFunctions := by
  intro s r k hreq
  refine ⟨fun h05 h0F => ?_, fun h06 h10 => ?_⟩
  · have hacc := coilAccess_unserved hreq h05 h0F k
    exact ⟨hacc, by rw [runAct, hacc]; rfl⟩
  · have hacc := registerAccess_unserved hreq h06 h10 k
    exact ⟨hacc, by rw [runAct, hacc]; rfl⟩

end Sys2Proof.Machine

/-! PROOFS. The statements about what a step puts on the wire: at most one frame, and only from a poll; its length and
checksum, its unit byte, and the function byte of an exception (44_response_encoder.md). -/

namespace Sys2Proof.Machine

/-! ### What a list of events puts on the wire -/

theorem sent_append (l l' : List PortEvent) : sent (l ++ l') = sent l ++ sent l' := by
  induction l with
  | nil => rfl
  | cons e es ih => cases e <;> simp [sent, ih]

/-- One transmission sends one frame, with or without direction control (R215, R216). -/
@[simp] theorem sent_sendEvents (dir : Bool) (bytes : List Byte) : sent (sendEvents dir bytes) = [bytes] := by
  cases dir <;> rfl

/-- Reading the transport sends nothing (R104). -/
@[simp] theorem sent_map_rxRead (l : List Byte) : sent (l.map .rxRead) = [] := by
  induction l with
  | nil => rfl
  | cons b l ih => simpa [sent] using ih

/-- The callback's own port calls send nothing (R181). -/
theorem sent_of_isCallEvent {calls : List PortEvent} (h : ∀ e ∈ calls, isCallEvent e = true) : sent calls = [] := by
  induction calls with
  | nil => rfl
  | cons e es ih =>
    obtain ⟨he, hrest⟩ := List.forall_mem_cons.1 h
    have hes := ih hrest
    cases e with
    | writeBit | writeRegister | readCoilValue | readRegisterValue => exact hes
    | _ => exact absurd he nofun

/-- The samples and reads that take a burst send nothing (R100, R104). -/
theorem sent_burst (c n : Nat) (q : List Byte) : sent ([.rxAvailable c, .now n] ++ q.map .rxRead) = [] := by
  rw [sent_append, sent_map_rxRead]; rfl

/-! ### The frames an engine step sends -/

/-- A response with the unit byte `unit`: a body of 3 to 253 bytes and its checksum (R211, R212, R214). -/
def IsResponse (p : Params) (unit : Byte) (bytes : List Byte) : Prop :=
  ∃ body, bytes = withChecksum p body ∧ 3 ≤ body.length ∧ body.length ≤ 253 ∧ body[0]? = some unit

theorem IsResponse.length_bounds {p : Params} {unit : Byte} {bytes : List Byte} (h : IsResponse p unit bytes) :
    5 ≤ bytes.length ∧ bytes.length ≤ 255 := by
  obtain ⟨body, rfl, hmin, hmax, _⟩ := h
  rw [length_withChecksum]
  omega

theorem IsResponse.checksumOk {p : Params} {unit : Byte} {bytes : List Byte} (h : IsResponse p unit bytes) :
    checksumOk p bytes = true := by
  obtain ⟨body, rfl, _⟩ := h
  exact checksumOk_withChecksum p body

theorem IsResponse.unitByte {p : Params} {unit : Byte} {bytes : List Byte} (h : IsResponse p unit bytes) :
    bytes[0]? = some unit := by
  obtain ⟨body, rfl, hmin, _, hunit⟩ := h
  rw [withChecksum, List.getElem?_append_left (by omega), hunit]

/-- A frame that answers the request the state `s` has pending: a response that carries the request's address byte,
which is the engine's own address if it has one (R122, R219). -/
structure Answers (s : State) (bytes : List Byte) : Prop where
  response : ∃ unit, s.rxQueue[0]? = some unit ∧ IsResponse s.params unit bytes
  addressed : s.cfgUnit ≠ 0 → s.rxQueue[0]? = some s.cfgUnit

/-- An instruction sends nothing, or one response with its own unit byte (R210, R219, R221). -/
theorem exec_sends {i : Instr} {s t : State} (h : exec i s = .next t) :
    ∃ out, t.trace = s.trace ++ out ∧ (sent out = [] ∨
      ∃ bytes, sent out = [bytes] ∧ (s.txBuf.wf = true → IsResponse s.params i.unit bytes)) := by
  obtain ⟨inv, out, htr, hinv, hout⟩ := exec_events h
  have hquiet : sent inv = [] := by
    rcases hinv with rfl | ⟨v, calls, st, rfl, hcalls⟩
    · rfl
    · rw [sent_append, sent, sent_of_isCallEvent hcalls]; rfl
  refine ⟨inv ++ out, by rw [htr, List.append_assoc], ?_⟩
  rw [sent_append, hquiet, List.nil_append]
  rcases hout with rfl | ⟨bytes, rfl, hbytes⟩
  · exact .inl rfl
  · exact .inr ⟨bytes, sent_sendEvents _ _, hbytes⟩

/-- The unit address of a request that runs is the first pending byte, and the validator has accepted it (R71, R122). -/
theorem unit_of_taken {env : PollEnv} {s : State} {i : Instr} {c : Nat} (hwf : s.rxBuf.wf = true)
    (hq : c ≤ s.rxQueue.length) (hfits : c ≤ s.params.rxCap) (hv : validate (validating (burstTaken env c s)) = none)
    (hd : decode s.params (rxFrame (burstTaken env c s)) = .ok i) :
    s.rxQueue[0]? = some i.unit ∧ (s.cfgUnit ≠ 0 → s.rxQueue[0]? = some s.cfgUnit) := by
  obtain ⟨h8, hunit, _⟩ := (validate_burstTaken_eq_none_iff hwf hq hfits).1 hv
  rw [rxFrame_burstTaken hwf hq hfits] at hd
  have hfirst : (s.rxQueue.take c)[0]? = some i.unit := by
    rw [← (encodeDecodeGivesBack _ _ _ hd).2, encode_getElem?_zero]
  rw [List.getElem?_take_of_lt (by omega)] at hunit hfirst
  exact ⟨hfirst, hunit.resolve_left⟩

/-- A poll sends at most one frame, the answer to the request it took (R221, R240). -/
theorem process_sends {env : PollEnv} {s t : State} (h : process env s = .next t) :
    ∃ out, t.trace = s.trace ++ out ∧
      (sent out = [] ∨ ∃ bytes, sent out = [bytes] ∧ (Inv s → Answers s bytes)) := by
  obtain ⟨_, _, _, hcase⟩ := process_cases h
  cases hcase with
  | empty _ ht => subst ht; exact ⟨_, noFrameTaken_trace .., .inl rfl⟩
  | changed _ _ ht => subst ht; exact ⟨_, noFrameTaken_trace .., .inl rfl⟩
  | waiting _ _ _ ht => subst ht; exact ⟨_, noFrameTaken_trace .., .inl rfl⟩
  | overflow _ _ _ _ _ ht =>
    subst ht
    exact ⟨_, by rw [dropFrame_trace, burstTaken_trace, List.append_assoc], .inl (sent_burst _ _ _)⟩
  | dropped _ _ _ _ _ _ _ ht =>
    subst ht
    exact ⟨_, by rw [dropFrame_trace, validating_trace, burstTaken_trace, List.append_assoc],
      .inl (sent_burst _ _ _)⟩
  | run i _ _ _ hq hfits hv hd ht =>
    obtain ⟨out, htr, hout⟩ := exec_sends ht
    rw [requestTaken_trace, List.append_assoc s.trace, List.append_assoc s.trace] at htr
    refine ⟨_, htr, ?_⟩
    rw [sent_append, sent_burst, List.nil_append]
    refine hout.imp_right fun ⟨bytes, hsent, hbytes⟩ => ⟨bytes, hsent, fun hinv => ?_⟩
    obtain ⟨hfirst, haddressed⟩ := unit_of_taken hinv.rxWf hq hfits hv hd
    exact ⟨⟨i.unit, hfirst, hbytes hinv.txWf⟩, haddressed⟩

/-- What a step sends: nothing, or, if it polls, one frame, the answer to the request the poll took (R221). -/
theorem step_sends {s t : State} (h : step s = .next t) :
    ∃ out, t.trace = s.trace ++ out ∧ (sent out = [] ∨
      (∃ env rest, s.host = .poll env :: rest) ∧ ∃ bytes, sent out = [bytes] ∧ (Inv s → Answers s bytes)) := by
  cases step_cases h with
  | idle _ ht => subst ht; exact ⟨[], (List.append_nil _).symm, .inl rfl⟩
  | reset rest _ ht => subst ht; exact ⟨[], (List.append_nil _).symm, .inl rfl⟩
  | configure unit baud dir cb rest _ _ _ _ ht =>
    subst ht
    cases dir with
    | false => exact ⟨[], (List.append_nil _).symm, .inl rfl⟩
    | true => exact ⟨[.dirDeassert], rfl, .inl rfl⟩
  | arrive bytes rest _ ht => subst ht; exact ⟨[], (List.append_nil _).symm, .inl rfl⟩
  | poll env rest hhost ht =>
    obtain ⟨out, htr, hout⟩ := process_sends ht
    refine ⟨out, htr, hout.imp_right fun ⟨bytes, hsent, hans⟩ => ⟨⟨env, rest, hhost⟩, bytes, hsent, fun hinv => ?_⟩⟩
    obtain ⟨hresponse, haddressed⟩ := hans { hinv with }
    exact ⟨hresponse, haddressed⟩

/-- Every frame a step sends answers the request that was pending (R214, R218, R219). -/
theorem answers_of_sent {s t : State} {out : List PortEvent} {bytes : List Byte} (hinv : Inv s)
    (h : step s = .next t) (htr : t.trace = s.trace ++ out) (hmem : bytes ∈ sent out) : Answers s bytes := by
  obtain ⟨out', htr', hout⟩ := step_sends h
  obtain rfl : out = out' := List.append_cancel_left (htr.symm.trans htr')
  rcases hout with hnone | ⟨_, bytes', hone, hans⟩
  · rw [hnone] at hmem; cases hmem
  · rw [hone, List.mem_singleton] at hmem
    exact hmem ▸ hans hinv

/-- Settles O48: what `step_sends` says of the number of frames and of who sends them. -/
theorem atMostOneTransmission : Obligations.AtMostOneTransmission := by
  intro s t h
  obtain ⟨out, htr, hout⟩ := step_sends h
  refine ⟨out, htr, ?_, fun hpoll => ?_⟩
  · rcases hout with hnone | ⟨_, bytes, hone, _⟩
    · simp [hnone]
    · simp [hone]
  · exact hout.resolve_right fun ⟨⟨env, rest, hhost⟩, _⟩ => hpoll env rest hhost

/-- Settles O49: every frame sent is a response, and a response has its checksum and its length. -/
theorem sentFramesAreValid : Obligations.SentFramesAreValid := by
  intro s t out bytes hinv h htr hmem
  obtain ⟨⟨_, _, hresponse⟩, _⟩ := answers_of_sent hinv h htr hmem
  obtain ⟨hmin, hmax⟩ := hresponse.length_bounds
  exact ⟨hmin, hmax, hresponse.checksumOk⟩

/-- Settles O50: the response's first byte is the request's, which the validator has checked against `CFG_UNIT`. -/
theorem responseUnitIsRequestUnit : Obligations.ResponseUnitIsRequestUnit := by
  intro s t out bytes hinv h htr hmem
  obtain ⟨⟨unit, hpending, hresponse⟩, haddressed⟩ := answers_of_sent hinv h htr hmem
  have hunit : bytes[0]? = s.rxQueue[0]? := hresponse.unitByte.trans hpending.symm
  exact ⟨hunit, fun hcfg => hunit.trans (haddressed hcfg)⟩

/-! ### The function byte of an exception -/

/-- The exception code is the function code with bit 7 set (R76). -/
theorem getLsbD_exceptionCode (fc : Byte) (k : Nat) :
    (exceptionCode fc).getLsbD k = (fc.getLsbD k || decide (7 = k)) := by
  rw [exceptionCode, BitVec.getLsbD_or, show (0x80 : Byte) = BitVec.twoPow 8 7 from rfl, BitVec.getLsbD_twoPow]
  rfl

/-- Settles O7: a code of 0x80 or more has bit 7 set already. -/
theorem exceptionBitOfHighCodes : Obligations.ExceptionBitOfHighCodes := by
  intro fc hhigh
  have h7 : fc.getLsbD 7 = true := (BitVec.msb_eq_decide fc).trans (decide_eq_true hhigh)
  refine BitVec.eq_of_getLsbD_eq fun k _ => ?_
  rw [getLsbD_exceptionCode]
  by_cases hk : 7 = k
  · rw [← hk, h7]; rfl
  · rw [decide_eq_false hk, Bool.or_false]

end Sys2Proof.Machine

/-! PROOFS. The statements about a poll as a whole: the entry conditions without which it has no meaning, and the
sequence of port events it shows (45_poll_cycle.md). -/

namespace Sys2Proof.Machine

/-! ### The entry conditions (R230) -/

/-- `CONFIGURED` is checked first, whatever else holds. -/
theorem process_of_not_configured {s : State} (hc : s.configured = false) (env : PollEnv) :
    process env s = .refused .notConfigured := by
  rw [process, hc]; rfl

theorem process_of_inProcess {s : State} (hc : s.configured = true) (hi : s.inProcess = true) (env : PollEnv) :
    process env s = .refused .reentrant := by
  rw [process, hc, hi]; rfl

/-- Settles O15. Where both conditions fail the model reports the missing Configure. -/
theorem pollEntryRefusals : Obligations.PollEntryRefusals := by
  intro s env rest hhost
  rw [step_poll hhost]
  have hnot (hc : s.configured = false) : process env { s with host := rest } = .refused .notConfigured :=
    process_of_not_configured (s := { s with host := rest }) hc env
  have hbusy (hc : s.configured = true) (hi : s.inProcess = true) :
      process env { s with host := rest } = .refused .reentrant :=
    process_of_inProcess (s := { s with host := rest }) hc hi env
  exact ⟨fun hc _ => hnot hc, hbusy, fun hc _ => .inl (hnot hc)⟩

/-! ### What a poll shows (R241) -/

/-- One callback invocation: the call, the port calls nested in it, the status it returns (R181, R241). -/
def IsInvocation (events : List PortEvent) : Prop :=
  ∃ u fc r q v calls st, events = .callback u fc r q v :: calls ++ [.callbackReturned st] ∧
    ∀ c ∈ calls, isCallEvent c = true

/-- What R241 admits after a poll's two samples, for a reported count and a direction setting: nothing, or a drained
burst with what handling it shows. -/
inductive AfterSamples (count : Nat) (dir : Bool) : List PortEvent → Prop where
  | nothing : AfterSamples count dir []
  | burst (reads : List Byte) (invoked out : List PortEvent) (hpos : count ≠ 0) (hreads : reads.length = count)
      (hinvoked : invoked = [] ∨ IsInvocation invoked) (hout : out = [] ∨ ∃ bytes, out = sendEvents dir bytes) :
      AfterSamples count dir (reads.map .rxRead ++ invoked ++ out)

/-- A burst that is dropped shows its reads alone (R107, R126). -/
theorem AfterSamples.reads {count : Nat} {dir : Bool} {reads : List Byte} (hpos : count ≠ 0)
    (hreads : reads.length = count) : AfterSamples count dir (reads.map .rxRead) := by
  simpa using AfterSamples.burst (dir := dir) reads [] [] hpos hreads (.inl rfl) (.inl rfl)

/-- An instruction shows at most one invocation, then at most one transmission (R241). -/
theorem exec_shows {i : Instr} {s t : State} (h : exec i s = .next t) :
    ∃ invoked out, t.trace = s.trace ++ invoked ++ out ∧ (invoked = [] ∨ IsInvocation invoked) ∧
      (out = [] ∨ ∃ bytes, out = sendEvents s.cfgDir bytes) := by
  obtain ⟨invoked, out, htr, hinvoked, hout⟩ := exec_events h
  refine ⟨invoked, out, htr, hinvoked.imp_right ?_, hout.imp_right ?_⟩
  · rintro ⟨v, calls, st, heq, hcalls⟩
    exact ⟨_, _, _, _, v, calls, st, heq, hcalls⟩
  · rintro ⟨bytes, heq, _⟩
    exact ⟨bytes, heq⟩

/-- Every poll that ends in a state shows its two samples and then what R241 admits. -/
theorem process_shows {env : PollEnv} {s t : State} (h : process env s = .next t) :
    ∃ events, t.trace = s.trace ++ [.rxAvailable (reported env s), .now (env.clock % 2 ^ s.params.wt)] ++ events ∧
      AfterSamples (reported env s) s.cfgDir events := by
  obtain ⟨_, _, _, hcase⟩ := process_cases h
  have hreads (hq : reported env s ≤ s.rxQueue.length) :
      (s.rxQueue.take (reported env s)).length = reported env s := List.length_take_of_le hq
  cases hcase with
  | empty _ ht => subst ht; exact ⟨[], (List.append_nil _).symm, .nothing⟩
  | changed _ _ ht => subst ht; exact ⟨[], (List.append_nil _).symm, .nothing⟩
  | waiting _ _ _ ht => subst ht; exact ⟨[], (List.append_nil _).symm, .nothing⟩
  | overflow hpos _ _ hq _ ht =>
    subst ht
    exact ⟨_, by rw [dropFrame_trace, burstTaken_trace], .reads hpos (hreads hq)⟩
  | dropped _ hpos _ _ hq _ _ ht =>
    subst ht
    exact ⟨_, by rw [dropFrame_trace, validating_trace, burstTaken_trace], .reads hpos (hreads hq)⟩
  | run i hpos _ _ hq _ _ _ ht =>
    obtain ⟨invoked, out, htr, hinvoked, hout⟩ := exec_shows ht
    refine ⟨_, ?_, .burst (s.rxQueue.take (reported env s)) invoked out hpos (hreads hq) hinvoked hout⟩
    rw [htr, requestTaken_trace]
    simp only [List.append_assoc]

/-- Settles O47: what `process_shows` says; a burst is never empty, so without reads nothing follows the samples. -/
theorem pollObservation : Obligations.PollObservation := by
  intro s t env rest hhost hstep
  rw [step_poll hhost] at hstep
  obtain ⟨events, htr, hevents⟩ := process_shows hstep
  cases hevents with
  | nothing => exact ⟨[], [], [], by simpa using htr, .inl rfl, fun _ => ⟨rfl, rfl⟩, .inl rfl, .inl rfl⟩
  | burst reads invoked out hpos hreads hinvoked hout =>
    refine ⟨reads, invoked, out, by simpa using htr, .inr hreads, fun hnil => ?_, hinvoked, hout⟩
    exact absurd (hreads.symm.trans (congrArg List.length hnil)) hpos

end Sys2Proof.Machine

/-! PROOFS. The statements about what is not an ordinary answer: the marks of the model's faults, a host that does
nothing, and bytes the transport has lost or never had (60_exceptions.md). -/

namespace Sys2Proof.Machine

/-! ### The marks (R253) -/

/-- A poll clears no mark: until a request runs it touches none, and no instruction clears one (R253). -/
theorem process_marks_kept {env : PollEnv} {s t : State} {m : Mark} (h : process env s = .next t)
    (hm : s.marks.has m = true) : t.marks.has m = true := by
  obtain ⟨_, _, _, hcase⟩ := process_cases h
  cases hcase with
  | empty _ ht => rwa [ht, noFrameTaken_marks]
  | changed _ _ ht => rwa [ht, noFrameTaken_marks]
  | waiting _ _ _ ht => rwa [ht, noFrameTaken_marks]
  | overflow _ _ _ _ _ ht => rwa [ht, dropFrame_marks, burstTaken_marks]
  | dropped _ _ _ _ _ _ _ ht => rwa [ht, dropFrame_marks, validating_marks, burstTaken_marks]
  | run i _ _ _ _ _ _ _ ht =>
    obtain ⟨_, _, _, _, _, _, _, hkept, _⟩ := exec_leaves ht
    exact hkept m (by rwa [requestTaken_marks])

/-- Settles O46: the host events other than a poll leave the marks as they are, the reset event too. -/
theorem marksNeverCleared : Obligations.MarksNeverCleared := by
  intro s t m h hm
  cases step_cases h with
  | idle _ ht => rwa [ht]
  | reset rest _ ht => rwa [ht]
  | configure unit baud dir cb rest _ _ _ _ ht => subst ht; cases dir <;> exact hm
  | arrive bytes rest _ ht => rwa [ht]
  | poll env rest _ ht => exact process_marks_kept ht hm

/-! ### A host that does nothing (R263) -/

/-- Settles O17. -/
theorem nothingHappensWithoutHost : Obligations.NothingHappensWithoutHost := by
  intro s hhost
  rw [step, hhost]

/-! ### The transport's bytes (R266) -/

/-- A step with an arrival at the head of the host's list is that arrival. -/
theorem step_arrive {s : State} {bytes : List Byte} {rest : List HostEvent} (h : s.host = .arrive bytes :: rest) :
    step s = .next (arrive bytes { s with host := rest }) := by
  rw [step, h]; rfl

/-- What is lost of an arrival is the end of the queue it would have made. -/
theorem arrive_eq_take {s : State} (hcap : s.rxQueue.length ≤ s.params.tcap) (bytes : List Byte) :
    arrive bytes s = { s with rxQueue := (s.rxQueue ++ bytes).take s.params.tcap } := by
  rw [arrive, List.take_append, List.take_of_length_le hcap]

/-- Settles O18. -/
theorem arrivalsQueueUpToCapacity : Obligations.ArrivalsQueueUpToCapacity := by
  intro s bytes rest hhost hcap
  rw [step_arrive hhost, arrive_eq_take (s := { s with host := rest }) hcap]

/-- Settles O26: the poll would take a burst (R104), and the first byte the queue lacks ends it. -/
theorem missingByteRefused : Obligations.MissingByteRefused := by
  intro s env rest hhost hconf hidle hcap hsame hmissing hsilent
  have hpending : reported env s ≠ 0 := Nat.ne_zero_of_lt hmissing
  rw [step_poll_eq hhost hconf hidle, if_neg (Nat.not_lt.2 hcap), if_neg hpending, if_neg (not_not.2 hsame),
    if_neg (Nat.not_lt.2 hsilent), if_pos hmissing]

end Sys2Proof.Machine

/-! PROOFS. The statements about the reset event and Configure: what each writes, what it leaves, and which Configure has
no meaning (70_reset_and_hazards.md). -/

namespace Sys2Proof.Machine

/-- A step handles the event at the head of the host's list. -/
theorem step_event {s : State} {e : HostEvent} {rest : List HostEvent} (h : s.host = e :: rest) :
    step s = hostStep e { s with host := rest } := by
  rw [step, h]

/-! ### Reset (R280) -/

/-- Settles O9. The engine's elements are those of `State.reset`, so their values are O8's. -/
theorem resetEventResets : Obligations.ResetEventResets := by
  intro s rest hhost
  obtain ⟨configured, obsCount, obsTime, rxLen, plen, bkind, bcap, dofs, dlen, wofs, dirLine, req, status, phase⟩ :=
    resetValues
  exact ⟨applyReset { s with host := rest }, step_event hhost, rfl, configured, obsCount, obsTime, rxLen, plen, bkind,
    bcap, dofs, dlen, wofs, dirLine, req, status, phase, rfl, rfl, rfl, rfl⟩

/-! ### Configure (R281, R282) -/

section Configure

variable {s : State} {baud : BitVec 32} (unit : Byte) (dir cb : Bool)

/-- A second Configure is refused whatever its arguments are: `CONFIGURED` is checked first. -/
theorem configure_of_configured (hc : s.configured = true) (baud : BitVec 32) :
    configure unit baud dir cb s = .refused .configureTwice := by
  rw [configure, if_pos hc]

theorem configure_of_baud_zero (hc : s.configured = false) (hb : baud.toNat = 0) :
    configure unit baud dir cb s = .refused .badBaud := by
  rw [configure, if_neg (ne_true_of_eq_false hc), if_pos hb]

theorem configure_of_threshold_too_wide (hc : s.configured = false) (hb : 1 ≤ baud.toNat)
    (hw : 2 ^ s.params.wt ≤ silenceThreshold baud.toNat) :
    configure unit baud dir cb s = .refused .thresholdTooWide := by
  rw [configure, if_neg (ne_true_of_eq_false hc), if_neg (Nat.ne_zero_of_lt hb), if_pos hw]

/-- Driving the line to receive writes the line and the trace, and neither when there is no line. -/
theorem initDirection_eq (dir : Bool) (s : State) :
    initDirection dir s = { s with
      dirLine := if dir then false else s.dirLine
      trace := if dir then s.trace ++ [.dirDeassert] else s.trace } := by
  cases dir <;> rfl

/-- The converse of `configure_cases`: a Configure that meets R281's requirements ends in the state it writes. -/
theorem configure_of_legal (hc : s.configured = false) (hb : 1 ≤ baud.toNat)
    (hw : silenceThreshold baud.toNat < 2 ^ s.params.wt) :
    configure unit baud dir cb s = .next { s with
      configured := true
      cfgUnit := unit
      cfgThresh := silenceThreshold baud.toNat
      cfgDir := dir
      cfgCb := cb
      dirLine := if dir then false else s.dirLine
      trace := if dir then s.trace ++ [.dirDeassert] else s.trace } := by
  rw [configure, if_neg (ne_true_of_eq_false hc), if_neg (Nat.ne_zero_of_lt hb), if_neg (Nat.not_le.2 hw),
    initDirection_eq]

end Configure

/-- Settles O12. -/
theorem configureWrites : Obligations.ConfigureWrites := by
  intro s rest unit baud dir cb hhost hc hb hw
  exact (step_event hhost).trans (configure_of_legal (s := { s with host := rest }) unit dir cb hc hb hw)

/-- Settles O13, one branch of Configure for each refusal. -/
theorem configureRefusals : Obligations.ConfigureRefusals := by
  intro s rest unit baud dir cb hhost
  rw [step_event hhost]
  exact ⟨fun hc => configure_of_configured (s := { s with host := rest }) unit dir cb hc baud,
    configure_of_baud_zero (s := { s with host := rest }) unit dir cb,
    configure_of_threshold_too_wide (s := { s with host := rest }) unit dir cb⟩

end Sys2Proof.Machine
